-- ==== Sys2Proof/Word.lean ====
section
/-! DEFINITION. The plain values of the block (spec/00_scope.md R14): bytes, 16-bit parameters, line levels, colours. -/

namespace Sys2Proof

/-- A byte (R14). -/
abbrev Byte := BitVec 8

/-- A 16-bit parameter, sent as a little-endian pair (R11, R62). -/
abbrev Half := BitVec 16

/-- A line level, LOW (0) or HIGH (1) (R14). -/
inductive Level where
  | low
  | high
  deriving DecidableEq, Repr

/-- A colour: three bytes, no alpha (R214; the colour type is the spec's own choice, D11, log 4). -/
structure Colour where
  r : Byte
  g : Byte
  b : Byte
  deriving DecidableEq, Repr

/-- The two entries of the palette (R213). -/
inductive PixelClass where
  | black
  | white
  deriving DecidableEq, Repr

end Sys2Proof
end

