-- ==== Sys2Proof/Config.lean ====
section
/-! DEFINITION. The configuration record `Cfg` (spec/00_scope.md R6, R10, R11) and the free values of the model.
The defaults, the constants and the check of a configuration stand in Machine/Params.lean. -/

namespace Sys2Proof

/-- The pixel classifier as plain data (R213, log 4): the default of R214, or any total function of the colour,
given by the list of the colours it calls White. -/
inductive Classifier where
  /-- R214: squared Euclidean distance to black and to white, a tie goes to Black. -/
  | nearest
  /-- White exactly on the listed colours. -/
  | whiteOn (whites : List Colour)
  deriving DecidableEq, Repr

/-- The configuration of the block. Field names are the spec's, in small letters. -/
structure Cfg where
  /-- `WIDTH`, in pixels (R6). -/
  width : Nat
  /-- `HEIGHT`, in pixels (R6). -/
  height : Nat
  /-- `CMD_AW1` (R10). -/
  cmdAw1 : Byte
  /-- `CMD_AW2` (R10). -/
  cmdAw2 : Byte
  /-- `CMD_XWIN` (R10). -/
  cmdXwin : Byte
  /-- `CMD_YWIN` (R10). -/
  cmdYwin : Byte
  /-- `CMD_DOPT` (R10). -/
  cmdDopt : Byte
  /-- `CMD_DUC` (R10). -/
  cmdDuc : Byte
  /-- `CMD_ACT` (R10). -/
  cmdAct : Byte
  /-- `CMD_XCTR` (R10). -/
  cmdXctr : Byte
  /-- `CMD_YCTR` (R10). -/
  cmdYctr : Byte
  /-- `AW1_P` (R10). -/
  aw1P : Byte
  /-- `AW2_P` (R10). -/
  aw2P : Byte
  /-- `SS[0]` (R10). -/
  ss0 : Byte
  /-- `SS[1]` (R10). -/
  ss1 : Byte
  /-- `SS[2]` (R10). -/
  ss2 : Byte
  /-- `SS[3]` (R10). -/
  ss3 : Byte
  /-- `SS[4]` (R10). -/
  ss4 : Byte
  /-- `DEM_P` (R10). -/
  demP : Byte
  /-- `DOPT_P` (R10). -/
  doptP : Byte
  /-- `LUTSRC_P` (R10). -/
  lutsrcP : Byte
  /-- `FIN[0]` (R10). -/
  fin0 : Byte
  /-- `FIN[1]` (R10). -/
  fin1 : Byte
  /-- `TON_P` (R10). -/
  tonP : Byte
  /-- `SLP_P` (R10). -/
  slpP : Byte
  /-- `XEND16` (R11). -/
  xend16 : Half
  /-- `YSTART16` (R11). -/
  ystart16 : Half
  /-- `PD16` (R11). -/
  pd16 : Half
  /-- `BUSY_ACTIVE` (R11, R140). -/
  busyActive : Level
  /-- `classify` (R11, R213). -/
  classifier : Classifier
  /-- `STRICT` (R11, R246). -/
  strict : Bool
  deriving DecidableEq, Repr

/-- FREE VALUE: what byte `a` of the plane buffer holds while nothing has written it since power-on (R50, U16; log 12). -/
opaque Config.freePlaneByte : Nat → Byte

/-- FREE VALUE: what the column counter `i` holds after the n-th draw, before reduction to its range (R24, U16; log 13). -/
opaque Config.freeColumn : Nat → Nat

/-- FREE VALUE: what the row counter `j` holds after the n-th draw, before reduction to its range (R24, U16; log 13). -/
opaque Config.freeRow : Nat → Nat

end Sys2Proof
end

