-- ==== Sys2Proof/Syntax.lean ====
section
/-! DEFINITION. The instructions: one constructor per row of spec/opcode_table.json (the three levels of
spec/00_scope.md R5 and the micro-operations of spec/30_encoding.md R111), with their operands. -/

namespace Sys2Proof

/-- A pixel of an image whose colour is not the image's base colour. -/
structure Dot where
  x : Int
  y : Int
  colour : Colour
  deriving DecidableEq, Repr

/-- An image `(x0, y0, x1, y1, px)` (R63), as plain data: `px` is the base colour but at the listed dots (log 5). -/
structure Image where
  x0 : Int
  y0 : Int
  x1 : Int
  y1 : Int
  base : Colour
  dots : List Dot
  deriving DecidableEq, Repr

/-- The image of no pixel, all of whose parts are zero: the operand of a request that supplies none. -/
def Image.zero : Image := ⟨0, 0, 0, 0, ⟨0, 0, 0⟩, []⟩

/-- What a plane stream does to a byte on its way to the Framer (R186). -/
inductive PlaneXform where
  | identity
  | complement
  deriving DecidableEq, Repr

/-- The two uses of display-update-control (R100): `LUTSRC_P` in Initialize, `TON_P` in TurnOnDisplay. -/
inductive DucUse where
  | turnOn
  | lutSource
  deriving DecidableEq, Repr

/-- The two uses of a plane write (R100): the plane buffer in DisplayImage, a constant fill in ClearDisplay. -/
inductive PlaneUse where
  | buffer
  | fill
  deriving DecidableEq, Repr

/-- The instructions of the block, in the order of spec/opcode_table.json. -/
inductive Instr where
  -- host operations (R95)
  | setup
  | initPanel
  | clear
  | display (black red : Option Image)
  | sleep
  | teardown
  | reserved6
  | reserved7
  -- frames (R91)
  | sendCommand (code : Byte)
  | sendData (value : Byte)
  -- panel commands (R100)
  | pcScanMux
  | pcSoftStart
  | pcDeepSleep
  | pcDataEntryMode
  | pcSwReset
  | pcDisplayOption
  | pcActivate
  | pcDisplayUpdateControl (use : DucUse)
  | pcWriteBlackPlane (use : PlaneUse)
  | pcWriteRedPlane (use : PlaneUse)
  | pcBorderVbd
  | pcRamXWindow
  | pcRamYWindow
  | pcAutoWrite1
  | pcAutoWrite2
  | pcFinalPair
  | pcRamAddressCounter
  -- micro-operations (R111)
  | reset
  | waitIdle
  | prepareDraw
  | streamFill (value : Byte)
  | convert (image : Image)
  | streamPlane (f : PlaneXform)
  | turnOnDisplay
  deriving DecidableEq, Repr

/-- The six host operations that `seq = RUN(op, step)` can name (R27), with their operands (R33). -/
inductive HostOp where
  | setup
  | initPanel
  | clear
  | display (black red : Option Image)
  | sleep
  | teardown
  deriving DecidableEq, Repr

/-- The panel commands of R100, with the use of those that have two. -/
inductive PanelCommand where
  | scanMux
  | softStart
  | deepSleep
  | dataEntryMode
  | swReset
  | displayOption
  | activate
  | displayUpdateControl (use : DucUse)
  | writeBlackPlane (use : PlaneUse)
  | writeRedPlane (use : PlaneUse)
  | borderVbd
  | ramXWindow
  | ramYWindow
  | autoWrite1
  | autoWrite2
  | finalPair
  | ramAddressCounter
  deriving DecidableEq, Repr

/-- The instruction a panel command is. -/
def PanelCommand.instr : PanelCommand → Instr
  | .scanMux => .pcScanMux
  | .softStart => .pcSoftStart
  | .deepSleep => .pcDeepSleep
  | .dataEntryMode => .pcDataEntryMode
  | .swReset => .pcSwReset
  | .displayOption => .pcDisplayOption
  | .activate => .pcActivate
  | .displayUpdateControl u => .pcDisplayUpdateControl u
  | .writeBlackPlane u => .pcWriteBlackPlane u
  | .writeRedPlane u => .pcWriteRedPlane u
  | .borderVbd => .pcBorderVbd
  | .ramXWindow => .pcRamXWindow
  | .ramYWindow => .pcRamYWindow
  | .autoWrite1 => .pcAutoWrite1
  | .autoWrite2 => .pcAutoWrite2
  | .finalPair => .pcFinalPair
  | .ramAddressCounter => .pcRamAddressCounter

/-- One request that the machine fetches: the bytes of its word, lowest bits first, and the images beside it (R94). -/
structure Request where
  bytes : List Byte
  black : Image
  red : Image
  deriving DecidableEq, Repr

end Sys2Proof
end

