-- ==== Sys2Proof/Machine/Params.lean ====
section
/-! DEFINITION. Parameters of the block (spec/00_scope.md R6 to R11, spec/44_bitplane_converter.md R213, R214):
derived geometry, timing constants, printed codes, the classifier, the check of a configuration, the defaults. -/

namespace Sys2Proof

/-- `STRIDE` = ceil(WIDTH / 8) (R6, R225). -/
def Cfg.stride (c : Cfg) : Nat := (c.width + 7) / 8

/-- `PLANE_BYTES` = STRIDE x HEIGHT (R6). -/
def Cfg.planeBytes (c : Cfg) : Nat := c.stride * c.height

namespace Params

/-! The six delays, in milliseconds (R8). -/

def tRstHigh1 : Nat := 200
def tRstLow : Nat := 2
def tRstHigh2 : Nat := 200
def tPoll : Nat := 10
def tSettle : Nat := 200
def tActivate : Nat := 200

/-! The command codes the source ties to a step (R9, R100). -/

def codeScanMux : Byte := 0x01
def codeSoftStart : Byte := 0x0C
def codeDeepSleep : Byte := 0x10
def codeDataEntryMode : Byte := 0x11
def codeSwReset : Byte := 0x12
def codeWriteBlack : Byte := 0x24
def codeWriteRed : Byte := 0x26
def codeBorder : Byte := 0x3C

/-- The nine codes the source prints without a role (R10). -/
def openCodes : List Byte := [0x18, 0x20, 0x22, 0x44, 0x45, 0x46, 0x47, 0x4E, 0x4F]

/-- The parameter string of scan/MUX, a literal that does not depend on the height (R97, C2). -/
def scanMuxBytes : List Byte := [0xAF, 0x02, 0x01]

/-- The parameter of border/VBD (R9, R161). -/
def borderByte : Byte := 0x01

/-- The black fill of ClearDisplay (R9, R183). -/
def blackFill : Byte := 0xFF

/-- The red fill of ClearDisplay (R9, R183). -/
def redFill : Byte := 0x00

end Params

/-- The nine `CMD_*` fields (R10). -/
def Cfg.cmdCodes (c : Cfg) : List Byte :=
  [c.cmdAw1, c.cmdAw2, c.cmdXwin, c.cmdYwin, c.cmdDopt, c.cmdDuc, c.cmdAct, c.cmdXctr, c.cmdYctr]

/-- Pure black (R213). -/
def Colour.pureBlack : Colour := ⟨0, 0, 0⟩

/-- Pure white (R213). -/
def Colour.pureWhite : Colour := ⟨255, 255, 255⟩

/-- `dB`, the squared distance to black (R214). -/
def Colour.distBlack (p : Colour) : Nat := p.r.toNat ^ 2 + p.g.toNat ^ 2 + p.b.toNat ^ 2

/-- `dW`, the squared distance to white (R214). -/
def Colour.distWhite (p : Colour) : Nat := (255 - p.r.toNat) ^ 2 + (255 - p.g.toNat) ^ 2 + (255 - p.b.toNat) ^ 2

/-- The classifier as a function of the colour alone (R213); the default calls White what is nearer to white (R214). -/
def Classifier.classify : Classifier → Colour → PixelClass
  | .nearest, p => if p.distWhite < p.distBlack then .white else .black
  | .whiteOn ws, p => if p ∈ ws then .white else .black

/-- The side condition on the geometry (R7). -/
def Cfg.geometryOk (c : Cfg) : Bool :=
  decide (c.width % 8 = 0) && decide (8 ≤ c.width) && decide (1 ≤ c.height) && decide (c.width ≤ 65536)
    && decide (c.height ≤ 65536) && decide (c.planeBytes ≤ 65536)

/-- The nine `CMD_*` fields are pairwise distinct and their set is the nine codes (R10). -/
def Cfg.codesOk (c : Cfg) : Bool :=
  decide c.cmdCodes.Nodup && c.cmdCodes.all fun x => Params.openCodes.contains x

/-- The two properties every classifier has (R213). -/
def Cfg.classifierOk (c : Cfg) : Bool :=
  decide (c.classifier.classify Colour.pureBlack = .black) && decide (c.classifier.classify Colour.pureWhite = .white)

/-- The configurations the model accepts (R7, R10, R213). -/
def Cfg.ok (c : Cfg) : Bool := c.geometryOk && c.codesOk && c.classifierOk

/-- The configuration of a geometry, with the formulas of R11 and the defaults of R10
(codes and parameter bytes: general knowledge, not in the source; PRESUMED, log 2). -/
def Cfg.ofGeometry (w h : Nat) : Cfg where
  width := w
  height := h
  cmdAw1 := 0x46
  cmdAw2 := 0x47
  cmdXwin := 0x44
  cmdYwin := 0x45
  cmdDopt := 0x18
  cmdDuc := 0x22
  cmdAct := 0x20
  cmdXctr := 0x4E
  cmdYctr := 0x4F
  aw1P := 0xF7
  aw2P := 0xF7
  ss0 := 0xAE
  ss1 := 0xC7
  ss2 := 0xC3
  ss3 := 0xC0
  ss4 := 0x40
  demP := 0x01
  doptP := 0x80
  lutsrcP := 0xB1
  fin0 := 0x00
  fin1 := 0x00
  tonP := 0xC7
  slpP := 0x01
  xend16 := BitVec.ofNat 16 ((w + 7) / 8 - 1)
  ystart16 := BitVec.ofNat 16 (h - 1)
  pd16 := BitVec.ofNat 16 (h - 1)
  busyActive := .high
  classifier := .nearest
  strict := false

/-- The reference geometry, 880 x 528 (R6), with the defaults. -/
def Cfg.reference : Cfg := Cfg.ofGeometry 880 528

/-- The command code of a panel command (R100). -/
def PanelCommand.code (c : Cfg) : PanelCommand → Byte
  | .scanMux => Params.codeScanMux
  | .softStart => Params.codeSoftStart
  | .deepSleep => Params.codeDeepSleep
  | .dataEntryMode => Params.codeDataEntryMode
  | .swReset => Params.codeSwReset
  | .displayOption => c.cmdDopt
  | .activate => c.cmdAct
  | .displayUpdateControl _ => c.cmdDuc
  | .writeBlackPlane _ => Params.codeWriteBlack
  | .writeRedPlane _ => Params.codeWriteRed
  | .borderVbd => Params.codeBorder
  | .ramXWindow => c.cmdXwin
  | .ramYWindow => c.cmdYwin
  | .autoWrite1 => c.cmdAw1
  | .autoWrite2 => c.cmdAw2
  | .finalPair => c.cmdXctr
  | .ramAddressCounter => c.cmdYctr

/-- Whether a panel command is the second use of its code (log 9): the constant fill of a plane, the LUT source. -/
def PanelCommand.second : PanelCommand → Bool
  | .displayUpdateControl .lutSource => true
  | .writeBlackPlane .fill => true
  | .writeRedPlane .fill => true
  | _ => false

/-- The panel commands of one choice of use, in the order of the table (R100). -/
def PanelCommand.all (second : Bool) : List PanelCommand :=
  if second then [.displayUpdateControl .lutSource, .writeBlackPlane .fill, .writeRedPlane .fill]
  else
    [.scanMux, .softStart, .deepSleep, .dataEntryMode, .swReset, .displayOption, .activate,
      .displayUpdateControl .turnOn, .writeBlackPlane .buffer, .writeRedPlane .buffer, .borderVbd, .ramXWindow,
      .ramYWindow, .autoWrite1, .autoWrite2, .finalPair, .ramAddressCounter]

/-- The seventeen command codes (R100, R106). -/
def Cfg.panelCodes (c : Cfg) : List Byte := (PanelCommand.all false).map (PanelCommand.code c)

end Sys2Proof
end

