-- ==== Sys2Proof/WellFormed.lean ====
section
/-! DEFINITION. Well-formed instructions: each operand is one that its encoding stands for.
A raw command frame carries no code of the seventeen panel commands (its word is that panel command's, log 10);
the dots of an image lie inside its bounds (`px` is defined only there, spec/20_memory.md R63) and no two of them
stand at one place. -/

namespace Sys2Proof

/-- `(x, y)` lies within the bounds of the image (R63: half open). -/
def Image.contains (img : Image) (x y : Int) : Bool :=
  decide (img.x0 ≤ x) && decide (x < img.x1) && decide (img.y0 ≤ y) && decide (y < img.y1)

/-- Every dot lies inside the bounds. -/
def Image.dotsInside (img : Image) : Bool := img.dots.all fun d => img.contains d.x d.y

/-- No two dots stand at one place. -/
def Image.dotsDistinct (img : Image) : Bool := decide (img.dots.map fun d => (d.x, d.y)).Nodup

def Image.wf (img : Image) : Bool := img.dotsInside && img.dotsDistinct

/-- The checks of an instruction's operands. -/
def Instr.wf (c : Cfg) : Instr → Bool
  | .sendCommand v => !(c.panelCodes.contains v)
  | .display b r => (b.all Image.wf) && (r.all Image.wf)
  | .convert img => img.wf
  | .setup => true
  | .initPanel => true
  | .clear => true
  | .sleep => true
  | .teardown => true
  | .reserved6 => true
  | .reserved7 => true
  | .sendData _ => true
  | .pcScanMux => true
  | .pcSoftStart => true
  | .pcDeepSleep => true
  | .pcDataEntryMode => true
  | .pcSwReset => true
  | .pcDisplayOption => true
  | .pcActivate => true
  | .pcDisplayUpdateControl _ => true
  | .pcWriteBlackPlane _ => true
  | .pcWriteRedPlane _ => true
  | .pcBorderVbd => true
  | .pcRamXWindow => true
  | .pcRamYWindow => true
  | .pcAutoWrite1 => true
  | .pcAutoWrite2 => true
  | .pcFinalPair => true
  | .pcRamAddressCounter => true
  | .reset => true
  | .waitIdle => true
  | .prepareDraw => true
  | .streamFill _ => true
  | .streamPlane _ => true
  | .turnOnDisplay => true

end Sys2Proof
end

