-- ==== Sys2Proof/Decode.lean ====
section
/-! DEFINITION. Decoding and encoding of the two encoded levels (spec/30_encoding.md R90): the host request
(R94, R95, five bits in one byte) and the frame (R91, R100, nine bits in two bytes, the low byte first).
The micro-operations have no encoding (R111). -/

namespace Sys2Proof

/-- Why bytes are no instruction. -/
inductive DecodeError where
  /-- The request has another number of bytes than one (a host request) or two (a frame). -/
  | length (n : Nat)
  /-- A bit above H[4:0] is set. -/
  | hostBits (w : Byte)
  /-- A bit above F[8:0] is set that no instruction has. -/
  | frameBits (w : BitVec 16)
  deriving DecidableEq, Repr

/-- An image operand whose presence bit is `present` (R94). -/
def operandImage (present : Bool) (img : Image) : Option Image := if present then some img else none

/-- The host request with code `op` = H[4:2] and presence bits `bp` = H[1], `rp` = H[0] (R94, R95, R105). -/
def decodeOp (op : BitVec 3) (bp rp : Bool) (black red : Image) : Instr :=
  match op.toNat with
  | 0 => .setup
  | 1 => .initPanel
  | 2 => .clear
  | 3 => .display (operandImage bp black) (operandImage rp red)
  | 4 => .sleep
  | 5 => .teardown
  | 6 => .reserved6
  | _ => .reserved7

/-- A host request byte: H in its low five bits, the other three zero. -/
def decodeHost (w : Byte) (black red : Image) : Except DecodeError Instr :=
  if w.extractLsb' 5 3 = 0 then .ok (decodeOp (w.extractLsb' 2 3) (w.getLsbD 1) (w.getLsbD 0) black red)
  else .error (.hostBits w)

/-- A command frame carrying `v`: the panel command of that code (R100), else a raw command frame (R131).
`second` is bit 9 of the container (log 9, log 10). -/
def decodeCommand (c : Cfg) (second : Bool) (v : Byte) : Option Instr :=
  match (PanelCommand.all second).find? fun p => decide (p.code c = v) with
  | some p => some p.instr
  | none => if second then none else some (.sendCommand v)

/-- A frame word: F[8] = dc, F[7:0] = v (R91). -/
def decodeFrame (c : Cfg) (w : BitVec 16) : Except DecodeError Instr :=
  if w.extractLsb' 10 6 = 0 then
    if w.getLsbD 8 then
      if w.getLsbD 9 then .error (.frameBits w) else .ok (.sendData (w.extractLsb' 0 8))
    else
      match decodeCommand c (w.getLsbD 9) (w.extractLsb' 0 8) with
      | some i => .ok i
      | none => .error (.frameBits w)
  else .error (.frameBits w)

/-- The instruction a request stands for; total on any bytes. -/
def decode (c : Cfg) (r : Request) : Except DecodeError Instr :=
  match r.bytes with
  | [w] => decodeHost w r.black r.red
  | [lo, hi] => decodeFrame c (hi ++ lo)
  | bs => .error (.length bs.length)

/-- A host request word (R94). -/
def hostByte (op : Nat) (bp rp : Bool) : Byte := BitVec.ofNat 8 (4 * op + 2 * bp.toNat + rp.toNat)

/-- The two bytes of a frame word: F[7:0] first, then F[8] and the container's bit 9. -/
def frameBytes (second dc : Bool) (v : Byte) : List Byte := [v, BitVec.ofNat 8 (2 * second.toNat + dc.toNat)]

/-- A request without images. -/
def plainRequest (bytes : List Byte) : Request := ⟨bytes, Image.zero, Image.zero⟩

/-- The request of a panel command. -/
def encodePanel (c : Cfg) (p : PanelCommand) : Request := plainRequest (frameBytes p.second false (p.code c))

/-- The request that stands for an instruction (R91, R94, R95, R100); none for the micro-operations (R111). -/
def encode (c : Cfg) : Instr → Option Request
  | .setup => some (plainRequest [hostByte 0 false false])
  | .initPanel => some (plainRequest [hostByte 1 false false])
  | .clear => some (plainRequest [hostByte 2 false false])
  | .display b r => some ⟨[hostByte 3 b.isSome r.isSome], b.getD Image.zero, r.getD Image.zero⟩
  | .sleep => some (plainRequest [hostByte 4 false false])
  | .teardown => some (plainRequest [hostByte 5 false false])
  | .reserved6 => some (plainRequest [hostByte 6 false false])
  | .reserved7 => some (plainRequest [hostByte 7 false false])
  | .sendCommand v => some (plainRequest (frameBytes false false v))
  | .sendData v => some (plainRequest (frameBytes false true v))
  | .pcScanMux => some (encodePanel c .scanMux)
  | .pcSoftStart => some (encodePanel c .softStart)
  | .pcDeepSleep => some (encodePanel c .deepSleep)
  | .pcDataEntryMode => some (encodePanel c .dataEntryMode)
  | .pcSwReset => some (encodePanel c .swReset)
  | .pcDisplayOption => some (encodePanel c .displayOption)
  | .pcActivate => some (encodePanel c .activate)
  | .pcDisplayUpdateControl u => some (encodePanel c (.displayUpdateControl u))
  | .pcWriteBlackPlane u => some (encodePanel c (.writeBlackPlane u))
  | .pcWriteRedPlane u => some (encodePanel c (.writeRedPlane u))
  | .pcBorderVbd => some (encodePanel c .borderVbd)
  | .pcRamXWindow => some (encodePanel c .ramXWindow)
  | .pcRamYWindow => some (encodePanel c .ramYWindow)
  | .pcAutoWrite1 => some (encodePanel c .autoWrite1)
  | .pcAutoWrite2 => some (encodePanel c .autoWrite2)
  | .pcFinalPair => some (encodePanel c .finalPair)
  | .pcRamAddressCounter => some (encodePanel c .ramAddressCounter)
  | .reset => none
  | .waitIdle => none
  | .prepareDraw => none
  | .streamFill _ => none
  | .convert _ => none
  | .streamPlane _ => none
  | .turnOnDisplay => none

/-- The low `n` bytes of `w`, lowest first. -/
def wordBytes : Nat → Nat → List Byte
  | 0, _ => []
  | n + 1, w => BitVec.ofNat 8 w :: wordBytes n (w / 256)

/-- The request made of a table word of `nbits` bits (whole bytes), with no image beside it. -/
def requestOfWord (nbits w : Nat) : Request := plainRequest (wordBytes ((nbits + 7) / 8) w)

/-- The instruction the decoder reads from a table word, at the default configuration (log 2). -/
def decodeTableWord (nbits w : Nat) : Option Instr :=
  match decode Cfg.reference (requestOfWord nbits w) with
  | .ok i => some i
  | .error _ => none

end Sys2Proof
end

