-- ==== Sys2Proof/Machine/State.lean ====
section
/-! DEFINITION. The state of the block (spec/10_state.md R20 and the model's own fields), its value at power-on
(R50), and the reasons a step can stop. -/

namespace Sys2Proof.Machine

/-- An output latch: the last level driven, or `undriven` before the first `SetLine` since power-on (R21). -/
inductive Latch where
  | undriven
  | driven (l : Level)
  deriving DecidableEq, Repr

/-- The three output lines (R12). -/
inductive Line where
  | rst
  | dc
  | cs
  deriving DecidableEq, Repr

/-- The transport's answer to `Open` and `TransmitByte` (R12). -/
inductive Answer where
  | ok
  | fail
  deriving DecidableEq, Repr

/-- The transport events, each with the answer it got (R12, R32). -/
inductive Event where
  | openBus (a : Answer)
  | setLine (line : Line) (l : Level)
  | readBusy (l : Level)
  | transmit (v : Byte) (a : Answer)
  | sleepFor (ms : Nat)
  | endTransaction
  | closeBus
  deriving DecidableEq, Repr

/-- Exception codes (R241). -/
inductive ErrCode where
  | none
  | setupFailure
  | transmitFailure
  | sequenceViolation
  | refused
  deriving DecidableEq, Repr

/-- The number of an exception code (R241). -/
def ErrCode.toNat : ErrCode → Nat
  | .none => 0
  | .setupFailure => 1
  | .transmitFailure => 2
  | .sequenceViolation => 3
  | .refused => 4

/-- The lifecycle phase (R28). -/
inductive Phase where
  | uninitialized
  | inReset
  | initialized
  | cleared
  | displaying
  | sleeping
  deriving DecidableEq, Repr

/-- The sequencer position (R27). -/
inductive Seq where
  | idle
  | run (op : HostOp) (row : Nat)
  | halted
  deriving DecidableEq, Repr

/-- An environment agent's answers to come, as plain data: the listed ones, then `rest` for ever (R13, log 6). -/
structure Oracle (α : Type) where
  listed : List α
  rest : α
  deriving DecidableEq, Repr

/-- The plane buffer's contents: (index, byte) pairs with rising indices; an index not listed was never written (log 12). -/
abbrev Memory := List Host.Cell

structure State where
  /-- Latch of the reset line (R21). -/
  rst : Latch
  /-- Latch of the data/command line (R21). -/
  dc : Latch
  /-- Latch of the chip-select line (R21). -/
  cs : Latch
  /-- The converter's accumulator (R23). -/
  acc : Byte
  /-- The converter's column counter (R24). -/
  i : Nat
  /-- The converter's row counter (R24). -/
  j : Nat
  /-- The stream index (R25). -/
  k : Nat
  /-- The plane buffer `PB` (R26). -/
  pb : Memory
  /-- The sequencer position (R27). -/
  seq : Seq
  /-- The `(op, step)` that `HALTED` keeps for inspection (R250, log 16). -/
  haltedAt : Option (HostOp × Nat)
  /-- `open` (R29). -/
  opened : Bool
  /-- `torn` (R29). -/
  torn : Bool
  /-- `fatal` (R30). -/
  fatal : Bool
  /-- `err` (R30). -/
  err : ErrCode
  /-- `phase` (R28). -/
  phase : Phase
  /-- `violation` (R31). -/
  violation : Bool
  /-- `T`, the newest event first (R32, log 26). -/
  trace : List Event
  /-- `polls` (R32). -/
  polls : Nat
  /-- A WaitIdle has polled and not yet returned (R27, R141; log 15). -/
  waiting : Bool
  /-- The configuration, never written (log 1). -/
  cfg : Cfg
  /-- The model's own: the requests still to come from the host (R13, log 7). -/
  inbox : List Request
  /-- The model's own: the panel's answers to come (R13, log 6). -/
  busy : Oracle Level
  /-- The model's own: the transport's answers to come (R13, log 6). -/
  link : Oracle Answer
  /-- The model's own: how many times free values have been drawn (log 13). -/
  draws : Nat
  deriving DecidableEq, Repr

/-- `T`: every transport event performed since power-on, in order (R32). -/
def State.T (s : State) : List Event := s.trace.reverse

/-- The reasons the machine stops with a fault. -/
inductive Fault where
  /-- Raised by `memRead` and `memWrite` for an index outside `0 .. PLANE_BYTES-1` (R66). Safe: the block never
  generates such an index, and the model stops where the spec gives no value. -/
  | planeIndex (index : Nat)
  deriving DecidableEq, Repr

/-- The reasons the machine has no meaning for what it is given. -/
inductive Refusal where
  /-- Raised by `exec` for an instruction whose meaning is still to be written. Safe: the model stops. -/
  | notModelled (mnemonic : String)
  /-- Raised by `step` when the configuration breaks R7, R10 or R213 ("A model refuses a configuration that breaks
  it"). Safe: the model stops. -/
  | configuration
  /-- Raised by `step` for request bytes that are no word of spec/30_encoding.md. Safe: the model stops. -/
  | undecodable (e : DecodeError)
  deriving DecidableEq, Repr

/-- The state after power-on (R50, R280); `acc`, `i`, `j`, `k` are unspecified there and 0 here (log 11); the
oracles' values are the model's (log 6). -/
def State.reset : State where
  rst := .undriven
  dc := .undriven
  cs := .undriven
  acc := 0
  i := 0
  j := 0
  k := 0
  pb := []
  seq := .idle
  haltedAt := none
  opened := false
  torn := false
  fatal := false
  err := .none
  phase := .uninitialized
  violation := false
  trace := []
  polls := 0
  waiting := false
  cfg := Cfg.reference
  inbox := []
  busy := ⟨[], .low⟩
  link := ⟨[], .ok⟩
  draws := 0

end Sys2Proof.Machine
end

