-- ==== Sys2Proof/Machine/Operands.lean ====
section
/-! DEFINITION. Operand forms: pixels of an image (spec/20_memory.md R63, R64), the bit positions and fill masks of
the converter (spec/44_bitplane_converter.md R215), plane indices (R60), and the assembly of every parameter byte
(spec/30_encoding.md R96). -/

namespace Sys2Proof.Machine

/-- `lo(v)` (R14). -/
def lo (v : Half) : Byte := v.extractLsb' 0 8

/-- `hi(v)` (R14). -/
def hi (v : Half) : Byte := v.extractLsb' 8 8

/-- `ImgIn(img, i, j)` (R63, R64). -/
def imgIn (img : Image) (i j : Nat) : Bool := img.contains (i : Int) (j : Int)

/-- `ImgPx(img, i, j)` (R63); used only where `imgIn` holds. -/
def imgPx (img : Image) (i j : Nat) : Colour :=
  match img.dots.find? fun d => decide (d.x = (i : Int)) && decide (d.y = (j : Int)) with
  | some d => d.colour
  | none => img.base

/-- The class of a panel position: the pixel's inside the image, White outside (R211). -/
def pixelClass (c : Cfg) (img : Image) (i j : Nat) : PixelClass :=
  if imgIn img i j then c.classifier.classify (imgPx img i j) else .white

/-- The fill mask of column `i`, `0xFF >> (i mod 8)` (R215). -/
def fillMask (i : Nat) : Byte := (0xFF : Byte) >>> (i % 8)

/-- The index of the byte of pixel `(i, j)` (R60, R218). -/
def planeIndex (c : Cfg) (i j : Nat) : Nat := i / 8 + j * c.stride

/-- What a stream sends for a byte of the plane buffer (R186). -/
def PlaneXform.apply : PlaneXform → Byte → Byte
  | .identity, b => b
  | .complement, b => ~~~b

/-- The little-endian pair of a 16-bit parameter (R62). -/
def pair (v : Half) : List Byte := [lo v, hi v]

/-- The parameter bytes of a panel command (R96, R100), but for the plane writes, whose data frames are streamed. -/
def panelParams (c : Cfg) : PanelCommand → List Byte
  | .scanMux => Params.scanMuxBytes
  | .softStart => [c.ss0, c.ss1, c.ss2, c.ss3, c.ss4]
  | .deepSleep => [c.slpP]
  | .dataEntryMode => [c.demP]
  | .swReset => []
  | .displayOption => [c.doptP]
  | .activate => []
  | .displayUpdateControl .turnOn => [c.tonP]
  | .displayUpdateControl .lutSource => [c.lutsrcP]
  | .writeBlackPlane _ => []
  | .writeRedPlane _ => []
  | .borderVbd => [Params.borderByte]
  | .ramXWindow => [0x00, 0x00] ++ pair c.xend16
  | .ramYWindow => pair c.ystart16 ++ [0x00, 0x00]
  | .autoWrite1 => [c.aw1P]
  | .autoWrite2 => [c.aw2P]
  | .finalPair => [c.fin0, c.fin1]
  | .ramAddressCounter => pair c.pd16

end Sys2Proof.Machine
end

