-- ==== Sys2Proof/Machine/Flags.lean ====
section
/-! DEFINITION. The checks over flags and lifecycle (spec/60_exceptions.md R244, R245, R249). -/

namespace Sys2Proof.Machine

/-- `seq = RUN(..)`, or a WaitIdle still polls: no request is accepted (R249 (1)). -/
def State.running (s : State) : Bool :=
  s.waiting || match s.seq with
    | .run _ _ => true
    | .idle => false
    | .halted => false

/-- The cases (b) to (e) of R244, in that order, for the operation codes that exist. -/
def refusedHere (op : HostOp) (s : State) : Bool :=
  s.torn || (!s.opened && decide (op ≠ .setup)) || (s.opened && decide (op = .setup))
    || (decide (s.seq = .halted) && decide (op ≠ .teardown))

/-- The phases from which the panel may be drawn on or put to sleep (R245). -/
def Phase.drawable : Phase → Bool
  | .initialized => true
  | .cleared => true
  | .displaying => true
  | .uninitialized => false
  | .inReset => false
  | .sleeping => false

/-- The "legal when `phase` is" cell of an operation (R245). -/
def legalIn : HostOp → Phase → Bool
  | .setup, p => decide (p = .uninitialized)
  | .initPanel, _ => true
  | .clear, p => p.drawable
  | .display _ _, p => p.drawable
  | .sleep, p => p.drawable
  | .teardown, _ => true

/-- A level reads busy (R140). -/
def readsBusy (c : Cfg) (l : Level) : Bool := decide (l = c.busyActive)

end Sys2Proof.Machine
end

