-- ==== Sys2Proof/Machine/Ops.lean ====
section
/-! DEFINITION. The shared operations: transport events (spec/00_scope.md R12, R15), the plane buffer
(spec/20_memory.md R60, R66), and taking an exception (spec/60_exceptions.md R250).
There is no return from an exception (R251). -/

namespace Sys2Proof.Machine

/-! ### Oracles -/

/-- The next answer. -/
def Oracle.head {α : Type} (o : Oracle α) : α :=
  match o.listed with
  | a :: _ => a
  | [] => o.rest

/-- The answers after the next `n`. -/
def Oracle.skip {α : Type} (n : Nat) (o : Oracle α) : Oracle α := ⟨o.listed.drop n, o.rest⟩

/-- The `n`-th answer from now, counting from 0. -/
def Oracle.get {α : Type} (o : Oracle α) (n : Nat) : α := (o.skip n).head

/-! ### Flow: how a piece of an operation ends -/

/-- How a piece of an operation leaves the machine. -/
inductive Flow where
  /-- It ran to its end. -/
  | done (s : State)
  /-- A fatal exception was taken (R250): nothing after it is performed. -/
  | trapped (s : State)
  /-- A WaitIdle read busy at every answer listed so far and polls on in the next step (R143). -/
  | waits (s : State)
  /-- The machine stops. -/
  | fault (f : Fault)
  deriving DecidableEq, Repr

/-- Go on with `f` where the first piece ran to its end. -/
def Flow.andThen : Flow → (State → Flow) → Flow
  | .done s, f => f s
  | .trapped s, _ => .trapped s
  | .waits s, _ => .waits s
  | .fault e, _ => .fault e

/-- The outcome of an instruction whose effect is a flow. -/
def Flow.outcome : Flow → Host.Outcome State Fault Refusal
  | .done s => .next s
  | .trapped s => .next s
  | .waits s => .next s
  | .fault e => .fault e

/-- `for v in start .. start + count - 1` (R15): ascending, no iteration when `count` is 0. -/
def forFrom (start : Nat) : Nat → (Nat → State → Flow) → State → Flow
  | 0, _, s => .done s
  | count + 1, f, s => (f start s).andThen (forFrom (start + 1) count f)

/-! ### Taking an exception -/

/-- The `(op, step)` to keep when halting: that of the running operation, else what was kept before (R250). -/
def State.position (s : State) : Option (HostOp × Nat) :=
  match s.seq with
  | .run op row => some (op, row)
  | .idle => s.haltedAt
  | .halted => s.haltedAt

/-- Entry of a fatal exception (R250): `fatal`, `err`, `seq`, and nothing else. -/
def takeFatal (code : ErrCode) (s : State) : State :=
  { s with fatal := true, err := code, seq := .halted, haltedAt := s.position }

/-- A non-fatal outcome: only the code is recorded (R244, R246, R252). -/
def recordErr (code : ErrCode) (s : State) : State := { s with err := code }

/-! ### Transport events -/

/-- `emit(e)` for an event that takes no answer: append it to `T` (R15). -/
def emit (e : Event) (s : State) : State := { s with trace := e :: s.trace }

/-- Set a latch (R21). -/
def setLatch (line : Line) (l : Level) (s : State) : State :=
  match line with
  | .rst => { s with rst := .driven l }
  | .dc => { s with dc := .driven l }
  | .cs => { s with cs := .driven l }

/-- `emit(SetLine(line, l))` (R12, R21): performed even when the line has that level already (R68). -/
def driveLine (line : Line) (l : Level) (s : State) : State := setLatch line l (emit (.setLine line l) s)

/-- `emit(SleepFor(ms))` (R12, R260). -/
def sleepFor (ms : Nat) (s : State) : State := emit (.sleepFor ms) s

/-- Take the transport's next answer. -/
def takeAnswer (s : State) : State := { s with link := s.link.skip 1 }

/-- `emit(TransmitByte(v))` (R12, R15, R243). -/
def transmitByte (v : Byte) (s : State) : Flow :=
  match s.link.head with
  | .ok => .done (emit (.transmit v .ok) (takeAnswer s))
  | .fail => .trapped (takeFatal .transmitFailure (emit (.transmit v .fail) (takeAnswer s)))

/-- `emit(Open)` (R12, R15, R242). -/
def openBus (s : State) : Flow :=
  match s.link.head with
  | .ok => .done (emit (.openBus .ok) (takeAnswer s))
  | .fail => .trapped (takeFatal .setupFailure (emit (.openBus .fail) (takeAnswer s)))

/-- One poll: `l <- ReadLine(BUSY)`, `polls <- polls + 1` (R141). The level read is `s.busy.head`. -/
def pollBusy (s : State) : State :=
  { emit (.readBusy s.busy.head) s with busy := s.busy.skip 1, polls := s.polls + 1 }

/-! ### The plane buffer -/

/-- The byte last written at index `a`, if any. -/
def Memory.find (a : Nat) : Memory → Option Byte
  | [] => none
  | (b, v) :: m => if b = a then some v else Memory.find a m

/-- Write one byte, keeping the indices rising. -/
def Memory.write (a : Nat) (v : Byte) : Memory → Memory
  | [] => [(a, v)]
  | (b, w) :: m =>
    if a < b then (a, v) :: (b, w) :: m
    else if a = b then (a, v) :: m
    else (b, w) :: Memory.write a v m

/-- What index `a` of the plane buffer holds; a free value where nothing was written since power-on (R50, log 12). -/
def Memory.byteAt (m : Memory) (a : Nat) : Byte :=
  match m.find a with
  | some v => v
  | none => Config.freePlaneByte a

/-- The canonical form: strictly rising indices. -/
abbrev Memory.wf (m : Memory) : Prop := (m.map Prod.fst).Pairwise (· < ·)

/-- `MemRead(PB, a, 1)` and what is done with the byte (R15, R66). -/
def memRead (a : Nat) (use : Byte → State → Flow) (s : State) : Flow :=
  if a < s.cfg.planeBytes then use (s.pb.byteAt a) s else .fault (.planeIndex a)

/-- `MemWrite(PB, a, 1, v)` (R15, R66). -/
def memWrite (a : Nat) (v : Byte) (s : State) : Flow :=
  if a < s.cfg.planeBytes then .done { s with pb := s.pb.write a v } else .fault (.planeIndex a)

/-! ### Lifecycle -/

/-- `phase <- p`. -/
def setPhase (p : Phase) (s : State) : State := { s with phase := p }

/-- `seq <- p`. -/
def setSeq (p : Seq) (s : State) : State := { s with seq := p }

end Sys2Proof.Machine
end

