-- ==== Sys2Proof/Machine/Converter.lean ====
section
/-! DEFINITION. The Bitplane Converter (spec/44_bitplane_converter.md): Convert. -/

namespace Sys2Proof.Machine

/-- The over-fill (R216): a White pixel or-s the fill mask of its column into `acc`, a Black one leaves it. -/
def accumulate (img : Image) (j i : Nat) (s : State) : State :=
  match pixelClass s.cfg img i j with
  | .white => { s with acc := s.acc ||| fillMask i }
  | .black => s

/-- Store and reset (R217): after the last column of a group of eight. -/
def storeGroup (j i : Nat) (s : State) : Flow :=
  if i % 8 = 7 then (memWrite (planeIndex s.cfg i j) s.acc s).andThen fun s => .done { s with acc := 0 }
  else .done s

/-- The body of the two loops of R211, for row `j` and column `i`. -/
def convertPixel (img : Image) (j i : Nat) (s : State) : Flow :=
  storeGroup j i (accumulate img j i { s with i := i, j := j })

/-- One row: columns 0 .. WIDTH-1 (R211). -/
def convertRow (img : Image) (j : Nat) (s : State) : Flow := forFrom 0 s.cfg.width (convertPixel img j) s

/-- After the loops `i` and `j` have no meaning (R24, U16): free values in their ranges (log 13). -/
def forgetCounters (s : State) : State :=
  { s with
    i := Config.freeColumn s.draws % s.cfg.width
    j := Config.freeRow s.draws % s.cfg.height
    draws := s.draws + 1 }

/-- `Convert(img)` (R211). -/
def convert (img : Image) (s : State) : Flow :=
  (forFrom 0 s.cfg.height (convertRow img) { s with acc := 0 }).andThen fun s => .done (forgetCounters s)

/-- Convert (R211). -/
def execConvert (img : Image) (s : State) : Host.Outcome State Fault Refusal := (convert img s).outcome

end Sys2Proof.Machine
end

