-- ==== Sys2Proof/Machine/BusyWait.lean ====
section
/-! DEFINITION. The Busy-Wait Synchronizer (spec/41_busy_wait.md): WaitIdle.
The loop runs through the panel's listed answers and one more; if all of them read busy it has not returned, `waiting`
stands, and the next step polls on: there is no bound and no way out but a poll that reads not busy (R143). -/

namespace Sys2Proof.Machine

/-- The poll loop of R141, for at most `n` polls of this step. -/
def pollLoop : Nat → State → Flow
  | 0, s => .waits { s with waiting := true }
  | n + 1, s =>
    if readsBusy s.cfg s.busy.head then pollLoop n (sleepFor Params.tPoll (pollBusy s))
    else .done { sleepFor Params.tSettle (pollBusy s) with waiting := false }

/-- Go on polling (R141): every listed answer, then one of the lasting answer. -/
def pollOn (s : State) : Flow := pollLoop (s.busy.listed.length + 1) s

/-- `WaitIdle()` (R141). -/
def waitIdle (s : State) : Flow := pollOn { s with polls := 0 }

/-- WaitIdle (R141). -/
def execWaitIdle (s : State) : Host.Outcome State Fault Refusal := (waitIdle s).outcome

end Sys2Proof.Machine
end

