-- ==== Sys2Proof/Machine/Framer.lean ====
section
/-! DEFINITION. The Command/Data Framer (spec/40_framer.md): SendCommand, SendData. -/

namespace Sys2Proof.Machine

/-- One frame: mode line, chip-select low, one byte, chip-select high (R131, R132, R134). After a failed transmission
the last event is not performed (R243). -/
def frame (mode : Level) (v : Byte) (s : State) : Flow :=
  (transmitByte v (driveLine .cs .low (driveLine .dc mode s))).andThen fun s => .done (driveLine .cs .high s)

/-- `SendCommand(code)` (R131). -/
def sendCommand (code : Byte) (s : State) : Flow := frame .low code s

/-- `SendData(byte)` (R132). -/
def sendData (value : Byte) (s : State) : Flow := frame .high value s

/-- Data frames in order. -/
def sendAll : List Byte → State → Flow
  | [], s => .done s
  | v :: vs, s => (sendData v s).andThen (sendAll vs)

/-- SendCommand (R131). -/
def execSendCommand (code : Byte) (s : State) : Host.Outcome State Fault Refusal := (sendCommand code s).outcome

/-- SendData (R132). -/
def execSendData (value : Byte) (s : State) : Host.Outcome State Fault Refusal := (sendData value s).outcome

end Sys2Proof.Machine
end

