-- ==== Sys2Proof/Machine/Streams.lean ====
section
/-! DEFINITION. Plane streaming (spec/43_render_ops.md): StreamFill, StreamPlane. -/

namespace Sys2Proof.Machine

/-- One data frame of a stream, after which `k` counts it (R25): a failed frame leaves `k` at the frames completely
sent (R184). -/
def streamByte (v : Byte) (s : State) : Flow := (sendData v s).andThen fun s => .done { s with k := s.k + 1 }

/-- `StreamFill(v)` (R184). -/
def streamFill (v : Byte) (s : State) : Flow :=
  forFrom 0 s.cfg.planeBytes (fun _ s => streamByte v s) { s with k := 0 }

/-- `StreamPlane(f)` (R186). -/
def streamPlane (f : PlaneXform) (s : State) : Flow :=
  forFrom 0 s.cfg.planeBytes (fun a => memRead a fun b => streamByte (PlaneXform.apply f b)) { s with k := 0 }

/-- StreamFill (R184). -/
def execStreamFill (v : Byte) (s : State) : Host.Outcome State Fault Refusal := (streamFill v s).outcome

/-- StreamPlane (R186). -/
def execStreamPlane (f : PlaneXform) (s : State) : Host.Outcome State Fault Refusal := (streamPlane f s).outcome

end Sys2Proof.Machine
end

