-- ==== Sys2Proof/Machine/PanelCommands.lean ====
section
/-! DEFINITION. The seventeen panel commands (spec/30_encoding.md R92, R100): one command frame, then its data frames. -/

namespace Sys2Proof.Machine

/-- The data frames of a panel command (R96, R100): the bytes of a plane for the two plane writes (R183, R186), the
parameter bytes for the others. -/
def panelData (p : PanelCommand) (s : State) : Flow :=
  match p with
  | .writeBlackPlane .fill => streamFill Params.blackFill s
  | .writeBlackPlane .buffer => streamPlane .identity s
  | .writeRedPlane .fill => streamFill Params.redFill s
  | .writeRedPlane .buffer => streamPlane .complement s
  | p => sendAll (panelParams s.cfg p) s

/-- A whole panel command (R92). -/
def panelCommand (p : PanelCommand) (s : State) : Flow := (sendCommand (p.code s.cfg) s).andThen (panelData p)

/-- Scan/MUX configuration, 0x01 (R97, R159). -/
def execPcScanMux (s : State) : Host.Outcome State Fault Refusal := (panelCommand .scanMux s).outcome

/-- Soft-start-setting, 0x0C (R156 row 4). -/
def execPcSoftStart (s : State) : Host.Outcome State Fault Refusal := (panelCommand .softStart s).outcome

/-- Deep-sleep, 0x10 (R190). -/
def execPcDeepSleep (s : State) : Host.Outcome State Fault Refusal := (panelCommand .deepSleep s).outcome

/-- Data-entry-mode, 0x11 (R156 row 6). -/
def execPcDataEntryMode (s : State) : Host.Outcome State Fault Refusal := (panelCommand .dataEntryMode s).outcome

/-- Software-reset, 0x12 (R156 row 1). -/
def execPcSwReset (s : State) : Host.Outcome State Fault Refusal := (panelCommand .swReset s).outcome

/-- Display-option, `CMD_DOPT` (R156 row 10). -/
def execPcDisplayOption (s : State) : Host.Outcome State Fault Refusal := (panelCommand .displayOption s).outcome

/-- Activate, `CMD_ACT` (R156 row 12, R188). -/
def execPcActivate (s : State) : Host.Outcome State Fault Refusal := (panelCommand .activate s).outcome

/-- Display-update-control, `CMD_DUC` (R156 row 11, R188). -/
def execPcDisplayUpdateControl (u : DucUse) (s : State) : Host.Outcome State Fault Refusal :=
  (panelCommand (.displayUpdateControl u) s).outcome

/-- Write-black-plane, 0x24 (R183, R185). -/
def execPcWriteBlackPlane (u : PlaneUse) (s : State) : Host.Outcome State Fault Refusal :=
  (panelCommand (.writeBlackPlane u) s).outcome

/-- Write-red-plane, 0x26 (R183, R185). -/
def execPcWriteRedPlane (u : PlaneUse) (s : State) : Host.Outcome State Fault Refusal :=
  (panelCommand (.writeRedPlane u) s).outcome

/-- Border/VBD, 0x3C (R161). -/
def execPcBorderVbd (s : State) : Host.Outcome State Fault Refusal := (panelCommand .borderVbd s).outcome

/-- RAM X address window, `CMD_XWIN` (R160). -/
def execPcRamXWindow (s : State) : Host.Outcome State Fault Refusal := (panelCommand .ramXWindow s).outcome

/-- RAM Y address window, `CMD_YWIN` (R160). -/
def execPcRamYWindow (s : State) : Host.Outcome State Fault Refusal := (panelCommand .ramYWindow s).outcome

/-- Auto-write-RAM, first, `CMD_AW1` (R156 row 2). -/
def execPcAutoWrite1 (s : State) : Host.Outcome State Fault Refusal := (panelCommand .autoWrite1 s).outcome

/-- Auto-write-RAM, second, `CMD_AW2` (R156 row 3). -/
def execPcAutoWrite2 (s : State) : Host.Outcome State Fault Refusal := (panelCommand .autoWrite2 s).outcome

/-- Final control pair, `CMD_XCTR` (R163). -/
def execPcFinalPair (s : State) : Host.Outcome State Fault Refusal := (panelCommand .finalPair s).outcome

/-- RAM address counter, `CMD_YCTR` (R181). -/
def execPcRamAddressCounter (s : State) : Host.Outcome State Fault Refusal :=
  (panelCommand .ramAddressCounter s).outcome

end Sys2Proof.Machine
end

