-- ==== Sys2Proof/Machine/PanelSteps.lean ====
section
/-! DEFINITION. The micro-operations of the Panel State Machine: Reset (spec/42_reset_init.md R152), PrepareDraw and
TurnOnDisplay (spec/43_render_ops.md R181, R188). -/

namespace Sys2Proof.Machine

/-- `Reset()`, the hardware reset pulse of the panel (R152). -/
def resetPulse (s : State) : State :=
  sleepFor Params.tRstHigh2 (driveLine .rst .high (sleepFor Params.tRstLow (driveLine .rst .low
    (sleepFor Params.tRstHigh1 (driveLine .rst .high s)))))

/-- `PrepareDraw()` (R181). -/
def prepareDraw (s : State) : Flow := panelCommand .ramAddressCounter s

/-- `TurnOnDisplay()` (R188). -/
def turnOnDisplay (s : State) : Flow :=
  (panelCommand (.displayUpdateControl .turnOn) s).andThen fun s =>
    (panelCommand .activate s).andThen fun s => waitIdle (sleepFor Params.tActivate s)

/-- Reset (R152). -/
def execReset (s : State) : Host.Outcome State Fault Refusal := (Flow.done (resetPulse s)).outcome

/-- PrepareDraw (R181). -/
def execPrepareDraw (s : State) : Host.Outcome State Fault Refusal := (prepareDraw s).outcome

/-- TurnOnDisplay (R188). -/
def execTurnOnDisplay (s : State) : Host.Outcome State Fault Refusal := (turnOnDisplay s).outcome

end Sys2Proof.Machine
end

