-- ==== Sys2Proof/Machine/HostOps.lean ====
section
/-! DEFINITION. The host operations: their step tables (spec/42_reset_init.md R151, R156; spec/43_render_ops.md R183,
R185, R190, R192), the run of a table (R27, R150), and the dispatch of a request (spec/60_exceptions.md R249). -/

namespace Sys2Proof.Machine

/-- One row of a step table: what it performs, and what it records when all of that was performed. -/
structure Row where
  body : State → Flow
  post : State → State := id

/-- A row whose body is one panel command. -/
def commandRow (p : PanelCommand) : Row := { body := panelCommand p }

/-- A row whose body is a panel command and then WaitIdle. -/
def commandWaitRow (p : PanelCommand) : Row := { body := fun s => (panelCommand p s).andThen waitIdle }

/-- Setup (R151). -/
def setupRows : List Row := [{ body := openBus, post := fun s => { s with opened := true } }]

/-- Initialize (R156), rows 0 to 15. -/
def initRows : List Row :=
  [ { body := fun s => .done (resetPulse (setPhase .inReset s)) },
    commandWaitRow .swReset,
    commandWaitRow .autoWrite1,
    commandWaitRow .autoWrite2,
    commandRow .softStart,
    commandRow .scanMux,
    commandRow .dataEntryMode,
    commandRow .ramXWindow,
    commandRow .ramYWindow,
    commandRow .borderVbd,
    commandRow .displayOption,
    commandRow (.displayUpdateControl .lutSource),
    commandRow .activate,
    { body := waitIdle },
    commandRow .finalPair,
    { body := prepareDraw, post := setPhase .initialized } ]

/-- ClearDisplay (R183), rows 0 to 5. -/
def clearRows : List Row :=
  [ { body := prepareDraw },
    { body := sendCommand Params.codeWriteBlack },
    { body := streamFill Params.blackFill },
    { body := sendCommand Params.codeWriteRed },
    { body := streamFill Params.redFill },
    { body := turnOnDisplay, post := setPhase .cleared } ]

/-- Convert an operand that is supplied (R185 rows 1, 3). -/
def convertOperand : Option Image → State → Flow
  | some img, s => convert img s
  | none, s => .done s

/-- Stream the plane of an operand that is supplied (R185 rows 2, 4). -/
def streamOperand (code : Byte) (f : PlaneXform) : Option Image → State → Flow
  | some _, s => (sendCommand code s).andThen (streamPlane f)
  | none, s => .done s

/-- DisplayImage (R185), rows 0 to 5. -/
def displayRows (black red : Option Image) : List Row :=
  [ { body := prepareDraw },
    { body := convertOperand black },
    { body := streamOperand Params.codeWriteBlack .identity black },
    { body := convertOperand red },
    { body := streamOperand Params.codeWriteRed .complement red },
    { body := turnOnDisplay, post := setPhase .displaying } ]

/-- Sleep (R190). -/
def sleepRows : List Row := [{ body := panelCommand .deepSleep, post := setPhase .sleeping }]

/-- Teardown (R192), rows 0 to 2. -/
def teardownRows : List Row :=
  [ { body := fun s => .done (emit .endTransaction s) },
    { body := fun s => .done (driveLine .cs .low (driveLine .dc .low (driveLine .rst .low s))) },
    { body := fun s => .done (emit .closeBus s), post := fun s => { s with opened := false, torn := true } } ]

/-- The step table of an operation. -/
def rowsOf : HostOp → List Row
  | .setup => setupRows
  | .initPanel => initRows
  | .clear => clearRows
  | .display b r => displayRows b r
  | .sleep => sleepRows
  | .teardown => teardownRows

/-- After the last row: `seq <- IDLE` (R150), but HALTED stays after the Teardown of a halted block (R251). Nothing
else changes: `PB`, `acc` and `k` keep between operations what the last one left in them, which is the model's choice,
where U16 allows any value (log 33). -/
def endOp (s : State) : State := setSeq (if s.fatal then .halted else .idle) s

/-- Run the rows of a table in order (R27, R150), `seq` showing the row. -/
def runRows (op : HostOp) : Nat → List Row → State → Flow
  | _, [], s => .done (endOp s)
  | n, r :: rs, s => (r.body (setSeq (.run op n) s)).andThen fun s => runRows op (n + 1) rs (r.post s)

/-- A host operation from its first row (R150). -/
def runOp (op : HostOp) (s : State) : Flow := runRows op 0 (rowsOf op) s

/-- Go on with what is running: the WaitIdle that still polls, then what its row records and the rows after it. -/
def resume (s : State) : Flow :=
  match s.seq with
  | .run op n =>
    if s.waiting then
      (pollOn s).andThen fun s =>
        match (rowsOf op).drop n with
        | [] => .done (endOp s)
        | r :: rs => runRows op (n + 1) rs (r.post s)
    else runRows op n ((rowsOf op).drop n) s
  | .idle => pollOn s
  | .halted => pollOn s

/-- Dispatch of a host request (R249): not accepted while running, refused (R244), checked (R245, R246), started. -/
def dispatch (op : HostOp) (s : State) : Host.Outcome State Fault Refusal :=
  if s.running then .next s
  else if refusedHere op s then .next (recordErr .refused s)
  else if legalIn op s.phase then (runOp op s).outcome
  else if s.cfg.strict then .next (recordErr .sequenceViolation { s with violation := true })
  else (runOp op { s with violation := true }).outcome

/-- A reserved operation code (R105, R244 (a)). -/
def refuseReserved (s : State) : Host.Outcome State Fault Refusal :=
  if s.running then .next s else .next (recordErr .refused s)

/-- SETUP (R151). -/
def execSetup (s : State) : Host.Outcome State Fault Refusal := dispatch .setup s

/-- INITIALIZE (R156). -/
def execInitPanel (s : State) : Host.Outcome State Fault Refusal := dispatch .initPanel s

/-- CLEAR (R183). -/
def execClear (s : State) : Host.Outcome State Fault Refusal := dispatch .clear s

/-- DISPLAY (R185). -/
def execDisplay (black red : Option Image) (s : State) : Host.Outcome State Fault Refusal :=
  dispatch (.display black red) s

/-- SLEEP (R190). -/
def execSleep (s : State) : Host.Outcome State Fault Refusal := dispatch .sleep s

/-- TEARDOWN (R192). -/
def execTeardown (s : State) : Host.Outcome State Fault Refusal := dispatch .teardown s

/-- RESERVED_6 (R105, R244 (a)). -/
def execReserved6 (s : State) : Host.Outcome State Fault Refusal := refuseReserved s

/-- RESERVED_7 (R105, R244 (a)). -/
def execReserved7 (s : State) : Host.Outcome State Fault Refusal := refuseReserved s

end Sys2Proof.Machine
end

