-- ==== Sys2Proof/Machine/Dispatch.lean ====
section
/-! DEFINITION. The meaning of every instruction, one arm per constructor. -/

namespace Sys2Proof.Machine

def exec (i : Instr) (s : State) : Host.Outcome State Fault Refusal :=
  match i with
  | .setup => Sys2Proof.Machine.execSetup s
  | .initPanel => Sys2Proof.Machine.execInitPanel s
  | .clear => Sys2Proof.Machine.execClear s
  | .display black red => Sys2Proof.Machine.execDisplay black red s
  | .sleep => Sys2Proof.Machine.execSleep s
  | .teardown => Sys2Proof.Machine.execTeardown s
  | .reserved6 => Sys2Proof.Machine.execReserved6 s
  | .reserved7 => Sys2Proof.Machine.execReserved7 s
  | .sendCommand code => Sys2Proof.Machine.execSendCommand code s
  | .sendData value => Sys2Proof.Machine.execSendData value s
  | .pcScanMux => Sys2Proof.Machine.execPcScanMux s
  | .pcSoftStart => Sys2Proof.Machine.execPcSoftStart s
  | .pcDeepSleep => Sys2Proof.Machine.execPcDeepSleep s
  | .pcDataEntryMode => Sys2Proof.Machine.execPcDataEntryMode s
  | .pcSwReset => Sys2Proof.Machine.execPcSwReset s
  | .pcDisplayOption => Sys2Proof.Machine.execPcDisplayOption s
  | .pcActivate => Sys2Proof.Machine.execPcActivate s
  | .pcDisplayUpdateControl use => Sys2Proof.Machine.execPcDisplayUpdateControl use s
  | .pcWriteBlackPlane use => Sys2Proof.Machine.execPcWriteBlackPlane use s
  | .pcWriteRedPlane use => Sys2Proof.Machine.execPcWriteRedPlane use s
  | .pcBorderVbd => Sys2Proof.Machine.execPcBorderVbd s
  | .pcRamXWindow => Sys2Proof.Machine.execPcRamXWindow s
  | .pcRamYWindow => Sys2Proof.Machine.execPcRamYWindow s
  | .pcAutoWrite1 => Sys2Proof.Machine.execPcAutoWrite1 s
  | .pcAutoWrite2 => Sys2Proof.Machine.execPcAutoWrite2 s
  | .pcFinalPair => Sys2Proof.Machine.execPcFinalPair s
  | .pcRamAddressCounter => Sys2Proof.Machine.execPcRamAddressCounter s
  | .reset => Sys2Proof.Machine.execReset s
  | .waitIdle => Sys2Proof.Machine.execWaitIdle s
  | .prepareDraw => Sys2Proof.Machine.execPrepareDraw s
  | .streamFill value => Sys2Proof.Machine.execStreamFill value s
  | .convert image => Sys2Proof.Machine.execConvert image s
  | .streamPlane f => Sys2Proof.Machine.execStreamPlane f s
  | .turnOnDisplay => Sys2Proof.Machine.execTurnOnDisplay s

end Sys2Proof.Machine
end

