-- ==== Sys2Proof/Machine/Step.lean ====
section
/-! DEFINITION. One step: go on with what is running; else take the host's next request, decode it, run it
(spec/10_state.md R27, spec/60_exceptions.md R249). -/

namespace Sys2Proof.Machine

/-- One step of the machine. With nothing running and no request, the block waits (R50) and nothing changes. -/
def step (s : State) : Host.Outcome State Fault Refusal :=
  if s.cfg.ok then
    if s.running then (resume s).outcome
    else
      match s.inbox with
      | [] => .next s
      | r :: rs =>
        match decode s.cfg r with
        | .ok i => exec i { s with inbox := rs }
        | .error e => .refused (.undecodable e)
  else .refused .configuration

/-- Not running: `IDLE` in the place of `RUN(..)`. -/
def Seq.settled : Seq → Seq
  | .idle => .idle
  | .run _ _ => .idle
  | .halted => .halted

/-- `s` with a table word as the host's next request, and nothing running before it (log 7). -/
def State.withFetchWord (s : State) (nbits w : Nat) : State :=
  { s with inbox := requestOfWord nbits w :: s.inbox, waiting := false, seq := s.seq.settled }

end Sys2Proof.Machine
end

