-- ==== Sys2Proof/Safety.lean ====
section
/-! DEFINITION. What claims are stated in: the events an operation performs, written as scripts from the frame notation
of spec/00_scope.md R16; the byte of a converted plane in closed form (spec/44_bitplane_converter.md R220); predicates
over traces (R21, R44, R106, R134); runs and lifecycle (R282, R284, spec/60_exceptions.md R251). -/

namespace Sys2Proof.Machine

/-! ### What performing events does -/

/-- The level a latch holds after events (R21). -/
def latchAfter (line : Line) : List Event → Latch → Latch
  | [], l => l
  | .setLine ln v :: es, l => latchAfter line es (if ln = line then .driven v else l)
  | .openBus _ :: es, l => latchAfter line es l
  | .readBusy _ :: es, l => latchAfter line es l
  | .transmit _ _ :: es, l => latchAfter line es l
  | .sleepFor _ :: es, l => latchAfter line es l
  | .endTransaction :: es, l => latchAfter line es l
  | .closeBus :: es, l => latchAfter line es l

/-- The event takes an answer from the transport (R12). -/
def Event.asksLink : Event → Bool
  | .openBus _ => true
  | .transmit _ _ => true
  | .setLine _ _ => false
  | .readBusy _ => false
  | .sleepFor _ => false
  | .endTransaction => false
  | .closeBus => false

/-- The event is a poll of BUSY (R12). -/
def Event.isPoll : Event → Bool
  | .readBusy _ => true
  | .openBus _ => false
  | .transmit _ _ => false
  | .setLine _ _ => false
  | .sleepFor _ => false
  | .endTransaction => false
  | .closeBus => false

/-- The event was answered `fail`. -/
def Event.failed : Event → Bool
  | .openBus a => decide (a = .fail)
  | .transmit _ a => decide (a = .fail)
  | .setLine _ _ => false
  | .readBusy _ => false
  | .sleepFor _ => false
  | .endTransaction => false
  | .closeBus => false

/-- `s` after the events `es`: appended to `T`, the latches they set, the oracle answers they took, and nothing else. -/
def State.performed (s : State) (es : List Event) : State :=
  { s with
    trace := es.reverse ++ s.trace
    rst := latchAfter .rst es s.rst
    dc := latchAfter .dc es s.dc
    cs := latchAfter .cs es s.cs
    link := s.link.skip (es.countP Event.asksLink)
    busy := s.busy.skip (es.countP Event.isPoll) }

/-- The transport answers `ok` to the next `n` events that ask it. -/
def State.linkOk (s : State) (n : Nat) : Prop := ∀ m < n, s.link.get m = .ok

/-- From its answer `at` on, the panel reads busy for exactly `n` polls and then not busy. -/
def State.holdsBusy (s : State) (start n : Nat) : Prop :=
  (∀ m < n, s.busy.get (start + m) = s.cfg.busyActive) ∧ s.busy.get (start + n) ≠ s.cfg.busyActive

/-! ### Scripts (R16) -/

namespace Script

/-- `Cxx` and `Dxx`: the four events of a frame. -/
def frame (mode : Level) (v : Byte) : List Event :=
  [.setLine .dc mode, .setLine .cs .low, .transmit v .ok, .setLine .cs .high]

/-- `Cxx`. -/
def C (v : Byte) : List Event := frame .low v

/-- `Dxx`. -/
def D (v : Byte) : List Event := frame .high v

/-- Data frames in order. -/
def data (vs : List Byte) : List Event := vs.flatMap D

/-- A panel command: its code and its data bytes (R92). -/
def command (code : Byte) (vs : List Byte) : List Event := C code ++ data vs

/-- The level that does not read busy. -/
def idleLevel (c : Cfg) : Level :=
  match c.busyActive with
  | .low => .high
  | .high => .low

/-- `(R1 S10)^n`. -/
def busyPolls (c : Cfg) : Nat → List Event
  | 0 => []
  | n + 1 => .readBusy c.busyActive :: .sleepFor 10 :: busyPolls c n

/-- `(R1 S10)^n R0 S200` (R141). -/
def wait (c : Cfg) (n : Nat) : List Event := busyPolls c n ++ [.readBusy (idleLevel c), .sleepFor 200]

/-- `RST=1 S200 RST=0 S2 RST=1 S200` (R152). -/
def reset : List Event :=
  [.setLine .rst .high, .sleepFor 200, .setLine .rst .low, .sleepFor 2, .setLine .rst .high, .sleepFor 200]

/-- The two bytes of a 16-bit parameter, low byte first (R62). -/
def le (v : Half) : List Byte := [BitVec.ofNat 8 (v.toNat % 256), BitVec.ofNat 8 (v.toNat / 256 % 256)]

/-- PrepareDraw (R181). -/
def prepareDraw (c : Cfg) : List Event := command c.cmdYctr (le c.pd16)

/-- TurnOnDisplay with `n` busy polls (R188). -/
def turnOn (c : Cfg) (n : Nat) : List Event :=
  command c.cmdDuc [c.tonP] ++ command c.cmdAct [] ++ [.sleepFor 200] ++ wait c n

/-- Rows 14 and 15 of Initialize (R156): the final pair, PrepareDraw. -/
def initEnd (c : Cfg) : List Event := command c.cmdXctr [c.fin0, c.fin1] ++ prepareDraw c

/-- Rows 4 to 15 of Initialize (R156), with `n13` busy polls in row 13. -/
def initSetup (c : Cfg) (n13 : Nat) : List Event :=
  command 0x0C [c.ss0, c.ss1, c.ss2, c.ss3, c.ss4]
    ++ command 0x01 [0xAF, 0x02, 0x01]
    ++ command 0x11 [c.demP]
    ++ command c.cmdXwin ([0x00, 0x00] ++ le c.xend16)
    ++ command c.cmdYwin (le c.ystart16 ++ [0x00, 0x00])
    ++ command 0x3C [0x01]
    ++ command c.cmdDopt [c.doptP]
    ++ command c.cmdDuc [c.lutsrcP]
    ++ command c.cmdAct []
    ++ wait c n13
    ++ initEnd c

/-- Initialize (R156); `n1 n2 n3 n13`: the busy polls of its four waits, in rows 1, 2, 3, 13. -/
def init (c : Cfg) (n1 n2 n3 n13 : Nat) : List Event :=
  reset
    ++ (command 0x12 [] ++ wait c n1)
    ++ (command c.cmdAw1 [c.aw1P] ++ wait c n2)
    ++ (command c.cmdAw2 [c.aw2P] ++ wait c n3)
    ++ initSetup c n13

/-- ClearDisplay with `n` busy polls (R183). -/
def clear (c : Cfg) (n : Nat) : List Event :=
  prepareDraw c
    ++ command 0x24 (List.replicate c.planeBytes 0xFF)
    ++ command 0x26 (List.replicate c.planeBytes 0x00)
    ++ turnOn c n

/-- Sleep (R190). -/
def sleep (c : Cfg) : List Event := command 0x10 [c.slpP]

/-- Teardown (R192). -/
def teardown : List Event :=
  [.endTransaction, .setLine .rst .low, .setLine .dc .low, .setLine .cs .low, .closeBus]

/-- `w(n)` of R220: the pixel at column `8g + n` of row `j` is White. -/
def isWhite (c : Cfg) (img : Image) (g j n : Nat) : Bool := decide (pixelClass c img (8 * g + n) j = .white)

/-- The stored byte of group `g` of row `j` in closed form (R220). -/
def groupByte (c : Cfg) (img : Image) (g j : Nat) : Byte :=
  match (List.range 8).find? (isWhite c img g j) with
  | some m => BitVec.ofNat 8 (255 / 2 ^ m)
  | none => 0x00

/-- Byte `a` of the converted plane (R218, R220). -/
def planeByte (c : Cfg) (img : Image) (a : Nat) : Byte := groupByte c img (a % c.stride) (a / c.stride)

/-- The converted plane (R219). -/
def plane (c : Cfg) (img : Image) : List Byte := (List.range c.planeBytes).map (planeByte c img)

/-- The write of the black plane, if an image is supplied (R185 row 2). -/
def black (c : Cfg) : Option Image → List Event
  | some img => command 0x24 (plane c img)
  | none => []

/-- The write of the red plane, if an image is supplied: the complement, `255 - b` (R185 row 4, R225). -/
def red (c : Cfg) : Option Image → List Event
  | some img => command 0x26 ((plane c img).map fun b => 255 - b)
  | none => []

/-- DisplayImage with `n` busy polls (R185). -/
def display (c : Cfg) (b r : Option Image) (n : Nat) : List Event :=
  prepareDraw c ++ black c b ++ red c r ++ turnOn c n

/-- What StreamPlane sends for a byte (R186): itself, or 255 less it (R225). -/
def sentByte : PlaneXform → Byte → Byte
  | .identity, b => b
  | .complement, b => 255 - b

/-- What a supplied plane adds to the transmissions of DisplayImage. -/
def planeFrames (c : Cfg) : Option Image → Nat
  | some _ => 1 + c.planeBytes
  | none => 0

/-- The panel commands whose data frames are parameter bytes, with their code and bytes (R100). -/
def commandTable (c : Cfg) : List (Instr × Byte × List Byte) :=
  [ (.pcScanMux, 0x01, [0xAF, 0x02, 0x01]),
    (.pcSoftStart, 0x0C, [c.ss0, c.ss1, c.ss2, c.ss3, c.ss4]),
    (.pcDeepSleep, 0x10, [c.slpP]),
    (.pcDataEntryMode, 0x11, [c.demP]),
    (.pcSwReset, 0x12, []),
    (.pcDisplayOption, c.cmdDopt, [c.doptP]),
    (.pcActivate, c.cmdAct, []),
    (.pcDisplayUpdateControl .turnOn, c.cmdDuc, [c.tonP]),
    (.pcDisplayUpdateControl .lutSource, c.cmdDuc, [c.lutsrcP]),
    (.pcBorderVbd, 0x3C, [0x01]),
    (.pcRamXWindow, c.cmdXwin, [0x00, 0x00] ++ le c.xend16),
    (.pcRamYWindow, c.cmdYwin, le c.ystart16 ++ [0x00, 0x00]),
    (.pcAutoWrite1, c.cmdAw1, [c.aw1P]),
    (.pcAutoWrite2, c.cmdAw2, [c.aw2P]),
    (.pcFinalPair, c.cmdXctr, [c.fin0, c.fin1]),
    (.pcRamAddressCounter, c.cmdYctr, le c.pd16) ]

/-- The seventeen command codes (R100). -/
def codes (c : Cfg) : List Byte :=
  [0x01, 0x0C, 0x10, 0x11, 0x12, 0x24, 0x26, 0x3C, c.cmdDopt, c.cmdAct, c.cmdDuc, c.cmdXwin, c.cmdYwin, c.cmdAw1,
    c.cmdAw2, c.cmdXctr, c.cmdYctr]

end Script

/-- The bytes the plane buffer holds, in index order; a byte never written since power-on is a free value (log 12). -/
def State.bufferBytes (s : State) : List Byte := (List.range s.cfg.planeBytes).map s.pb.byteAt

/-- A frame in full (R131, R132, R243): its four events, or its three events up to the failed transmission and the trap
entry. -/
def FrameSays (i : Instr) (mode : Level) (v : Byte) : Prop :=
  ∀ s : State,
    (s.link.get 0 = .ok →
      exec i s = .next { s with
        trace := .setLine .cs .high :: .transmit v .ok :: .setLine .cs .low :: .setLine .dc mode :: s.trace
        dc := .driven mode, cs := .driven .high, link := s.link.skip 1 }) ∧
    (s.link.get 0 = .fail →
      exec i s = .next { s with
        trace := .transmit v .fail :: .setLine .cs .low :: .setLine .dc mode :: s.trace
        dc := .driven mode, cs := .driven .low, link := s.link.skip 1
        fatal := true, err := .transmitFailure, seq := .halted, haltedAt := s.position })

/-! ### Predicates over traces -/

/-- Well framed (R134): every `TransmitByte` comes right after `SetLine(DC, _) SetLine(CS, LOW)`, and right before
`SetLine(CS, HIGH)` unless it failed. -/
def WellFramed (T : List Event) : Prop :=
  ∀ before v a after, T = before ++ .transmit v a :: after →
    (∃ before' d, before = before' ++ [.setLine .dc d, .setLine .cs .low]) ∧
      (a = .ok → ∃ after', after = .setLine .cs .high :: after')

/-- Every command frame in `T` carries one of the seventeen codes (R106). -/
def OnlyPanelCodes (c : Cfg) (T : List Event) : Prop :=
  ∀ before v a after, T = before ++ [.setLine .dc .low, .setLine .cs .low, .transmit v a] ++ after →
    v ∈ Script.codes c

/-- The latches hold the last levels driven in `T` (R21). -/
def State.latchesFollow (s : State) : Prop :=
  s.rst = latchAfter .rst s.T .undriven ∧ s.dc = latchAfter .dc s.T .undriven ∧ s.cs = latchAfter .cs s.T .undriven

/-- The data bytes sent after the last command frame carrying `code`, or none if there is no such frame; `T` is read
from its newest event, `got` being the data bytes of the frames passed so far. -/
def lastDataFrom (code : Byte) : List Event → List Byte → Option (List Byte)
  | .setLine .cs .high :: .transmit v .ok :: .setLine .cs .low :: .setLine .dc .high :: older, got =>
    lastDataFrom code older (v :: got)
  | .setLine .cs .high :: .transmit v .ok :: .setLine .cs .low :: .setLine .dc .low :: older, got =>
    if v = code then some got else lastDataFrom code older []
  | _ :: older, got => lastDataFrom code older got
  | [], _ => none

/-- The parameter bytes the panel register behind `code` was last sent (R35): a function of `T`, the panel is not
simulated (R44). -/
def State.lastData (s : State) (code : Byte) : Option (List Byte) := lastDataFrom code s.trace []

/-- `lastPlane(T, c)` (R44): the PLANE_BYTES data bytes that followed the last command frame `c`, or none. -/
def State.lastPlane (s : State) (code : Byte) : Option (List Byte) :=
  match s.lastData code with
  | some bs => if s.cfg.planeBytes ≤ bs.length then some (bs.take s.cfg.planeBytes) else none
  | none => none

/-- Requested sleep in milliseconds (R165, R193). -/
def sleepMs : List Event → Nat
  | [] => 0
  | .sleepFor ms :: es => ms + sleepMs es
  | _ :: es => sleepMs es

/-- The event is a byte transmission. -/
def Event.isTransmit : Event → Bool
  | .transmit _ _ => true
  | .openBus _ => false
  | .readBusy _ => false
  | .setLine _ _ => false
  | .sleepFor _ => false
  | .endTransaction => false
  | .closeBus => false

/-- What a list of events costs (R193). -/
structure Budget where
  /-- Requested sleep in milliseconds. -/
  ms : Nat
  commandFrames : Nat
  dataFrames : Nat
  polls : Nat
  events : Nat
  deriving DecidableEq, Repr

/-- The transmissions made while DC was last driven to `mode`; `now` is the level of DC so far. -/
def transmissionsAt (mode : Level) : Latch → List Event → Nat
  | _, [] => 0
  | _, .setLine .dc l :: es => transmissionsAt mode (.driven l) es
  | now, .transmit _ _ :: es => (if now = .driven mode then 1 else 0) + transmissionsAt mode now es
  | now, _ :: es => transmissionsAt mode now es

/-- The cost of events. -/
def budget (es : List Event) : Budget :=
  ⟨sleepMs es, transmissionsAt .low .undriven es, transmissionsAt .high .undriven es, es.countP Event.isPoll, es.length⟩

/-! ### Runs and lifecycle -/

/-- A faulted state (R251): never the final state of a successful run. -/
def State.faulted (s : State) : Bool := s.fatal

/-- A finished run (R284). -/
def State.finished (s : State) : Bool :=
  decide (s.seq = .idle) && s.torn && !s.fatal && decide (s.err = .none) && !s.violation

/-- A claim about the panel may be drawn from the state (R31, R244, R251). -/
def State.clean (s : State) : Bool := !s.fatal && !s.violation && decide (s.err = .none)

/-- The instruction a host operation is. -/
def hostInstr : HostOp → Instr
  | .setup => .setup
  | .initPanel => .initPanel
  | .clear => .clear
  | .display b r => .display b r
  | .sleep => .sleep
  | .teardown => .teardown

/-- The block accepts and can start a request (R249): nothing runs, the bus is open, nothing is fatal. -/
def State.ready (s : State) : Prop :=
  s.seq = .idle ∧ s.waiting = false ∧ s.opened = true ∧ s.torn = false ∧ s.fatal = false

/-- The operation may run: its phase is legal (R245), or STRICT = 0 lets it run all the same (R246). -/
def State.mayRun (s : State) (op : HostOp) : Prop := legalIn op s.phase = true ∨ s.cfg.strict = false

/-- `violation` after a request of `op` (R245): set when the phase was not legal, never cleared. -/
def State.violationAfter (s : State) (op : HostOp) : Bool := s.violation || !legalIn op s.phase

/-- Every answer of the transport is `ok`, for ever. -/
def State.linkAlwaysOk (s : State) : Prop := ∀ n, s.link.get n = .ok

/-- Every answer of the panel reads busy, for ever. -/
def State.busyForEver (s : State) : Prop := ∀ n, s.busy.get n = s.cfg.busyActive

/-- Every request to come is a host request: the frame level is not addressed from outside (R90, log 8). -/
def State.hostOnly (s : State) : Prop := ∀ r ∈ s.inbox, r.bytes.length = 1

/-- The rows at which a WaitIdle may be polling. -/
def waitRow : HostOp → Nat → Bool
  | .initPanel, n => decide (n = 1) || decide (n = 2) || decide (n = 3) || decide (n = 13)
  | .clear, n => decide (n = 5)
  | .display _ _, n => decide (n = 5)
  | .setup, _ => false
  | .sleep, _ => false
  | .teardown, _ => false

/-- How many answers of the transport each row of an operation takes when it is performed in full: one for `Open` and
for each frame of its step table (R151, R156, R183, R185, R190, R192). -/
def rowAnswers (c : Cfg) : HostOp → List Nat
  | .setup => [1]
  | .initPanel => [0, 1, 2, 2, 6, 4, 2, 5, 5, 2, 2, 2, 1, 0, 3, 3]
  | .clear => [3, 1, c.planeBytes, 1, c.planeBytes, 3]
  | .display b r => [3, 0, Script.planeFrames c b, 0, Script.planeFrames c r, 3]
  | .sleep => [2]
  | .teardown => [0, 0, 0]

/-- The answers that the rows from `first` on, before `row`, take together. -/
def answersBefore (c : Cfg) (op : HostOp) (first row : Nat) : Nat := (((rowAnswers c op).take row).drop first).sum

/-- Events that begin with row `first` of `op` end inside row `row`: they take every answer of the rows before it, at
least one of its own, and none of a later row. -/
def EndsInRow (c : Cfg) (op : HostOp) (first row : Nat) (es : List Event) : Prop :=
  answersBefore c op first row < es.countP Event.asksLink ∧ es.countP Event.asksLink ≤ answersBefore c op first (row + 1)

/-- From `s` to `t` a fatal exception was taken (R242, R243, R250): the failing event is the last of `T`, every event
before it succeeded, the code names it, and after a failed transmission CS is LOW and DC as the frame set it. -/
def FatalEntry (s t : State) : Prop :=
  t.seq = .halted ∧ ∃ es e, t.T = s.T ++ es ++ [e] ∧ (∀ x ∈ es, x.failed = false) ∧
    (e = .openBus .fail ∧ t.err = .setupFailure ∧ t.opened = s.opened ∨
      ∃ v mode before, e = .transmit v .fail ∧ es = before ++ [.setLine .dc mode, .setLine .cs .low] ∧
        t.err = .transmitFailure ∧ t.cs = .driven .low ∧ t.dc = .driven mode)

/-- The fatal exception ended `op`, of which the rows from `first` on were begun at `s`: the operation and the row it
ended in are kept, and `phase` is what it was, but `InReset` in Initialize (R250). -/
def FatalIn (op : HostOp) (first : Nat) (s t : State) : Prop :=
  (∃ row es, t.haltedAt = some (op, row) ∧ t.T = s.T ++ es ∧ EndsInRow s.cfg op first row es) ∧
    t.phase = if op = .initPanel then .inReset else s.phase

/-- The lifecycle invariant: how the flags, the position and the phase hang together between steps (R27 to R30, R251). -/
structure State.Lifecycle (s : State) : Prop where
  fatal_iff_halted : s.fatal = true ↔ s.seq = .halted
  open_not_torn : s.opened = true → s.torn = false
  running_is_waiting : ∀ op n, s.seq = .run op n → s.waiting = true ∧ s.opened = true ∧ waitRow op n = true
  waiting_is_running : s.waiting = true → ∃ op n, s.seq = .run op n
  inReset_is_inInit : s.phase = .inReset → s.fatal = true ∨ ∃ n, s.seq = .run .initPanel n
  inInit_is_inReset : ∀ n, s.seq = .run .initPanel n → s.phase = .inReset
  closed_is_fresh : s.opened = false → s.torn = false → s.phase = .uninitialized

/-- The plane buffer invariant: canonical, and no index outside (R69). -/
def State.planeOk (s : State) : Prop := s.pb.wf ∧ ∀ cell ∈ s.pb, cell.1 < s.cfg.planeBytes

/-- One lifecycle per power-on (R29, R192): the bus was opened once iff it is or was open, closed once iff torn. -/
def State.onceEach (s : State) : Prop :=
  s.T.count (.openBus .ok) = (if s.opened || s.torn then 1 else 0) ∧ s.T.count .closeBus = if s.torn then 1 else 0

/-- The order of host operations the panel rules need (R282), as the automaton of its grammar: the state is whether the
bus is open and, once open, whether the panel may be drawn on. -/
inductive Boot where
  | closed
  | opened
  | drawable
  | asleep
  | ended
  deriving DecidableEq, Repr

/-- One operation of the grammar of R282; none where the grammar does not allow it. The grammar is taken as it is
written, with `Initialize` after `Setup`: the rest of R282 (Initialize before any ClearDisplay, DisplayImage or Sleep;
the language R244 and R245 accept) also admits `Setup ; Teardown`, so that taking the grammar is the model's choice
(log 34). -/
def Boot.next : Boot → HostOp → Option Boot
  | .closed, .setup => some .opened
  | .opened, .initPanel => some .drawable
  | .drawable, .initPanel => some .drawable
  | .drawable, .clear => some .drawable
  | .drawable, .display _ _ => some .drawable
  | .drawable, .sleep => some .asleep
  | .drawable, .teardown => some .ended
  | .asleep, .initPanel => some .drawable
  | .asleep, .teardown => some .ended
  | _, _ => none

/-- The program is a sentence of the grammar of R282. -/
def bootOrder : Boot → List HostOp → Bool
  | b, [] => decide (b = .ended)
  | b, op :: ops =>
    match b.next op with
    | some b' => bootOrder b' ops
    | none => false

end Sys2Proof.Machine
end

