-- ==== Sys2Proof/Certificates/Slice0/Obligations.lean ====
section
/-! DEFINITION. The statements for the provers. "R<n>" are the numbered rules of spec/, "log <n>" the entries of
notes/assumptions/. -/

open Sys2Proof Sys2Proof.Machine

/-! ### Encoding -/

/-- Decoding the request of a well-formed instruction gives it back with every operand, and only the seven
micro-operations have no request (R91, R94, R95, R100, R111; the container of a frame word is log 9). -/
def Obligations.DecodeInvertsEncode : Prop :=
  (∀ (c : Cfg) (i : Instr) (r : Request), c.ok = true → i.wf c = true → encode c i = some r → decode c r = .ok i) ∧
  ∀ (c : Cfg) (i : Instr), encode c i = none →
    i = .reset ∨ i = .waitIdle ∨ i = .prepareDraw ∨ (∃ v, i = .streamFill v) ∨ (∃ img, i = .convert img) ∨
      (∃ f, i = .streamPlane f) ∨ i = .turnOnDisplay

/-- Every 5-bit host request word, with its presence bits read by DISPLAY and ignored elsewhere (R94, R95). -/
def Obligations.HostRequestWordsDecode : Prop :=
  ∀ (c : Cfg) (bp rp : Bool) (black red : Image) (op : Nat) (i : Instr),
    (op, i) ∈ [(0, Instr.setup), (1, .initPanel), (2, .clear),
      (3, .display (if bp then some black else none) (if rp then some red else none)), (4, .sleep), (5, .teardown),
      (6, .reserved6), (7, .reserved7)] →
    decode c ⟨[BitVec.ofNat 8 (4 * op + 2 * bp.toNat + rp.toNat)], black, red⟩ = .ok i

/-- Words of the opcode table, written out bit by bit, decode to their rows. -/
def Obligations.TableWordsDecode : Prop :=
  decodeTableWord 8 0b00000 = some .setup ∧ decodeTableWord 8 0b00111 = some .initPanel ∧
  decodeTableWord 8 0b01000 = some .clear ∧ decodeTableWord 8 0b01100 = some (.display none none) ∧
  decodeTableWord 8 0b01110 = some (.display (some Image.zero) none) ∧ decodeTableWord 8 0b10000 = some .sleep ∧
  decodeTableWord 8 0b10100 = some .teardown ∧ decodeTableWord 8 0b11011 = some .reserved6 ∧
  decodeTableWord 16 0b110101111 = some (.sendData 0xAF) ∧ decodeTableWord 16 0b000010010 = some .pcSwReset ∧
  decodeTableWord 16 0b000000001 = some .pcScanMux ∧ decodeTableWord 16 0b000000010 = some (.sendCommand 0x02)

/-! ### Steps -/

/-- A step takes the host's next request, decodes it and runs it (R249; the request list is log 7). -/
def Obligations.StepRunsTheDecodedInstruction : Prop :=
  ∀ (s : State) (r : Request) (rs : List Request) (i : Instr),
    s.cfg.ok = true → s.running = false → s.inbox = r :: rs → decode s.cfg r = .ok i →
    step s = exec i { s with inbox := rs }

/-- While an operation runs no request is accepted: a step leaves the host's requests alone, and a host operation
asked of the running block changes nothing (R249 (1)). -/
def Obligations.RunningBlockAcceptsNoRequest : Prop :=
  (∀ s t : State, s.running = true → step s = .next t → t.inbox = s.inbox) ∧
  (∀ (op : HostOp) (s : State), s.running = true → exec (hostInstr op) s = .next s) ∧
  ∀ s : State, s.running = true → exec .reserved6 s = .next s ∧ exec .reserved7 s = .next s

/-- An idle block without a request waits (R50; log 17). -/
def Obligations.IdleBlockWaits : Prop :=
  ∀ s : State, s.cfg.ok = true → s.running = false → s.inbox = [] → step s = .next s

/-- A configuration that breaks the side condition on the geometry is refused (R7). -/
def Obligations.BadGeometryIsRefused : Prop :=
  ∀ s : State,
    ¬ (s.cfg.width % 8 = 0 ∧ 8 ≤ s.cfg.width ∧ 1 ≤ s.cfg.height ∧ s.cfg.width ≤ 65536 ∧ s.cfg.height ≤ 65536 ∧
      (s.cfg.width + 7) / 8 * s.cfg.height ≤ 65536) →
    step s = .refused .configuration

/-- The state after power-on (R50), but for what R50 leaves unspecified. -/
def Obligations.PowerOnState : Prop :=
  State.reset.rst = .undriven ∧ State.reset.dc = .undriven ∧ State.reset.cs = .undriven ∧
  State.reset.seq = .idle ∧ State.reset.opened = false ∧ State.reset.torn = false ∧ State.reset.fatal = false ∧
  State.reset.err.toNat = 0 ∧ State.reset.phase = .uninitialized ∧ State.reset.violation = false ∧
  State.reset.T = [] ∧ State.reset.polls = 0

/-! ### Framer -/

/-- SendCommand, for every byte: its four events, DC low and CS high after it, RST not touched; a failed transmission
traps with CS low (R131, R243, R250). Its frame word `(0, code)` (R91) stands for it where the code is none of the
seventeen panel commands'. The model's choices in it: the two-byte container of the word (log 9), that the word of a
panel command's code is that panel command's (log 10), and the `haltedAt` of a failure outside an operation (log 16). -/
def Obligations.SendCommandIsACommandFrame : Prop :=
  (∀ v : Byte, FrameSays (.sendCommand v) .low v) ∧
  ∀ (c : Cfg) (v : Byte), v ∉ Script.codes c → decode c (plainRequest [v, 0x00]) = .ok (.sendCommand v)

/-- SendData, for every byte: its frame word `(1, byte)` (R91), its four events, DC high and CS high after it; a failed
transmission traps with CS low (R132, R243, R250). The model's choices in it: the two-byte container of the word (log 9)
and the `haltedAt` of a failure outside an operation (log 16). -/
def Obligations.SendDataIsADataFrame : Prop :=
  (∀ v : Byte, FrameSays (.sendData v) .high v) ∧
  ∀ (c : Cfg) (v : Byte), decode c (plainRequest [v, 0x01]) = .ok (.sendData v)

/-! ### Panel commands -/

/-- The panel commands with parameter bytes complete: their code and their bytes, nothing else (R92, R96, R100). -/
def Obligations.PanelCommandsSendTheirFrames : Prop :=
  ∀ (s : State) (i : Instr) (code : Byte) (bytes : List Byte),
    (i, code, bytes) ∈ Script.commandTable s.cfg → s.linkOk (1 + bytes.length) →
    exec i s = .next (s.performed (Script.command code bytes))

/-- The two plane writes complete, in both uses (R71, R100). -/
def Obligations.PlaneWriteCommandsSendAPlane : Prop :=
  ∀ s : State, s.linkOk (1 + s.cfg.planeBytes) →
    exec (.pcWriteBlackPlane .fill) s = .next { s.performed
      (Script.command 0x24 (List.replicate s.cfg.planeBytes 0xFF)) with k := s.cfg.planeBytes } ∧
    exec (.pcWriteBlackPlane .buffer) s = .next { s.performed
      (Script.command 0x24 s.bufferBytes) with k := s.cfg.planeBytes } ∧
    exec (.pcWriteRedPlane .fill) s = .next { s.performed
      (Script.command 0x26 (List.replicate s.cfg.planeBytes 0x00)) with k := s.cfg.planeBytes } ∧
    exec (.pcWriteRedPlane .buffer) s = .next { s.performed
      (Script.command 0x26 (s.bufferBytes.map fun b => 255 - b)) with k := s.cfg.planeBytes }

/-! ### Micro-operations -/

/-- Reset: six events, RST ends HIGH, nothing else changes (R152). -/
def Obligations.ResetPulsesTheLine : Prop :=
  ∀ s : State, exec .reset s = .next { s with
    trace := .sleepFor 200 :: .setLine .rst .high :: .sleepFor 2 :: .setLine .rst .low :: .sleepFor 200 ::
      .setLine .rst .high :: s.trace
    rst := .driven .high }

/-- WaitIdle: held busy for `n` polls, it makes `n + 1` polls, `n` sleeps of 10 ms and one of 200 ms (R141). -/
def Obligations.WaitIdlePollsUntilNotBusy : Prop :=
  ∀ (s : State) (n : Nat), s.holdsBusy 0 n →
    exec .waitIdle s = .next { s.performed (Script.wait s.cfg n) with polls := n + 1, waiting := false }

/-- A panel that never releases BUSY: WaitIdle never returns, polls without bound, and sets no flag (R143, R248). The
model's choices in it: that one step polls `m` times and that going on is counted in steps (log 14), the mark `waiting`
(log 15), and what a WaitIdle outside an operation leaves (log 21). -/
def Obligations.UnresponsivePanelHangs : Prop :=
  (∀ s : State, s.busyForEver → ∃ m, 1 ≤ m ∧
    exec .waitIdle s = .next { s.performed (Script.busyPolls s.cfg m) with polls := m, waiting := true }) ∧
  ∀ (s : State) (op : HostOp) (row : Nat), s.cfg.ok = true → s.seq = .run op row → s.waiting = true → s.busyForEver →
    ∀ k, ∃ m, k ≤ m ∧ Host.Core.run Sys2Proof.core k s =
      .next { s.performed (Script.busyPolls s.cfg m) with polls := s.polls + m }

/-- PrepareDraw completes (R181). -/
def Obligations.PrepareDrawSetsTheCounter : Prop :=
  ∀ s : State, s.linkOk 3 → exec .prepareDraw s = .next (s.performed (Script.prepareDraw s.cfg))

/-- StreamFill: every frame sent, or the first failed one ends it with `k` frames completely sent and the trap entry
(R184, R243, R250). The `haltedAt` of a failure outside an operation is the model's choice (log 16). -/
def Obligations.StreamFillSendsTheByte : Prop :=
  ∀ (s : State) (v : Byte),
    (s.linkOk s.cfg.planeBytes → exec (.streamFill v) s =
      .next { s.performed (Script.data (List.replicate s.cfg.planeBytes v)) with k := s.cfg.planeBytes }) ∧
    ∀ k < s.cfg.planeBytes, s.linkOk k → s.link.get k = .fail →
      exec (.streamFill v) s = .next { s.performed (Script.data (List.replicate k v) ++
        [.setLine .dc .high, .setLine .cs .low, .transmit v .fail]) with
        k := k, fatal := true, err := .transmitFailure, seq := .halted, haltedAt := s.position }

/-- StreamPlane: the buffer in ascending order, each byte once, itself or its complement; the buffer is not written; a
failed frame ends it with the trap entry (R186, R243, R250). The `haltedAt` of a failure outside an operation is the
model's choice (log 16). -/
def Obligations.StreamPlaneSendsTheBuffer : Prop :=
  ∀ (s : State) (f : PlaneXform),
    (s.linkOk s.cfg.planeBytes → exec (.streamPlane f) s =
      .next { s.performed (Script.data (s.bufferBytes.map (Script.sentByte f))) with k := s.cfg.planeBytes }) ∧
    ∀ k < s.cfg.planeBytes, s.linkOk k → s.link.get k = .fail →
      exec (.streamPlane f) s = .next { s.performed
        (Script.data ((s.bufferBytes.take k).map (Script.sentByte f)) ++
          [.setLine .dc .high, .setLine .cs .low, .transmit (Script.sentByte f (s.pb.byteAt k)) .fail]) with
        k := k, fatal := true, err := .transmitFailure, seq := .halted, haltedAt := s.position }

/-- TurnOnDisplay completes (R188). -/
def Obligations.TurnOnDisplayActivatesAndWaits : Prop :=
  ∀ (s : State) (n : Nat), s.linkOk 3 → s.holdsBusy 0 n →
    exec .turnOnDisplay s = .next { s.performed (Script.turnOn s.cfg n) with polls := n + 1, waiting := false }

/-- Convert completes: every byte of the buffer is the closed form, `acc` is 0, the counters stay in range, nothing
else changes (R210, R211, R219, R220; what the counters hold afterwards is a free value, log 13). -/
def Obligations.ConvertFillsThePlane : Prop :=
  ∀ (s : State) (img : Image), s.cfg.geometryOk = true →
    ∃ t : State, exec (.convert img) s = .next t ∧
      (∀ a < s.cfg.planeBytes, t.pb.byteAt a = Script.planeByte s.cfg img a) ∧
      (∀ a, s.cfg.planeBytes ≤ a → t.pb.byteAt a = s.pb.byteAt a) ∧
      t.i < s.cfg.width ∧ t.j < s.cfg.height ∧
      t = { s with acc := 0, pb := t.pb, i := t.i, j := t.j, draws := s.draws + 1 }

/-- The lanes of a converted byte: bit `7 - n` is the or of the White classes of columns 0 .. n of the group (R226). -/
def Obligations.ConvertedLanesArePrefixOrs : Prop :=
  ∀ (s t : State) (img : Image) (g j n : Nat), s.cfg.geometryOk = true → exec (.convert img) s = .next t →
    g < s.cfg.stride → j < s.cfg.height → n < 8 →
    ((t.pb.byteAt (g + j * s.cfg.stride)).getLsbD (7 - n) = true ↔
      ∃ m ≤ n, pixelClass s.cfg img (8 * g + m) j = .white)

/-- All white gives FF, wholly out of bounds gives FF, black all over the panel gives 00 (R221). -/
def Obligations.UniformImagesConvertUniformly : Prop :=
  ∀ (s t : State) (img : Image), s.cfg.geometryOk = true → exec (.convert img) s = .next t →
    ((∀ i < s.cfg.width, ∀ j < s.cfg.height, imgIn img i j = true → s.cfg.classifier.classify (imgPx img i j) = .white) →
      ∀ a < s.cfg.planeBytes, t.pb.byteAt a = 0xFF) ∧
    ((img.x1 ≤ 0 ∨ img.y1 ≤ 0 ∨ (s.cfg.width : Int) ≤ img.x0 ∨ (s.cfg.height : Int) ≤ img.y0 ∨ img.x1 ≤ img.x0 ∨
        img.y1 ≤ img.y0) →
      ∀ a < s.cfg.planeBytes, t.pb.byteAt a = 0xFF) ∧
    ((∀ i < s.cfg.width, ∀ j < s.cfg.height,
        imgIn img i j = true ∧ s.cfg.classifier.classify (imgPx img i j) = .black) →
      ∀ a < s.cfg.planeBytes, t.pb.byteAt a = 0x00)

/-- The default classifier (the spec's own choice, R214 and D11; log 4): White iff the squared distance to white is
the smaller, that is iff the three bytes add up to at least 383; no tie occurs; the distances fit in 18 bits. -/
def Obligations.DefaultClassifierThreshold : Prop :=
  ∀ r g b : Byte,
    let dB := r.toNat * r.toNat + g.toNat * g.toNat + b.toNat * b.toNat
    let dW := (255 - r.toNat) * (255 - r.toNat) + (255 - g.toNat) * (255 - g.toNat) + (255 - b.toNat) * (255 - b.toNat)
    (Classifier.nearest.classify ⟨r, g, b⟩ = .white ↔ dW < dB) ∧
    (Classifier.nearest.classify ⟨r, g, b⟩ = .white ↔ 383 ≤ r.toNat + g.toNat + b.toNat) ∧
    (Classifier.nearest.classify ⟨r, g, b⟩ = .black ↔ r.toNat + g.toNat + b.toNat ≤ 382) ∧
    dW ≠ dB ∧ dB ≤ 195075 ∧ dW ≤ 195075

/-! ### Host operations -/

/-- Setup: one Open; `open` is set when it is answered ok (R151); else SetupFailure is taken (R242); refused when open
or torn (R244). Setup as an operation and one lifecycle per power-on are the spec's decisions D16 and D26 (log 27). -/
def Obligations.SetupOpensTheBus : Prop :=
  (∀ s : State, s.seq = .idle → s.waiting = false → s.opened = false → s.torn = false → s.fatal = false →
    s.phase = .uninitialized →
    (s.link.get 0 = .ok → exec .setup s =
      .next { s with trace := .openBus .ok :: s.trace, link := s.link.skip 1, opened := true }) ∧
    (s.link.get 0 = .fail → exec .setup s =
      .next { s with
        trace := .openBus .fail :: s.trace, link := s.link.skip 1, fatal := true, err := .setupFailure
        seq := .halted, haltedAt := some (.setup, 0) })) ∧
  ∀ s : State, s.running = false → (s.opened = true ∨ s.torn = true) → exec .setup s = .next { s with err := .refused }

/-- Initialize: the whole script in order, with any number of busy polls in each of its four waits (R156 to R163). -/
def Obligations.InitializeEmitsTheScript : Prop :=
  ∀ (s : State) (n1 n2 n3 n13 : Nat), s.ready → s.linkOk 40 → s.holdsBusy 0 n1 → s.holdsBusy (n1 + 1) n2 →
    s.holdsBusy (n1 + n2 + 2) n3 → s.holdsBusy (n1 + n2 + n3 + 3) n13 →
    exec .initPanel s = .next { s.performed (Script.init s.cfg n1 n2 n3 n13) with
      phase := .initialized, polls := n13 + 1 }

/-- ClearDisplay: black fill, red fill, turn on; the plane buffer and the converter are not touched (R183, R245,
R246). That `k` and the buffer keep their values once the operation has ended is the model's choice (log 33). -/
def Obligations.ClearFillsBothPlanes : Prop :=
  ∀ (s : State) (n : Nat), s.ready → s.mayRun .clear → s.linkOk (2 * s.cfg.planeBytes + 8) → s.holdsBusy 0 n →
    exec .clear s = .next { s.performed (Script.clear s.cfg n) with
      phase := .cleared, k := s.cfg.planeBytes, polls := n + 1, violation := s.violationAfter .clear }

/-- DisplayImage: the converted black plane verbatim, the converted red plane complemented, an absent plane not at all,
turn on always; the buffer holds the last conversion (R185, R186, R245, R246). The counters afterwards are free values
(log 13); that the buffer, `acc` and `k` keep theirs once the operation has ended is the model's choice (log 33). -/
def Obligations.DisplaySendsTheConvertedPlanes : Prop :=
  ∀ (s : State) (b r : Option Image) (n : Nat), s.ready → s.cfg.geometryOk = true → s.mayRun (.display b r) →
    s.linkOk (6 + Script.planeFrames s.cfg b + Script.planeFrames s.cfg r) → s.holdsBusy 0 n →
    ∃ t : State, exec (.display b r) s = .next t ∧
      t = { s.performed (Script.display s.cfg b r n) with
        phase := .displaying, polls := n + 1, violation := s.violationAfter (.display b r)
        k := if b.isSome || r.isSome then s.cfg.planeBytes else s.k
        acc := if b.isSome || r.isSome then 0 else s.acc
        draws := s.draws + b.toList.length + r.toList.length
        pb := t.pb, i := t.i, j := t.j } ∧
      (∀ img, r = some img → ∀ a < s.cfg.planeBytes, t.pb.byteAt a = Script.planeByte s.cfg img a) ∧
      (∀ img, r = none → b = some img → ∀ a < s.cfg.planeBytes, t.pb.byteAt a = Script.planeByte s.cfg img a) ∧
      (b = none → r = none → t.pb = s.pb ∧ t.i = s.i ∧ t.j = s.j) ∧
      (b.isSome = true ∨ r.isSome = true → t.i < s.cfg.width ∧ t.j < s.cfg.height)

/-- Sleep: the deep-sleep command, then `phase` is Sleeping (R190, R245, R246). -/
def Obligations.SleepSendsDeepSleep : Prop :=
  ∀ s : State, s.ready → s.mayRun .sleep → s.linkOk 2 →
    exec .sleep s = .next { s.performed (Script.sleep s.cfg) with
      phase := .sleeping, violation := s.violationAfter .sleep }

/-- Teardown: from an idle block, or from a halted one after a fatal exception, which stays halted (R192, R251). -/
def Obligations.TeardownReleasesTheLines : Prop :=
  ∀ s : State, s.waiting = false → s.opened = true → s.torn = false →
    (s.seq = .idle ∧ s.fatal = false ∨ s.seq = .halted ∧ s.fatal = true) →
    exec .teardown s = .next { s with
      trace := .closeBus :: .setLine .cs .low :: .setLine .dc .low :: .setLine .rst .low :: .endTransaction :: s.trace
      rst := .driven .low, dc := .driven .low, cs := .driven .low, opened := false, torn := true }

/-- The reserved codes: every request word with `op` 6 or 7 stands for its reserved instruction, and a block that is not
running refuses it: `err` is 4, no event, nothing else changes. `bp` and `rp` are ignored on every operation but DISPLAY
(R105; the numbers are the spec's decision D2). -/
def Obligations.ReservedCodesAreRefused : Prop :=
  (∀ (c : Cfg) (bp rp : Bool) (black red : Image),
    decode c ⟨[BitVec.ofNat 8 (24 + 2 * bp.toNat + rp.toNat)], black, red⟩ = .ok .reserved6 ∧
    decode c ⟨[BitVec.ofNat 8 (28 + 2 * bp.toNat + rp.toNat)], black, red⟩ = .ok .reserved7) ∧
  (∀ s : State, s.running = false →
    exec .reserved6 s = .next { s with err := .refused } ∧ exec .reserved7 s = .next { s with err := .refused }) ∧
  ∀ (c : Cfg) (op : Nat) (bp rp bp' rp' : Bool) (b r b' r' : Image), op < 8 → op ≠ 3 →
    decode c ⟨[BitVec.ofNat 8 (4 * op + 2 * bp.toNat + rp.toNat)], b, r⟩ =
      decode c ⟨[BitVec.ofNat 8 (4 * op + 2 * bp'.toNat + rp'.toNat)], b', r'⟩

/-- Refused, in each of the five cases: the code is recorded, no event is performed, nothing else changes (R244; the
cases are the spec's decisions D2, D16, D26). -/
def Obligations.RefusedRequestsOnlyRecordTheCode : Prop :=
  (∀ (i : Instr) (s : State), s.running = false → i = .reserved6 ∨ i = .reserved7 →
    exec i s = .next { s with err := .refused }) ∧
  ∀ (op : HostOp) (s : State), s.running = false →
    (s.torn = true ∨ (s.opened = false ∧ op ≠ .setup) ∨ (s.opened = true ∧ op = .setup) ∨
      (s.seq = .halted ∧ op ≠ .teardown)) →
    exec (hostInstr op) s = .next { s with err := .refused }

/-- With STRICT = 1 a sequence violation emits nothing, leaves the phase, records err 3 and the violation (R245,
R246). -/
def Obligations.StrictBlockStopsSequenceViolations : Prop :=
  ∀ (op : HostOp) (s : State), s.ready → op ≠ .setup → s.cfg.strict = true → legalIn op s.phase = false →
    exec (hostInstr op) s = .next { s with violation := true, err := .sequenceViolation }

/-- The legal cells of R245, written out. -/
def Obligations.LegalPhasesAreTheTable : Prop :=
  ∀ (p : Phase) (b r : Option Image),
    (legalIn .setup p = true ↔ p = .uninitialized) ∧ legalIn .initPanel p = true ∧ legalIn .teardown p = true ∧
    (legalIn .clear p = true ↔ p = .initialized ∨ p = .cleared ∨ p = .displaying) ∧
    (legalIn (.display b r) p = true ↔ p = .initialized ∨ p = .cleared ∨ p = .displaying) ∧
    (legalIn .sleep p = true ↔ p = .initialized ∨ p = .cleared ∨ p = .displaying)

/-- A suspended operation goes on when the panel reads not busy, performs the rows after its WaitIdle, and ends as its
table says: ClearDisplay and DisplayImage from row 5, Initialize from each of its rows 1, 2, 3 and 13, with any number of
busy polls in the waits still to come (R27, R141, R156, R183, R185; that a suspended operation is a step of its own is
log 14). -/
def Obligations.SuspendedOperationsFinish : Prop :=
  ∀ (s : State) (n : Nat), s.cfg.ok = true → s.waiting = true → s.fatal = false → s.holdsBusy 0 n →
    (s.seq = .run .clear 5 → step s = .next { s.performed (Script.wait s.cfg n) with
      polls := s.polls + n + 1, waiting := false, phase := .cleared, seq := .idle }) ∧
    (∀ b r, s.seq = .run (.display b r) 5 → step s = .next { s.performed (Script.wait s.cfg n) with
      polls := s.polls + n + 1, waiting := false, phase := .displaying, seq := .idle }) ∧
    (s.seq = .run .initPanel 13 → s.linkOk 6 → step s =
      .next { s.performed (Script.wait s.cfg n ++ Script.initEnd s.cfg) with
        polls := s.polls + n + 1, waiting := false, phase := .initialized, seq := .idle }) ∧
    (∀ n13, s.seq = .run .initPanel 3 → s.linkOk 35 → s.holdsBusy (n + 1) n13 → step s =
      .next { s.performed (Script.wait s.cfg n ++ Script.initSetup s.cfg n13) with
        polls := n13 + 1, waiting := false, phase := .initialized, seq := .idle }) ∧
    (∀ n3 n13, s.seq = .run .initPanel 2 → s.linkOk 37 → s.holdsBusy (n + 1) n3 → s.holdsBusy (n + n3 + 2) n13 →
      step s = .next { s.performed (Script.wait s.cfg n ++
          (Script.command s.cfg.cmdAw2 [s.cfg.aw2P] ++ Script.wait s.cfg n3) ++ Script.initSetup s.cfg n13) with
        polls := n13 + 1, waiting := false, phase := .initialized, seq := .idle }) ∧
    ∀ n2 n3 n13, s.seq = .run .initPanel 1 → s.linkOk 39 → s.holdsBusy (n + 1) n2 → s.holdsBusy (n + n2 + 2) n3 →
      s.holdsBusy (n + n2 + n3 + 3) n13 →
      step s = .next { s.performed (Script.wait s.cfg n ++
          (Script.command s.cfg.cmdAw1 [s.cfg.aw1P] ++ Script.wait s.cfg n2) ++
          (Script.command s.cfg.cmdAw2 [s.cfg.aw2P] ++ Script.wait s.cfg n3) ++ Script.initSetup s.cfg n13) with
        polls := n13 + 1, waiting := false, phase := .initialized, seq := .idle }

/-- What one operation costs, panel never busy: milliseconds of requested sleep, command frames, data frames, polls and
events (R165, R193, over the symbols of R6). -/
def Obligations.BudgetsPerOperation : Prop :=
  ∀ (s t : State) (op : HostOp), s.ready → s.cfg.geometryOk = true → s.mayRun op → s.linkAlwaysOk →
    (∀ m < 4, s.busy.get m ≠ s.cfg.busyActive) → exec (hostInstr op) s = .next t →
    ∃ es, t.T = s.T ++ es ∧
      (op = .initPanel → budget es = ⟨1202, 14, 26, 4, 174⟩) ∧
      (op = .clear → budget es = ⟨400, 5, 2 * s.cfg.planeBytes + 3, 1, 8 * s.cfg.planeBytes + 35⟩) ∧
      (∀ b r, op = .display b r →
        let n := b.toList.length + r.toList.length
        budget es = ⟨400, 3 + n, 3 + n * s.cfg.planeBytes, 1, 27 + 4 * n + 4 * (n * s.cfg.planeBytes)⟩) ∧
      (op = .sleep → budget es = ⟨0, 1, 1, 0, 8⟩) ∧
      (op = .teardown → budget es = ⟨0, 0, 0, 0, 5⟩)

/-! ### Exceptions -/

/-- Entry of a fatal exception: the failing event is the last of `T`, all before it in the instruction succeeded,
`err` names it, `seq` is HALTED, and after a failed transmission CS is LOW and DC as the frame set it. A host operation
leaves its own name and the row that its transmissions end in, Initialize leaves `InReset`, the others the phase as it
was. The same of every step, also of one that goes on with an operation suspended in a WaitIdle, whose rows are counted
from the one after it (R242, R243, R250; that such an operation goes on in a step of its own is log 14). -/
def Obligations.FatalEntryIsPrecise : Prop :=
  (∀ (i : Instr) (s t : State), exec i s = .next t → s.fatal = false → t.fatal = true → FatalEntry s t) ∧
  (∀ (op : HostOp) (s t : State), exec (hostInstr op) s = .next t → s.fatal = false → t.fatal = true →
    FatalIn op 0 s t) ∧
  ∀ s t : State, s.Lifecycle → step s = .next t → s.fatal = false → t.fatal = true →
    FatalEntry s t ∧ ∀ op row, s.seq = .run op row → FatalIn op (row + 1) s t

/-- A block that has halted stays halted and fatal, whatever the host asks (R251). -/
def Obligations.OnlyPowerOnLeavesHalted : Prop :=
  ∀ s t : State, s.Lifecycle → s.seq = .halted → step s = .next t → t.seq = .halted ∧ t.fatal = true

/-- Every instruction answers a next state, in every state: no index outside the plane buffer is ever generated, and
nothing is refused (R66, R225). -/
def Obligations.EveryInstructionAnswers : Prop :=
  ∀ (i : Instr) (s : State), ∃ t : State, exec i s = .next t

/-! ### Frames -/

/-- What frames, panel commands with parameter bytes, Reset and PrepareDraw may change, however they end. -/
def Obligations.FramedInstructionsFrame : Prop :=
  (∀ (s t : State) (i : Instr), exec i s = .next t →
    ((∃ v, i = .sendCommand v) ∨ (∃ v, i = .sendData v) ∨ i = .prepareDraw ∨
      ∃ code bytes, (i, code, bytes) ∈ Script.commandTable s.cfg) →
    t = { s with
      trace := t.trace, dc := t.dc, cs := t.cs, link := t.link
      fatal := t.fatal, err := t.err, seq := t.seq, haltedAt := t.haltedAt } ∧
    (t.fatal = false → t.err = s.err ∧ t.seq = s.seq ∧ t.haltedAt = s.haltedAt)) ∧
  (∀ (s t : State) (i : Instr), exec i s = .next t →
    ((∃ v, i = .streamFill v) ∨ (∃ f, i = .streamPlane f) ∨ (∃ u, i = .pcWriteBlackPlane u) ∨
      ∃ u, i = .pcWriteRedPlane u) →
    t = { s with
      trace := t.trace, dc := t.dc, cs := t.cs, link := t.link, k := t.k
      fatal := t.fatal, err := t.err, seq := t.seq, haltedAt := t.haltedAt } ∧
    (∀ a, t.pb.byteAt a = s.pb.byteAt a) ∧
    (t.fatal = false → t.err = s.err ∧ t.seq = s.seq ∧ t.haltedAt = s.haltedAt)) ∧
  (∀ s t : State, exec .waitIdle s = .next t →
    t = { s with trace := t.trace, busy := t.busy, polls := t.polls, waiting := t.waiting }) ∧
  ∀ s t : State, exec .turnOnDisplay s = .next t →
    t = { s with
      trace := t.trace, dc := t.dc, cs := t.cs, link := t.link, busy := t.busy, polls := t.polls, waiting := t.waiting
      fatal := t.fatal, err := t.err, seq := t.seq, haltedAt := t.haltedAt } ∧
    (t.fatal = false → t.err = s.err ∧ t.seq = s.seq ∧ t.haltedAt = s.haltedAt)

/-- What host operations leave unchanged, however they end: the datapath and the plane buffer by every operation but
DisplayImage, which writes no byte outside the plane, and none without an operand; `k` by every operation that streams
nothing; the flags of the lifecycle, the latches, the phase and the codes except as each operation writes them. That the
datapath and the buffer keep their values between operations is the model's choice (log 33), and so is that Teardown
leaves `haltedAt` as it was (log 16). -/
def Obligations.HostOperationsFrame : Prop :=
  ∀ (op : HostOp) (s t : State), exec (hostInstr op) s = .next t →
    t.cfg = s.cfg ∧ t.inbox = s.inbox ∧
    ((∀ b r, op ≠ .display b r) ∨ op = .display none none →
      t.acc = s.acc ∧ t.i = s.i ∧ t.j = s.j ∧ t.draws = s.draws ∧ t.pb = s.pb ∧
        ∀ a, t.pb.byteAt a = s.pb.byteAt a) ∧
    (∀ a, s.cfg.planeBytes ≤ a → t.pb.byteAt a = s.pb.byteAt a) ∧
    ((∀ b r, op ≠ .display b r) ∨ op = .display none none → op ≠ .clear → t.k = s.k) ∧
    (op ≠ .setup → op ≠ .teardown → t.opened = s.opened ∧ t.torn = s.torn) ∧
    (op = .setup → t.torn = s.torn) ∧
    (op ≠ .initPanel → op ≠ .teardown → t.rst = s.rst) ∧
    (op = .setup → t.dc = s.dc ∧ t.cs = s.cs) ∧
    (op = .setup ∨ op = .sleep ∨ op = .teardown →
      t.polls = s.polls ∧ t.waiting = s.waiting ∧ t.busy = s.busy) ∧
    (op = .setup ∨ op = .teardown → t.phase = s.phase) ∧
    (op = .initPanel → t.phase = s.phase ∨ t.phase = .inReset ∨ t.phase = .initialized) ∧
    (op = .clear → t.phase = s.phase ∨ t.phase = .cleared) ∧
    (∀ b r, op = .display b r → t.phase = s.phase ∨ t.phase = .displaying) ∧
    (op = .sleep → t.phase = s.phase ∨ t.phase = .sleeping) ∧
    (op = .teardown → t.link = s.link ∧ t.fatal = s.fatal ∧ t.haltedAt = s.haltedAt) ∧
    (t.violation = s.violation ∨ legalIn op s.phase = false ∧ t.violation = true) ∧
    (s.fatal = true → t.fatal = true) ∧
    (t.fatal = false → t.haltedAt = s.haltedAt) ∧
    (t.fatal = false → t.err = s.err ∨ t.err = .refused ∨ t.err = .sequenceViolation)

/-! ### Invariants of every step -/

/-- Every step keeps the trace well framed (R134). -/
def Obligations.StepKeepsTheTraceWellFramed : Prop :=
  ∀ s t : State, WellFramed s.T → step s = .next t → WellFramed t.T

/-- Every step keeps: no command frame carries a code outside the seventeen (R106), as long as requests come from the
host (log 8). -/
def Obligations.StepSendsOnlyPanelCodes : Prop :=
  ∀ s t : State, s.hostOnly ∧ OnlyPanelCodes s.cfg s.T → step s = .next t →
    t.hostOnly ∧ OnlyPanelCodes t.cfg t.T

/-- Every step keeps the latches at the last levels driven (R21). -/
def Obligations.StepKeepsLatchesAtTheLastLevels : Prop :=
  ∀ s t : State, s.latchesFollow → step s = .next t → t.latchesFollow

/-- Every step keeps the lifecycle invariant (R27 to R31, R251). -/
def Obligations.StepKeepsTheLifecycle : Prop :=
  ∀ s t : State, s.Lifecycle → step s = .next t → t.Lifecycle

/-- Every step keeps the plane buffer inside its range (R66, R69) and canonical: the strictly rising indices are the
model's representation of it (log 12), no rule of the spec. -/
def Obligations.StepKeepsThePlaneBuffer : Prop :=
  ∀ s t : State, s.planeOk → step s = .next t → t.planeOk

/-- No step takes an event back, clears `fatal`, `violation` or `torn`, or changes the configuration (R30, R31, R32,
R252). -/
def Obligations.StepOnlyAppendsAndKeepsStickyFlags : Prop :=
  ∀ s t : State, step s = .next t →
    (∃ es, t.T = s.T ++ es) ∧ t.cfg = s.cfg ∧ (s.fatal = true → t.fatal = true) ∧
    (s.violation = true → t.violation = true) ∧ (s.torn = true → t.torn = true)

/-- Every step keeps: the bus was opened at most once and closed at most once (R29, R192). -/
def Obligations.StepOpensAndClosesOnce : Prop :=
  ∀ s t : State, s.Lifecycle ∧ s.onceEach → step s = .next t → t.onceEach

/-- The invariants hold after power-on. -/
def Obligations.PowerOnMeetsTheInvariants : Prop :=
  WellFramed State.reset.T ∧ State.reset.hostOnly ∧ OnlyPanelCodes State.reset.cfg State.reset.T ∧
  State.reset.latchesFollow ∧ State.reset.Lifecycle ∧ State.reset.planeOk ∧ State.reset.onceEach

/-- `violation` is raised by a request made in a phase its row of the table does not allow, and by nothing else
(R31, R245): every such request that is accepted (nothing runs) and not refused (R244) leaves it set, however the
operation ends, STRICT or not; a step that raises it ran such a request. -/
def Obligations.ViolationOnlyByAnIllegalRequest : Prop :=
  (∀ (op : HostOp) (s t : State), s.running = false → s.torn = false → (s.opened = true ↔ op ≠ .setup) →
    (s.seq = .halted → op = .teardown) → legalIn op s.phase = false → exec (hostInstr op) s = .next t →
    t.violation = true) ∧
  ∀ s t : State, step s = .next t → s.violation = false → t.violation = true →
    ∃ r rs op, s.inbox = r :: rs ∧ decode s.cfg r = .ok (hostInstr op) ∧ legalIn op s.phase = false

/-! ### Whole operations and runs -/

/-- The script is constant: with the same configuration, operation (images included) and answers, an operation
emits the same events whatever else the block holds (R28, R76, R210); with STRICT = 1, where the check of R246 reads the
phase, if it is legal in both phases or in neither. -/
def Obligations.ScriptDependsOnlyOnRequestAndAnswers : Prop :=
  ∀ (op : HostOp) (s1 s2 t1 t2 : State), s1.cfg.ok = true →
    (s1.cfg.strict = false ∨ legalIn op s2.phase = legalIn op s1.phase) →
    s2.cfg = s1.cfg → s2.link = s1.link → s2.busy = s1.busy → s2.opened = s1.opened → s2.torn = s1.torn →
    s2.seq = s1.seq → s2.waiting = s1.waiting →
    exec (hostInstr op) s1 = .next t1 → exec (hostInstr op) s2 = .next t2 →
    ∃ es, t1.T = s1.T ++ es ∧ t2.T = s2.T ++ es

/-- A program in the required order (R282), on a transport that never fails and a panel that always releases BUSY in
the end, runs to a finished run (R284): no refusal, no violation, no fatal exception. That it takes one step a request is
the model's choice of step (log 14), the list of requests its form of the host (log 7). The order is the grammar of R282
as written, which leaves out `Setup ; Teardown` (log 34). -/
def Obligations.RequiredOrderGivesAFinishedRun : Prop :=
  ∀ (ops : List HostOp) (s : State), bootOrder .closed ops = true → s.cfg.ok = true →
    s.seq = .idle → s.waiting = false → s.opened = false → s.torn = false → s.fatal = false → s.err = .none →
    s.violation = false → s.phase = .uninitialized → s.linkAlwaysOk → s.busy.rest ≠ s.cfg.busyActive →
    s.inbox = ops.filterMap (fun op => encode s.cfg (hostInstr op)) →
    ∃ t : State, Host.Core.run Sys2Proof.core ops.length s = .next t ∧ t.finished = true ∧ t.inbox = []
end

