-- ==== Sys2Proof/Laws/State.lean ====
section
/-! SUPPORT. What each update of the state does to each field: one lemma per field per update. -/

namespace Sys2Proof.Machine

/-! ### emit -/

@[simp] theorem emit_rst (e : Event) (s : State) : (emit e s).rst = s.rst := rfl
@[simp] theorem emit_dc (e : Event) (s : State) : (emit e s).dc = s.dc := rfl
@[simp] theorem emit_cs (e : Event) (s : State) : (emit e s).cs = s.cs := rfl
@[simp] theorem emit_acc (e : Event) (s : State) : (emit e s).acc = s.acc := rfl
@[simp] theorem emit_i (e : Event) (s : State) : (emit e s).i = s.i := rfl
@[simp] theorem emit_j (e : Event) (s : State) : (emit e s).j = s.j := rfl
@[simp] theorem emit_k (e : Event) (s : State) : (emit e s).k = s.k := rfl
@[simp] theorem emit_pb (e : Event) (s : State) : (emit e s).pb = s.pb := rfl
@[simp] theorem emit_seq (e : Event) (s : State) : (emit e s).seq = s.seq := rfl
@[simp] theorem emit_haltedAt (e : Event) (s : State) : (emit e s).haltedAt = s.haltedAt := rfl
@[simp] theorem emit_opened (e : Event) (s : State) : (emit e s).opened = s.opened := rfl
@[simp] theorem emit_torn (e : Event) (s : State) : (emit e s).torn = s.torn := rfl
@[simp] theorem emit_fatal (e : Event) (s : State) : (emit e s).fatal = s.fatal := rfl
@[simp] theorem emit_err (e : Event) (s : State) : (emit e s).err = s.err := rfl
@[simp] theorem emit_phase (e : Event) (s : State) : (emit e s).phase = s.phase := rfl
@[simp] theorem emit_violation (e : Event) (s : State) : (emit e s).violation = s.violation := rfl
@[simp] theorem emit_trace (e : Event) (s : State) : (emit e s).trace = e :: s.trace := rfl
@[simp] theorem emit_polls (e : Event) (s : State) : (emit e s).polls = s.polls := rfl
@[simp] theorem emit_waiting (e : Event) (s : State) : (emit e s).waiting = s.waiting := rfl
@[simp] theorem emit_cfg (e : Event) (s : State) : (emit e s).cfg = s.cfg := rfl
@[simp] theorem emit_inbox (e : Event) (s : State) : (emit e s).inbox = s.inbox := rfl
@[simp] theorem emit_busy (e : Event) (s : State) : (emit e s).busy = s.busy := rfl
@[simp] theorem emit_link (e : Event) (s : State) : (emit e s).link = s.link := rfl
@[simp] theorem emit_draws (e : Event) (s : State) : (emit e s).draws = s.draws := rfl

/-! ### sleepFor -/

@[simp] theorem sleepFor_rst (ms : Nat) (s : State) : (sleepFor ms s).rst = s.rst := rfl
@[simp] theorem sleepFor_dc (ms : Nat) (s : State) : (sleepFor ms s).dc = s.dc := rfl
@[simp] theorem sleepFor_cs (ms : Nat) (s : State) : (sleepFor ms s).cs = s.cs := rfl
@[simp] theorem sleepFor_acc (ms : Nat) (s : State) : (sleepFor ms s).acc = s.acc := rfl
@[simp] theorem sleepFor_i (ms : Nat) (s : State) : (sleepFor ms s).i = s.i := rfl
@[simp] theorem sleepFor_j (ms : Nat) (s : State) : (sleepFor ms s).j = s.j := rfl
@[simp] theorem sleepFor_k (ms : Nat) (s : State) : (sleepFor ms s).k = s.k := rfl
@[simp] theorem sleepFor_pb (ms : Nat) (s : State) : (sleepFor ms s).pb = s.pb := rfl
@[simp] theorem sleepFor_seq (ms : Nat) (s : State) : (sleepFor ms s).seq = s.seq := rfl
@[simp] theorem sleepFor_haltedAt (ms : Nat) (s : State) : (sleepFor ms s).haltedAt = s.haltedAt := rfl
@[simp] theorem sleepFor_opened (ms : Nat) (s : State) : (sleepFor ms s).opened = s.opened := rfl
@[simp] theorem sleepFor_torn (ms : Nat) (s : State) : (sleepFor ms s).torn = s.torn := rfl
@[simp] theorem sleepFor_fatal (ms : Nat) (s : State) : (sleepFor ms s).fatal = s.fatal := rfl
@[simp] theorem sleepFor_err (ms : Nat) (s : State) : (sleepFor ms s).err = s.err := rfl
@[simp] theorem sleepFor_phase (ms : Nat) (s : State) : (sleepFor ms s).phase = s.phase := rfl
@[simp] theorem sleepFor_violation (ms : Nat) (s : State) : (sleepFor ms s).violation = s.violation := rfl
@[simp] theorem sleepFor_trace (ms : Nat) (s : State) : (sleepFor ms s).trace = .sleepFor ms :: s.trace := rfl
@[simp] theorem sleepFor_polls (ms : Nat) (s : State) : (sleepFor ms s).polls = s.polls := rfl
@[simp] theorem sleepFor_waiting (ms : Nat) (s : State) : (sleepFor ms s).waiting = s.waiting := rfl
@[simp] theorem sleepFor_cfg (ms : Nat) (s : State) : (sleepFor ms s).cfg = s.cfg := rfl
@[simp] theorem sleepFor_inbox (ms : Nat) (s : State) : (sleepFor ms s).inbox = s.inbox := rfl
@[simp] theorem sleepFor_busy (ms : Nat) (s : State) : (sleepFor ms s).busy = s.busy := rfl
@[simp] theorem sleepFor_link (ms : Nat) (s : State) : (sleepFor ms s).link = s.link := rfl
@[simp] theorem sleepFor_draws (ms : Nat) (s : State) : (sleepFor ms s).draws = s.draws := rfl

/-! ### takeAnswer -/

@[simp] theorem takeAnswer_rst (s : State) : (takeAnswer s).rst = s.rst := rfl
@[simp] theorem takeAnswer_dc (s : State) : (takeAnswer s).dc = s.dc := rfl
@[simp] theorem takeAnswer_cs (s : State) : (takeAnswer s).cs = s.cs := rfl
@[simp] theorem takeAnswer_acc (s : State) : (takeAnswer s).acc = s.acc := rfl
@[simp] theorem takeAnswer_i (s : State) : (takeAnswer s).i = s.i := rfl
@[simp] theorem takeAnswer_j (s : State) : (takeAnswer s).j = s.j := rfl
@[simp] theorem takeAnswer_k (s : State) : (takeAnswer s).k = s.k := rfl
@[simp] theorem takeAnswer_pb (s : State) : (takeAnswer s).pb = s.pb := rfl
@[simp] theorem takeAnswer_seq (s : State) : (takeAnswer s).seq = s.seq := rfl
@[simp] theorem takeAnswer_haltedAt (s : State) : (takeAnswer s).haltedAt = s.haltedAt := rfl
@[simp] theorem takeAnswer_opened (s : State) : (takeAnswer s).opened = s.opened := rfl
@[simp] theorem takeAnswer_torn (s : State) : (takeAnswer s).torn = s.torn := rfl
@[simp] theorem takeAnswer_fatal (s : State) : (takeAnswer s).fatal = s.fatal := rfl
@[simp] theorem takeAnswer_err (s : State) : (takeAnswer s).err = s.err := rfl
@[simp] theorem takeAnswer_phase (s : State) : (takeAnswer s).phase = s.phase := rfl
@[simp] theorem takeAnswer_violation (s : State) : (takeAnswer s).violation = s.violation := rfl
@[simp] theorem takeAnswer_trace (s : State) : (takeAnswer s).trace = s.trace := rfl
@[simp] theorem takeAnswer_polls (s : State) : (takeAnswer s).polls = s.polls := rfl
@[simp] theorem takeAnswer_waiting (s : State) : (takeAnswer s).waiting = s.waiting := rfl
@[simp] theorem takeAnswer_cfg (s : State) : (takeAnswer s).cfg = s.cfg := rfl
@[simp] theorem takeAnswer_inbox (s : State) : (takeAnswer s).inbox = s.inbox := rfl
@[simp] theorem takeAnswer_busy (s : State) : (takeAnswer s).busy = s.busy := rfl
@[simp] theorem takeAnswer_link (s : State) : (takeAnswer s).link = s.link.skip 1 := rfl
@[simp] theorem takeAnswer_draws (s : State) : (takeAnswer s).draws = s.draws := rfl

/-! ### takeFatal -/

@[simp] theorem takeFatal_rst (c : ErrCode) (s : State) : (takeFatal c s).rst = s.rst := rfl
@[simp] theorem takeFatal_dc (c : ErrCode) (s : State) : (takeFatal c s).dc = s.dc := rfl
@[simp] theorem takeFatal_cs (c : ErrCode) (s : State) : (takeFatal c s).cs = s.cs := rfl
@[simp] theorem takeFatal_acc (c : ErrCode) (s : State) : (takeFatal c s).acc = s.acc := rfl
@[simp] theorem takeFatal_i (c : ErrCode) (s : State) : (takeFatal c s).i = s.i := rfl
@[simp] theorem takeFatal_j (c : ErrCode) (s : State) : (takeFatal c s).j = s.j := rfl
@[simp] theorem takeFatal_k (c : ErrCode) (s : State) : (takeFatal c s).k = s.k := rfl
@[simp] theorem takeFatal_pb (c : ErrCode) (s : State) : (takeFatal c s).pb = s.pb := rfl
@[simp] theorem takeFatal_seq (c : ErrCode) (s : State) : (takeFatal c s).seq = .halted := rfl
@[simp] theorem takeFatal_haltedAt (c : ErrCode) (s : State) : (takeFatal c s).haltedAt = s.position := rfl
@[simp] theorem takeFatal_opened (c : ErrCode) (s : State) : (takeFatal c s).opened = s.opened := rfl
@[simp] theorem takeFatal_torn (c : ErrCode) (s : State) : (takeFatal c s).torn = s.torn := rfl
@[simp] theorem takeFatal_fatal (c : ErrCode) (s : State) : (takeFatal c s).fatal = true := rfl
@[simp] theorem takeFatal_err (c : ErrCode) (s : State) : (takeFatal c s).err = c := rfl
@[simp] theorem takeFatal_phase (c : ErrCode) (s : State) : (takeFatal c s).phase = s.phase := rfl
@[simp] theorem takeFatal_violation (c : ErrCode) (s : State) : (takeFatal c s).violation = s.violation := rfl
@[simp] theorem takeFatal_trace (c : ErrCode) (s : State) : (takeFatal c s).trace = s.trace := rfl
@[simp] theorem takeFatal_polls (c : ErrCode) (s : State) : (takeFatal c s).polls = s.polls := rfl
@[simp] theorem takeFatal_waiting (c : ErrCode) (s : State) : (takeFatal c s).waiting = s.waiting := rfl
@[simp] theorem takeFatal_cfg (c : ErrCode) (s : State) : (takeFatal c s).cfg = s.cfg := rfl
@[simp] theorem takeFatal_inbox (c : ErrCode) (s : State) : (takeFatal c s).inbox = s.inbox := rfl
@[simp] theorem takeFatal_busy (c : ErrCode) (s : State) : (takeFatal c s).busy = s.busy := rfl
@[simp] theorem takeFatal_link (c : ErrCode) (s : State) : (takeFatal c s).link = s.link := rfl
@[simp] theorem takeFatal_draws (c : ErrCode) (s : State) : (takeFatal c s).draws = s.draws := rfl

/-! ### recordErr -/

@[simp] theorem recordErr_rst (c : ErrCode) (s : State) : (recordErr c s).rst = s.rst := rfl
@[simp] theorem recordErr_dc (c : ErrCode) (s : State) : (recordErr c s).dc = s.dc := rfl
@[simp] theorem recordErr_cs (c : ErrCode) (s : State) : (recordErr c s).cs = s.cs := rfl
@[simp] theorem recordErr_acc (c : ErrCode) (s : State) : (recordErr c s).acc = s.acc := rfl
@[simp] theorem recordErr_i (c : ErrCode) (s : State) : (recordErr c s).i = s.i := rfl
@[simp] theorem recordErr_j (c : ErrCode) (s : State) : (recordErr c s).j = s.j := rfl
@[simp] theorem recordErr_k (c : ErrCode) (s : State) : (recordErr c s).k = s.k := rfl
@[simp] theorem recordErr_pb (c : ErrCode) (s : State) : (recordErr c s).pb = s.pb := rfl
@[simp] theorem recordErr_seq (c : ErrCode) (s : State) : (recordErr c s).seq = s.seq := rfl
@[simp] theorem recordErr_haltedAt (c : ErrCode) (s : State) : (recordErr c s).haltedAt = s.haltedAt := rfl
@[simp] theorem recordErr_opened (c : ErrCode) (s : State) : (recordErr c s).opened = s.opened := rfl
@[simp] theorem recordErr_torn (c : ErrCode) (s : State) : (recordErr c s).torn = s.torn := rfl
@[simp] theorem recordErr_fatal (c : ErrCode) (s : State) : (recordErr c s).fatal = s.fatal := rfl
@[simp] theorem recordErr_err (c : ErrCode) (s : State) : (recordErr c s).err = c := rfl
@[simp] theorem recordErr_phase (c : ErrCode) (s : State) : (recordErr c s).phase = s.phase := rfl
@[simp] theorem recordErr_violation (c : ErrCode) (s : State) : (recordErr c s).violation = s.violation := rfl
@[simp] theorem recordErr_trace (c : ErrCode) (s : State) : (recordErr c s).trace = s.trace := rfl
@[simp] theorem recordErr_polls (c : ErrCode) (s : State) : (recordErr c s).polls = s.polls := rfl
@[simp] theorem recordErr_waiting (c : ErrCode) (s : State) : (recordErr c s).waiting = s.waiting := rfl
@[simp] theorem recordErr_cfg (c : ErrCode) (s : State) : (recordErr c s).cfg = s.cfg := rfl
@[simp] theorem recordErr_inbox (c : ErrCode) (s : State) : (recordErr c s).inbox = s.inbox := rfl
@[simp] theorem recordErr_busy (c : ErrCode) (s : State) : (recordErr c s).busy = s.busy := rfl
@[simp] theorem recordErr_link (c : ErrCode) (s : State) : (recordErr c s).link = s.link := rfl
@[simp] theorem recordErr_draws (c : ErrCode) (s : State) : (recordErr c s).draws = s.draws := rfl

/-! ### pollBusy -/

@[simp] theorem pollBusy_rst (s : State) : (pollBusy s).rst = s.rst := rfl
@[simp] theorem pollBusy_dc (s : State) : (pollBusy s).dc = s.dc := rfl
@[simp] theorem pollBusy_cs (s : State) : (pollBusy s).cs = s.cs := rfl
@[simp] theorem pollBusy_acc (s : State) : (pollBusy s).acc = s.acc := rfl
@[simp] theorem pollBusy_i (s : State) : (pollBusy s).i = s.i := rfl
@[simp] theorem pollBusy_j (s : State) : (pollBusy s).j = s.j := rfl
@[simp] theorem pollBusy_k (s : State) : (pollBusy s).k = s.k := rfl
@[simp] theorem pollBusy_pb (s : State) : (pollBusy s).pb = s.pb := rfl
@[simp] theorem pollBusy_seq (s : State) : (pollBusy s).seq = s.seq := rfl
@[simp] theorem pollBusy_haltedAt (s : State) : (pollBusy s).haltedAt = s.haltedAt := rfl
@[simp] theorem pollBusy_opened (s : State) : (pollBusy s).opened = s.opened := rfl
@[simp] theorem pollBusy_torn (s : State) : (pollBusy s).torn = s.torn := rfl
@[simp] theorem pollBusy_fatal (s : State) : (pollBusy s).fatal = s.fatal := rfl
@[simp] theorem pollBusy_err (s : State) : (pollBusy s).err = s.err := rfl
@[simp] theorem pollBusy_phase (s : State) : (pollBusy s).phase = s.phase := rfl
@[simp] theorem pollBusy_violation (s : State) : (pollBusy s).violation = s.violation := rfl
@[simp] theorem pollBusy_trace (s : State) : (pollBusy s).trace = .readBusy s.busy.head :: s.trace := rfl
@[simp] theorem pollBusy_polls (s : State) : (pollBusy s).polls = s.polls + 1 := rfl
@[simp] theorem pollBusy_waiting (s : State) : (pollBusy s).waiting = s.waiting := rfl
@[simp] theorem pollBusy_cfg (s : State) : (pollBusy s).cfg = s.cfg := rfl
@[simp] theorem pollBusy_inbox (s : State) : (pollBusy s).inbox = s.inbox := rfl
@[simp] theorem pollBusy_busy (s : State) : (pollBusy s).busy = s.busy.skip 1 := rfl
@[simp] theorem pollBusy_link (s : State) : (pollBusy s).link = s.link := rfl
@[simp] theorem pollBusy_draws (s : State) : (pollBusy s).draws = s.draws := rfl

/-! ### setPhase -/

@[simp] theorem setPhase_rst (p : Phase) (s : State) : (setPhase p s).rst = s.rst := rfl
@[simp] theorem setPhase_dc (p : Phase) (s : State) : (setPhase p s).dc = s.dc := rfl
@[simp] theorem setPhase_cs (p : Phase) (s : State) : (setPhase p s).cs = s.cs := rfl
@[simp] theorem setPhase_acc (p : Phase) (s : State) : (setPhase p s).acc = s.acc := rfl
@[simp] theorem setPhase_i (p : Phase) (s : State) : (setPhase p s).i = s.i := rfl
@[simp] theorem setPhase_j (p : Phase) (s : State) : (setPhase p s).j = s.j := rfl
@[simp] theorem setPhase_k (p : Phase) (s : State) : (setPhase p s).k = s.k := rfl
@[simp] theorem setPhase_pb (p : Phase) (s : State) : (setPhase p s).pb = s.pb := rfl
@[simp] theorem setPhase_seq (p : Phase) (s : State) : (setPhase p s).seq = s.seq := rfl
@[simp] theorem setPhase_haltedAt (p : Phase) (s : State) : (setPhase p s).haltedAt = s.haltedAt := rfl
@[simp] theorem setPhase_opened (p : Phase) (s : State) : (setPhase p s).opened = s.opened := rfl
@[simp] theorem setPhase_torn (p : Phase) (s : State) : (setPhase p s).torn = s.torn := rfl
@[simp] theorem setPhase_fatal (p : Phase) (s : State) : (setPhase p s).fatal = s.fatal := rfl
@[simp] theorem setPhase_err (p : Phase) (s : State) : (setPhase p s).err = s.err := rfl
@[simp] theorem setPhase_phase (p : Phase) (s : State) : (setPhase p s).phase = p := rfl
@[simp] theorem setPhase_violation (p : Phase) (s : State) : (setPhase p s).violation = s.violation := rfl
@[simp] theorem setPhase_trace (p : Phase) (s : State) : (setPhase p s).trace = s.trace := rfl
@[simp] theorem setPhase_polls (p : Phase) (s : State) : (setPhase p s).polls = s.polls := rfl
@[simp] theorem setPhase_waiting (p : Phase) (s : State) : (setPhase p s).waiting = s.waiting := rfl
@[simp] theorem setPhase_cfg (p : Phase) (s : State) : (setPhase p s).cfg = s.cfg := rfl
@[simp] theorem setPhase_inbox (p : Phase) (s : State) : (setPhase p s).inbox = s.inbox := rfl
@[simp] theorem setPhase_busy (p : Phase) (s : State) : (setPhase p s).busy = s.busy := rfl
@[simp] theorem setPhase_link (p : Phase) (s : State) : (setPhase p s).link = s.link := rfl
@[simp] theorem setPhase_draws (p : Phase) (s : State) : (setPhase p s).draws = s.draws := rfl

/-! ### setSeq -/

@[simp] theorem setSeq_rst (p : Seq) (s : State) : (setSeq p s).rst = s.rst := rfl
@[simp] theorem setSeq_dc (p : Seq) (s : State) : (setSeq p s).dc = s.dc := rfl
@[simp] theorem setSeq_cs (p : Seq) (s : State) : (setSeq p s).cs = s.cs := rfl
@[simp] theorem setSeq_acc (p : Seq) (s : State) : (setSeq p s).acc = s.acc := rfl
@[simp] theorem setSeq_i (p : Seq) (s : State) : (setSeq p s).i = s.i := rfl
@[simp] theorem setSeq_j (p : Seq) (s : State) : (setSeq p s).j = s.j := rfl
@[simp] theorem setSeq_k (p : Seq) (s : State) : (setSeq p s).k = s.k := rfl
@[simp] theorem setSeq_pb (p : Seq) (s : State) : (setSeq p s).pb = s.pb := rfl
@[simp] theorem setSeq_seq (p : Seq) (s : State) : (setSeq p s).seq = p := rfl
@[simp] theorem setSeq_haltedAt (p : Seq) (s : State) : (setSeq p s).haltedAt = s.haltedAt := rfl
@[simp] theorem setSeq_opened (p : Seq) (s : State) : (setSeq p s).opened = s.opened := rfl
@[simp] theorem setSeq_torn (p : Seq) (s : State) : (setSeq p s).torn = s.torn := rfl
@[simp] theorem setSeq_fatal (p : Seq) (s : State) : (setSeq p s).fatal = s.fatal := rfl
@[simp] theorem setSeq_err (p : Seq) (s : State) : (setSeq p s).err = s.err := rfl
@[simp] theorem setSeq_phase (p : Seq) (s : State) : (setSeq p s).phase = s.phase := rfl
@[simp] theorem setSeq_violation (p : Seq) (s : State) : (setSeq p s).violation = s.violation := rfl
@[simp] theorem setSeq_trace (p : Seq) (s : State) : (setSeq p s).trace = s.trace := rfl
@[simp] theorem setSeq_polls (p : Seq) (s : State) : (setSeq p s).polls = s.polls := rfl
@[simp] theorem setSeq_waiting (p : Seq) (s : State) : (setSeq p s).waiting = s.waiting := rfl
@[simp] theorem setSeq_cfg (p : Seq) (s : State) : (setSeq p s).cfg = s.cfg := rfl
@[simp] theorem setSeq_inbox (p : Seq) (s : State) : (setSeq p s).inbox = s.inbox := rfl
@[simp] theorem setSeq_busy (p : Seq) (s : State) : (setSeq p s).busy = s.busy := rfl
@[simp] theorem setSeq_link (p : Seq) (s : State) : (setSeq p s).link = s.link := rfl
@[simp] theorem setSeq_draws (p : Seq) (s : State) : (setSeq p s).draws = s.draws := rfl

/-! ### endOp -/

@[simp] theorem endOp_rst (s : State) : (endOp s).rst = s.rst := rfl
@[simp] theorem endOp_dc (s : State) : (endOp s).dc = s.dc := rfl
@[simp] theorem endOp_cs (s : State) : (endOp s).cs = s.cs := rfl
@[simp] theorem endOp_acc (s : State) : (endOp s).acc = s.acc := rfl
@[simp] theorem endOp_i (s : State) : (endOp s).i = s.i := rfl
@[simp] theorem endOp_j (s : State) : (endOp s).j = s.j := rfl
@[simp] theorem endOp_k (s : State) : (endOp s).k = s.k := rfl
@[simp] theorem endOp_pb (s : State) : (endOp s).pb = s.pb := rfl
@[simp] theorem endOp_seq (s : State) : (endOp s).seq = if s.fatal then .halted else .idle := rfl
@[simp] theorem endOp_haltedAt (s : State) : (endOp s).haltedAt = s.haltedAt := rfl
@[simp] theorem endOp_opened (s : State) : (endOp s).opened = s.opened := rfl
@[simp] theorem endOp_torn (s : State) : (endOp s).torn = s.torn := rfl
@[simp] theorem endOp_fatal (s : State) : (endOp s).fatal = s.fatal := rfl
@[simp] theorem endOp_err (s : State) : (endOp s).err = s.err := rfl
@[simp] theorem endOp_phase (s : State) : (endOp s).phase = s.phase := rfl
@[simp] theorem endOp_violation (s : State) : (endOp s).violation = s.violation := rfl
@[simp] theorem endOp_trace (s : State) : (endOp s).trace = s.trace := rfl
@[simp] theorem endOp_polls (s : State) : (endOp s).polls = s.polls := rfl
@[simp] theorem endOp_waiting (s : State) : (endOp s).waiting = s.waiting := rfl
@[simp] theorem endOp_cfg (s : State) : (endOp s).cfg = s.cfg := rfl
@[simp] theorem endOp_inbox (s : State) : (endOp s).inbox = s.inbox := rfl
@[simp] theorem endOp_busy (s : State) : (endOp s).busy = s.busy := rfl
@[simp] theorem endOp_link (s : State) : (endOp s).link = s.link := rfl
@[simp] theorem endOp_draws (s : State) : (endOp s).draws = s.draws := rfl

/-! ### forgetCounters -/

@[simp] theorem forgetCounters_rst (s : State) : (forgetCounters s).rst = s.rst := rfl
@[simp] theorem forgetCounters_dc (s : State) : (forgetCounters s).dc = s.dc := rfl
@[simp] theorem forgetCounters_cs (s : State) : (forgetCounters s).cs = s.cs := rfl
@[simp] theorem forgetCounters_acc (s : State) : (forgetCounters s).acc = s.acc := rfl
@[simp] theorem forgetCounters_i (s : State) : (forgetCounters s).i = Config.freeColumn s.draws % s.cfg.width := rfl
@[simp] theorem forgetCounters_j (s : State) : (forgetCounters s).j = Config.freeRow s.draws % s.cfg.height := rfl
@[simp] theorem forgetCounters_k (s : State) : (forgetCounters s).k = s.k := rfl
@[simp] theorem forgetCounters_pb (s : State) : (forgetCounters s).pb = s.pb := rfl
@[simp] theorem forgetCounters_seq (s : State) : (forgetCounters s).seq = s.seq := rfl
@[simp] theorem forgetCounters_haltedAt (s : State) : (forgetCounters s).haltedAt = s.haltedAt := rfl
@[simp] theorem forgetCounters_opened (s : State) : (forgetCounters s).opened = s.opened := rfl
@[simp] theorem forgetCounters_torn (s : State) : (forgetCounters s).torn = s.torn := rfl
@[simp] theorem forgetCounters_fatal (s : State) : (forgetCounters s).fatal = s.fatal := rfl
@[simp] theorem forgetCounters_err (s : State) : (forgetCounters s).err = s.err := rfl
@[simp] theorem forgetCounters_phase (s : State) : (forgetCounters s).phase = s.phase := rfl
@[simp] theorem forgetCounters_violation (s : State) : (forgetCounters s).violation = s.violation := rfl
@[simp] theorem forgetCounters_trace (s : State) : (forgetCounters s).trace = s.trace := rfl
@[simp] theorem forgetCounters_polls (s : State) : (forgetCounters s).polls = s.polls := rfl
@[simp] theorem forgetCounters_waiting (s : State) : (forgetCounters s).waiting = s.waiting := rfl
@[simp] theorem forgetCounters_cfg (s : State) : (forgetCounters s).cfg = s.cfg := rfl
@[simp] theorem forgetCounters_inbox (s : State) : (forgetCounters s).inbox = s.inbox := rfl
@[simp] theorem forgetCounters_busy (s : State) : (forgetCounters s).busy = s.busy := rfl
@[simp] theorem forgetCounters_link (s : State) : (forgetCounters s).link = s.link := rfl
@[simp] theorem forgetCounters_draws (s : State) : (forgetCounters s).draws = s.draws + 1 := rfl

/-! ### performed -/

@[simp] theorem performed_rst (s : State) (es : List Event) : (s.performed es).rst = latchAfter .rst es s.rst := rfl
@[simp] theorem performed_dc (s : State) (es : List Event) : (s.performed es).dc = latchAfter .dc es s.dc := rfl
@[simp] theorem performed_cs (s : State) (es : List Event) : (s.performed es).cs = latchAfter .cs es s.cs := rfl
@[simp] theorem performed_acc (s : State) (es : List Event) : (s.performed es).acc = s.acc := rfl
@[simp] theorem performed_i (s : State) (es : List Event) : (s.performed es).i = s.i := rfl
@[simp] theorem performed_j (s : State) (es : List Event) : (s.performed es).j = s.j := rfl
@[simp] theorem performed_k (s : State) (es : List Event) : (s.performed es).k = s.k := rfl
@[simp] theorem performed_pb (s : State) (es : List Event) : (s.performed es).pb = s.pb := rfl
@[simp] theorem performed_seq (s : State) (es : List Event) : (s.performed es).seq = s.seq := rfl
@[simp] theorem performed_haltedAt (s : State) (es : List Event) : (s.performed es).haltedAt = s.haltedAt := rfl
@[simp] theorem performed_opened (s : State) (es : List Event) : (s.performed es).opened = s.opened := rfl
@[simp] theorem performed_torn (s : State) (es : List Event) : (s.performed es).torn = s.torn := rfl
@[simp] theorem performed_fatal (s : State) (es : List Event) : (s.performed es).fatal = s.fatal := rfl
@[simp] theorem performed_err (s : State) (es : List Event) : (s.performed es).err = s.err := rfl
@[simp] theorem performed_phase (s : State) (es : List Event) : (s.performed es).phase = s.phase := rfl
@[simp] theorem performed_violation (s : State) (es : List Event) : (s.performed es).violation = s.violation := rfl
@[simp] theorem performed_trace (s : State) (es : List Event) : (s.performed es).trace = es.reverse ++ s.trace := rfl
@[simp] theorem performed_polls (s : State) (es : List Event) : (s.performed es).polls = s.polls := rfl
@[simp] theorem performed_waiting (s : State) (es : List Event) : (s.performed es).waiting = s.waiting := rfl
@[simp] theorem performed_cfg (s : State) (es : List Event) : (s.performed es).cfg = s.cfg := rfl
@[simp] theorem performed_inbox (s : State) (es : List Event) : (s.performed es).inbox = s.inbox := rfl
@[simp] theorem performed_busy (s : State) (es : List Event) : (s.performed es).busy = s.busy.skip (es.countP Event.isPoll) := rfl
@[simp] theorem performed_link (s : State) (es : List Event) : (s.performed es).link = s.link.skip (es.countP Event.asksLink) := rfl
@[simp] theorem performed_draws (s : State) (es : List Event) : (s.performed es).draws = s.draws := rfl

/-! ### setLatch and driveLine -/

@[simp] theorem setLatch_rst_rst (l : Level) (s : State) : (setLatch .rst l s).rst = .driven l := rfl
@[simp] theorem setLatch_rst_dc (l : Level) (s : State) : (setLatch .rst l s).dc = s.dc := rfl
@[simp] theorem setLatch_rst_cs (l : Level) (s : State) : (setLatch .rst l s).cs = s.cs := rfl
@[simp] theorem setLatch_rst_acc (l : Level) (s : State) : (setLatch .rst l s).acc = s.acc := rfl
@[simp] theorem setLatch_rst_i (l : Level) (s : State) : (setLatch .rst l s).i = s.i := rfl
@[simp] theorem setLatch_rst_j (l : Level) (s : State) : (setLatch .rst l s).j = s.j := rfl
@[simp] theorem setLatch_rst_k (l : Level) (s : State) : (setLatch .rst l s).k = s.k := rfl
@[simp] theorem setLatch_rst_pb (l : Level) (s : State) : (setLatch .rst l s).pb = s.pb := rfl
@[simp] theorem setLatch_rst_seq (l : Level) (s : State) : (setLatch .rst l s).seq = s.seq := rfl
@[simp] theorem setLatch_rst_haltedAt (l : Level) (s : State) : (setLatch .rst l s).haltedAt = s.haltedAt := rfl
@[simp] theorem setLatch_rst_opened (l : Level) (s : State) : (setLatch .rst l s).opened = s.opened := rfl
@[simp] theorem setLatch_rst_torn (l : Level) (s : State) : (setLatch .rst l s).torn = s.torn := rfl
@[simp] theorem setLatch_rst_fatal (l : Level) (s : State) : (setLatch .rst l s).fatal = s.fatal := rfl
@[simp] theorem setLatch_rst_err (l : Level) (s : State) : (setLatch .rst l s).err = s.err := rfl
@[simp] theorem setLatch_rst_phase (l : Level) (s : State) : (setLatch .rst l s).phase = s.phase := rfl
@[simp] theorem setLatch_rst_violation (l : Level) (s : State) : (setLatch .rst l s).violation = s.violation := rfl
@[simp] theorem setLatch_rst_trace (l : Level) (s : State) : (setLatch .rst l s).trace = s.trace := rfl
@[simp] theorem setLatch_rst_polls (l : Level) (s : State) : (setLatch .rst l s).polls = s.polls := rfl
@[simp] theorem setLatch_rst_waiting (l : Level) (s : State) : (setLatch .rst l s).waiting = s.waiting := rfl
@[simp] theorem setLatch_rst_cfg (l : Level) (s : State) : (setLatch .rst l s).cfg = s.cfg := rfl
@[simp] theorem setLatch_rst_inbox (l : Level) (s : State) : (setLatch .rst l s).inbox = s.inbox := rfl
@[simp] theorem setLatch_rst_busy (l : Level) (s : State) : (setLatch .rst l s).busy = s.busy := rfl
@[simp] theorem setLatch_rst_link (l : Level) (s : State) : (setLatch .rst l s).link = s.link := rfl
@[simp] theorem setLatch_rst_draws (l : Level) (s : State) : (setLatch .rst l s).draws = s.draws := rfl
@[simp] theorem setLatch_dc_rst (l : Level) (s : State) : (setLatch .dc l s).rst = s.rst := rfl
@[simp] theorem setLatch_dc_dc (l : Level) (s : State) : (setLatch .dc l s).dc = .driven l := rfl
@[simp] theorem setLatch_dc_cs (l : Level) (s : State) : (setLatch .dc l s).cs = s.cs := rfl
@[simp] theorem setLatch_dc_acc (l : Level) (s : State) : (setLatch .dc l s).acc = s.acc := rfl
@[simp] theorem setLatch_dc_i (l : Level) (s : State) : (setLatch .dc l s).i = s.i := rfl
@[simp] theorem setLatch_dc_j (l : Level) (s : State) : (setLatch .dc l s).j = s.j := rfl
@[simp] theorem setLatch_dc_k (l : Level) (s : State) : (setLatch .dc l s).k = s.k := rfl
@[simp] theorem setLatch_dc_pb (l : Level) (s : State) : (setLatch .dc l s).pb = s.pb := rfl
@[simp] theorem setLatch_dc_seq (l : Level) (s : State) : (setLatch .dc l s).seq = s.seq := rfl
@[simp] theorem setLatch_dc_haltedAt (l : Level) (s : State) : (setLatch .dc l s).haltedAt = s.haltedAt := rfl
@[simp] theorem setLatch_dc_opened (l : Level) (s : State) : (setLatch .dc l s).opened = s.opened := rfl
@[simp] theorem setLatch_dc_torn (l : Level) (s : State) : (setLatch .dc l s).torn = s.torn := rfl
@[simp] theorem setLatch_dc_fatal (l : Level) (s : State) : (setLatch .dc l s).fatal = s.fatal := rfl
@[simp] theorem setLatch_dc_err (l : Level) (s : State) : (setLatch .dc l s).err = s.err := rfl
@[simp] theorem setLatch_dc_phase (l : Level) (s : State) : (setLatch .dc l s).phase = s.phase := rfl
@[simp] theorem setLatch_dc_violation (l : Level) (s : State) : (setLatch .dc l s).violation = s.violation := rfl
@[simp] theorem setLatch_dc_trace (l : Level) (s : State) : (setLatch .dc l s).trace = s.trace := rfl
@[simp] theorem setLatch_dc_polls (l : Level) (s : State) : (setLatch .dc l s).polls = s.polls := rfl
@[simp] theorem setLatch_dc_waiting (l : Level) (s : State) : (setLatch .dc l s).waiting = s.waiting := rfl
@[simp] theorem setLatch_dc_cfg (l : Level) (s : State) : (setLatch .dc l s).cfg = s.cfg := rfl
@[simp] theorem setLatch_dc_inbox (l : Level) (s : State) : (setLatch .dc l s).inbox = s.inbox := rfl
@[simp] theorem setLatch_dc_busy (l : Level) (s : State) : (setLatch .dc l s).busy = s.busy := rfl
@[simp] theorem setLatch_dc_link (l : Level) (s : State) : (setLatch .dc l s).link = s.link := rfl
@[simp] theorem setLatch_dc_draws (l : Level) (s : State) : (setLatch .dc l s).draws = s.draws := rfl
@[simp] theorem setLatch_cs_rst (l : Level) (s : State) : (setLatch .cs l s).rst = s.rst := rfl
@[simp] theorem setLatch_cs_dc (l : Level) (s : State) : (setLatch .cs l s).dc = s.dc := rfl
@[simp] theorem setLatch_cs_cs (l : Level) (s : State) : (setLatch .cs l s).cs = .driven l := rfl
@[simp] theorem setLatch_cs_acc (l : Level) (s : State) : (setLatch .cs l s).acc = s.acc := rfl
@[simp] theorem setLatch_cs_i (l : Level) (s : State) : (setLatch .cs l s).i = s.i := rfl
@[simp] theorem setLatch_cs_j (l : Level) (s : State) : (setLatch .cs l s).j = s.j := rfl
@[simp] theorem setLatch_cs_k (l : Level) (s : State) : (setLatch .cs l s).k = s.k := rfl
@[simp] theorem setLatch_cs_pb (l : Level) (s : State) : (setLatch .cs l s).pb = s.pb := rfl
@[simp] theorem setLatch_cs_seq (l : Level) (s : State) : (setLatch .cs l s).seq = s.seq := rfl
@[simp] theorem setLatch_cs_haltedAt (l : Level) (s : State) : (setLatch .cs l s).haltedAt = s.haltedAt := rfl
@[simp] theorem setLatch_cs_opened (l : Level) (s : State) : (setLatch .cs l s).opened = s.opened := rfl
@[simp] theorem setLatch_cs_torn (l : Level) (s : State) : (setLatch .cs l s).torn = s.torn := rfl
@[simp] theorem setLatch_cs_fatal (l : Level) (s : State) : (setLatch .cs l s).fatal = s.fatal := rfl
@[simp] theorem setLatch_cs_err (l : Level) (s : State) : (setLatch .cs l s).err = s.err := rfl
@[simp] theorem setLatch_cs_phase (l : Level) (s : State) : (setLatch .cs l s).phase = s.phase := rfl
@[simp] theorem setLatch_cs_violation (l : Level) (s : State) : (setLatch .cs l s).violation = s.violation := rfl
@[simp] theorem setLatch_cs_trace (l : Level) (s : State) : (setLatch .cs l s).trace = s.trace := rfl
@[simp] theorem setLatch_cs_polls (l : Level) (s : State) : (setLatch .cs l s).polls = s.polls := rfl
@[simp] theorem setLatch_cs_waiting (l : Level) (s : State) : (setLatch .cs l s).waiting = s.waiting := rfl
@[simp] theorem setLatch_cs_cfg (l : Level) (s : State) : (setLatch .cs l s).cfg = s.cfg := rfl
@[simp] theorem setLatch_cs_inbox (l : Level) (s : State) : (setLatch .cs l s).inbox = s.inbox := rfl
@[simp] theorem setLatch_cs_busy (l : Level) (s : State) : (setLatch .cs l s).busy = s.busy := rfl
@[simp] theorem setLatch_cs_link (l : Level) (s : State) : (setLatch .cs l s).link = s.link := rfl
@[simp] theorem setLatch_cs_draws (l : Level) (s : State) : (setLatch .cs l s).draws = s.draws := rfl
@[simp] theorem driveLine_acc (line : Line) (l : Level) (s : State) : (driveLine line l s).acc = s.acc := by
  cases line <;> rfl
@[simp] theorem driveLine_i (line : Line) (l : Level) (s : State) : (driveLine line l s).i = s.i := by
  cases line <;> rfl
@[simp] theorem driveLine_j (line : Line) (l : Level) (s : State) : (driveLine line l s).j = s.j := by
  cases line <;> rfl
@[simp] theorem driveLine_k (line : Line) (l : Level) (s : State) : (driveLine line l s).k = s.k := by
  cases line <;> rfl
@[simp] theorem driveLine_pb (line : Line) (l : Level) (s : State) : (driveLine line l s).pb = s.pb := by
  cases line <;> rfl
@[simp] theorem driveLine_seq (line : Line) (l : Level) (s : State) : (driveLine line l s).seq = s.seq := by
  cases line <;> rfl
@[simp] theorem driveLine_haltedAt (line : Line) (l : Level) (s : State) : (driveLine line l s).haltedAt = s.haltedAt := by
  cases line <;> rfl
@[simp] theorem driveLine_opened (line : Line) (l : Level) (s : State) : (driveLine line l s).opened = s.opened := by
  cases line <;> rfl
@[simp] theorem driveLine_torn (line : Line) (l : Level) (s : State) : (driveLine line l s).torn = s.torn := by
  cases line <;> rfl
@[simp] theorem driveLine_fatal (line : Line) (l : Level) (s : State) : (driveLine line l s).fatal = s.fatal := by
  cases line <;> rfl
@[simp] theorem driveLine_err (line : Line) (l : Level) (s : State) : (driveLine line l s).err = s.err := by
  cases line <;> rfl
@[simp] theorem driveLine_phase (line : Line) (l : Level) (s : State) : (driveLine line l s).phase = s.phase := by
  cases line <;> rfl
@[simp] theorem driveLine_violation (line : Line) (l : Level) (s : State) : (driveLine line l s).violation = s.violation := by
  cases line <;> rfl
@[simp] theorem driveLine_trace (line : Line) (l : Level) (s : State) : (driveLine line l s).trace = .setLine line l :: s.trace := by
  cases line <;> rfl
@[simp] theorem driveLine_polls (line : Line) (l : Level) (s : State) : (driveLine line l s).polls = s.polls := by
  cases line <;> rfl
@[simp] theorem driveLine_waiting (line : Line) (l : Level) (s : State) : (driveLine line l s).waiting = s.waiting := by
  cases line <;> rfl
@[simp] theorem driveLine_cfg (line : Line) (l : Level) (s : State) : (driveLine line l s).cfg = s.cfg := by
  cases line <;> rfl
@[simp] theorem driveLine_inbox (line : Line) (l : Level) (s : State) : (driveLine line l s).inbox = s.inbox := by
  cases line <;> rfl
@[simp] theorem driveLine_busy (line : Line) (l : Level) (s : State) : (driveLine line l s).busy = s.busy := by
  cases line <;> rfl
@[simp] theorem driveLine_link (line : Line) (l : Level) (s : State) : (driveLine line l s).link = s.link := by
  cases line <;> rfl
@[simp] theorem driveLine_draws (line : Line) (l : Level) (s : State) : (driveLine line l s).draws = s.draws := by
  cases line <;> rfl
@[simp] theorem driveLine_rst_rst (l : Level) (s : State) : (driveLine .rst l s).rst = .driven l := rfl
@[simp] theorem driveLine_rst_dc (l : Level) (s : State) : (driveLine .rst l s).dc = s.dc := rfl
@[simp] theorem driveLine_rst_cs (l : Level) (s : State) : (driveLine .rst l s).cs = s.cs := rfl
@[simp] theorem driveLine_dc_rst (l : Level) (s : State) : (driveLine .dc l s).rst = s.rst := rfl
@[simp] theorem driveLine_dc_dc (l : Level) (s : State) : (driveLine .dc l s).dc = .driven l := rfl
@[simp] theorem driveLine_dc_cs (l : Level) (s : State) : (driveLine .dc l s).cs = s.cs := rfl
@[simp] theorem driveLine_cs_rst (l : Level) (s : State) : (driveLine .cs l s).rst = s.rst := rfl
@[simp] theorem driveLine_cs_dc (l : Level) (s : State) : (driveLine .cs l s).dc = s.dc := rfl
@[simp] theorem driveLine_cs_cs (l : Level) (s : State) : (driveLine .cs l s).cs = .driven l := rfl

end Sys2Proof.Machine
end

