-- ==== Sys2Proof/Laws/Ops.lean ====
section
/-! SUPPORT. One lemma per shared operation: what it can do. -/

namespace Sys2Proof.Machine

/-! ### Oracles -/

@[simp] theorem Oracle.skip_zero {α : Type} (o : Oracle α) : o.skip 0 = o := rfl

@[simp] theorem Oracle.skip_skip {α : Type} (o : Oracle α) (m n : Nat) : (o.skip m).skip n = o.skip (m + n) := by
  simp [Oracle.skip, List.drop_drop]

@[simp] theorem Oracle.get_skip {α : Type} (o : Oracle α) (m n : Nat) : (o.skip m).get n = o.get (m + n) := by
  simp [Oracle.get]

@[simp] theorem Oracle.head_skip {α : Type} (o : Oracle α) (n : Nat) : (o.skip n).head = o.get n := rfl

theorem Oracle.head_eq_get {α : Type} (o : Oracle α) : o.head = o.get 0 := rfl

theorem Oracle.get_of_length_le {α : Type} (o : Oracle α) (n : Nat) (h : o.listed.length ≤ n) : o.get n = o.rest := by
  simp [Oracle.get, Oracle.head, Oracle.skip, List.drop_eq_nil_of_le h]

@[simp] theorem Oracle.skip_listed {α : Type} (o : Oracle α) (n : Nat) :
    (o.skip n).listed = o.listed.drop n := rfl

@[simp] theorem Oracle.skip_rest {α : Type} (o : Oracle α) (n : Nat) : (o.skip n).rest = o.rest := rfl

/-! ### Flow -/

@[simp] theorem Flow.done_andThen (s : State) (f : State → Flow) : (Flow.done s).andThen f = f s := rfl
@[simp] theorem Flow.trapped_andThen (s : State) (f : State → Flow) : (Flow.trapped s).andThen f = .trapped s := rfl
@[simp] theorem Flow.waits_andThen (s : State) (f : State → Flow) : (Flow.waits s).andThen f = .waits s := rfl
@[simp] theorem Flow.fault_andThen (e : Fault) (f : State → Flow) : (Flow.fault e).andThen f = .fault e := rfl
@[simp] theorem Flow.done_outcome (s : State) : (Flow.done s).outcome = .next s := rfl
@[simp] theorem Flow.trapped_outcome (s : State) : (Flow.trapped s).outcome = .next s := rfl
@[simp] theorem Flow.waits_outcome (s : State) : (Flow.waits s).outcome = .next s := rfl
@[simp] theorem Flow.fault_outcome (e : Fault) : (Flow.fault e).outcome = .fault e := rfl

theorem Flow.andThen_assoc (x : Flow) (f g : State → Flow) :
    (x.andThen f).andThen g = x.andThen fun s => (f s).andThen g := by
  cases x <;> rfl

@[simp] theorem Flow.andThen_done (x : Flow) : x.andThen Flow.done = x := by
  cases x <;> rfl

/-- Inversion of a sequence: where it stops, and with what. -/
theorem Flow.andThen_eq_done {x : Flow} {f : State → Flow} {t : State} :
    x.andThen f = .done t ↔ ∃ s, x = .done s ∧ f s = .done t := by
  cases x <;> simp

/-- The state a flow leaves; none for a fault. -/
def Flow.state? : Flow → Option State
  | .done s => some s
  | .trapped s => some s
  | .waits s => some s
  | .fault _ => none

theorem Flow.outcome_eq_next {x : Flow} {t : State} : x.outcome = .next t ↔ x.state? = some t := by
  cases x <;> simp [Flow.outcome, Flow.state?]

/-- A property of the way a flow ends. -/
def Flow.Ends (x : Flow) (done stopped : State → Prop) : Prop :=
  match x with
  | .done s => done s
  | .trapped s => stopped s
  | .waits s => stopped s
  | .fault _ => False

/-! ### Loops -/

@[simp] theorem forFrom_zero (a : Nat) (f : Nat → State → Flow) (s : State) : forFrom a 0 f s = .done s := rfl

theorem forFrom_succ (a n : Nat) (f : Nat → State → Flow) (s : State) :
    forFrom a (n + 1) f s = (f a s).andThen (forFrom (a + 1) n f) := rfl

/-- A loop all of whose turns run to their end, by an invariant indexed by the counter. -/
theorem forFrom_done {P : Nat → State → Prop} {f : Nat → State → Flow} (n : Nat) :
    ∀ (a : Nat) (s : State), P a s →
      (∀ m s, a ≤ m → m < a + n → P m s → ∃ t, f m s = .done t ∧ P (m + 1) t) →
      ∃ t, forFrom a n f s = .done t ∧ P (a + n) t := by
  induction n with
  | zero => intro a s h _; exact ⟨s, rfl, h⟩
  | succ n ih =>
    intro a s h step
    obtain ⟨t, ht, hp⟩ := step a s (Nat.le_refl a) (by omega) h
    obtain ⟨u, hu, hq⟩ := ih (a + 1) t hp fun m s h1 h2 hm => step m s (by omega) (by omega) hm
    exact ⟨u, by simp [forFrom_succ, ht, hu], by rwa [show a + (n + 1) = a + 1 + n by omega]⟩

/-- The last turn of a loop comes after the others. -/
theorem forFrom_succ_last (n : Nat) : ∀ (a : Nat) (f : Nat → State → Flow) (s : State),
    forFrom a (n + 1) f s = (forFrom a n f s).andThen (f (a + n)) := by
  induction n with
  | zero =>
    intro a f s
    show (f a s).andThen _ = f (a + 0) s
    rw [Nat.add_zero]
    cases f a s <;> rfl
  | succ n ih =>
    intro a f s
    rw [forFrom_succ, forFrom_succ, Flow.andThen_assoc]
    congr 1
    funext s
    rw [ih, show a + 1 + n = a + (n + 1) by omega]

/-! ### Latches over events -/

@[simp] theorem latchAfter_append (line : Line) (es fs : List Event) :
    ∀ l, latchAfter line (es ++ fs) l = latchAfter line fs (latchAfter line es l) := by
  induction es with
  | nil => intro l; rfl
  | cons e es ih => intro l; cases e <;> simp [latchAfter, ih]

/-! ### Performed events -/

@[simp] theorem performed_nil (s : State) : s.performed [] = s := by
  cases s; rfl

theorem performed_append (s : State) (es fs : List Event) :
    (s.performed es).performed fs = s.performed (es ++ fs) := by
  cases s
  simp [State.performed, latchAfter_append]

theorem performed_cons (s : State) (e : Event) (es : List Event) :
    s.performed (e :: es) = (s.performed [e]).performed es := by
  rw [performed_append]; rfl

@[simp] theorem performed_T (s : State) (es : List Event) : (s.performed es).T = s.T ++ es := by
  simp [State.T]

theorem driveLine_eq_performed (line : Line) (l : Level) (s : State) :
    driveLine line l s = s.performed [.setLine line l] := by
  cases s; cases line <;> rfl

theorem sleepFor_eq_performed (ms : Nat) (s : State) : sleepFor ms s = s.performed [.sleepFor ms] := by
  cases s; rfl

theorem transmitByte_of_ok {s : State} (v : Byte) (h : s.link.get 0 = .ok) :
    transmitByte v s = .done (s.performed [.transmit v .ok]) := by
  rw [transmitByte, Oracle.head_eq_get, h]
  cases s; rfl

theorem transmitByte_of_fail {s : State} (v : Byte) (h : s.link.get 0 = .fail) :
    transmitByte v s = .trapped (takeFatal .transmitFailure (s.performed [.transmit v .fail])) := by
  rw [transmitByte, Oracle.head_eq_get, h]
  cases s; rfl

theorem openBus_of_ok {s : State} (h : s.link.get 0 = .ok) :
    openBus s = .done (s.performed [.openBus .ok]) := by
  rw [openBus, Oracle.head_eq_get, h]
  cases s; rfl

theorem openBus_of_fail {s : State} (h : s.link.get 0 = .fail) :
    openBus s = .trapped (takeFatal .setupFailure (s.performed [.openBus .fail])) := by
  rw [openBus, Oracle.head_eq_get, h]
  cases s; rfl

theorem pollBusy_eq_performed (s : State) :
    pollBusy s = { s.performed [.readBusy s.busy.head] with polls := s.polls + 1 } := by
  cases s; rfl

/-! ### Frames -/

/-- A frame whose byte is transmitted. -/
theorem frame_of_ok {s : State} (mode : Level) (v : Byte) (h : s.link.get 0 = .ok) :
    frame mode v s = .done (s.performed (Script.frame mode v)) := by
  rw [frame, driveLine_eq_performed, driveLine_eq_performed, performed_append,
    transmitByte_of_ok v (by simpa [List.countP_cons, Event.asksLink] using h), Flow.done_andThen, driveLine_eq_performed,
    performed_append, performed_append]
  rfl

/-- A frame whose byte is not: the chip-select line stays low. -/
theorem frame_of_fail {s : State} (mode : Level) (v : Byte) (h : s.link.get 0 = .fail) :
    frame mode v s = .trapped (takeFatal .transmitFailure
      (s.performed [.setLine .dc mode, .setLine .cs .low, .transmit v .fail])) := by
  rw [frame, driveLine_eq_performed, driveLine_eq_performed, performed_append,
    transmitByte_of_fail v (by simpa [List.countP_cons, Event.asksLink] using h), Flow.trapped_andThen, performed_append]
  rfl

/-- The two ways a frame ends. -/
theorem frame_cases (mode : Level) (v : Byte) (s : State) :
    frame mode v s = .done (s.performed (Script.frame mode v)) ∨
      frame mode v s = .trapped (takeFatal .transmitFailure
        (s.performed [.setLine .dc mode, .setLine .cs .low, .transmit v .fail])) := by
  cases h : s.link.get 0 with
  | ok => exact .inl (frame_of_ok mode v h)
  | fail => exact .inr (frame_of_fail mode v h)

@[simp] theorem frame_asksLink (mode : Level) (v : Byte) : (Script.frame mode v).countP Event.asksLink = 1 := rfl
@[simp] theorem frame_isPoll (mode : Level) (v : Byte) : (Script.frame mode v).countP Event.isPoll = 0 := rfl

@[simp] theorem data_nil : Script.data [] = [] := rfl
theorem data_cons (v : Byte) (vs : List Byte) : Script.data (v :: vs) = Script.frame .high v ++ Script.data vs := rfl

@[simp] theorem data_append (vs ws : List Byte) : Script.data (vs ++ ws) = Script.data vs ++ Script.data ws := by
  simp [Script.data]

@[simp] theorem data_asksLink (vs : List Byte) : (Script.data vs).countP Event.asksLink = vs.length := by
  induction vs with
  | nil => rfl
  | cons v vs ih => simp [data_cons, List.countP_append, ih]; omega

@[simp] theorem data_isPoll (vs : List Byte) : (Script.data vs).countP Event.isPoll = 0 := by
  induction vs with
  | nil => rfl
  | cons v vs ih => rw [data_cons, List.countP_append, ih, frame_isPoll]

theorem linkOk_mono {s : State} {m n : Nat} (h : s.linkOk n) (hm : m ≤ n) : s.linkOk m :=
  fun i hi => h i (by omega)

/-- After events that ask the transport `m` times, the rest of its `ok` answers remain. -/
theorem linkOk_performed {s : State} {es : List Event} {n : Nat}
    (h : s.linkOk (es.countP Event.asksLink + n)) : (s.performed es).linkOk n := by
  intro i hi
  simpa using h (es.countP Event.asksLink + i) (by omega)

theorem sendAll_of_ok : ∀ (vs : List Byte) {s : State}, s.linkOk vs.length →
    sendAll vs s = .done (s.performed (Script.data vs))
  | [], s, _ => by simp [sendAll]
  | v :: vs, s, h => by
    have h0 : s.link.get 0 = .ok := h 0 (by simp)
    have h1 : (s.performed (Script.frame .high v)).linkOk vs.length :=
      linkOk_performed (by simpa [Nat.add_comm] using h)
    rw [sendAll, sendData, frame_of_ok _ _ h0, Flow.done_andThen, sendAll_of_ok vs h1, performed_append, data_cons]

/-! ### The plane buffer -/

theorem Memory.find_write_same (a : Nat) (v : Byte) : ∀ m : Memory, (m.write a v).find a = some v
  | [] => by simp [Memory.write, Memory.find]
  | (b, w) :: m => by
    simp only [Memory.write]
    split
    · simp [Memory.find]
    · split
      · simp [Memory.find]
      · next h => simp [Memory.find, Ne.symm h, Memory.find_write_same a v m]

theorem Memory.find_write_other {a b : Nat} (h : b ≠ a) (v : Byte) : ∀ m : Memory, (m.write a v).find b = m.find b
  | [] => by simp [Memory.write, Memory.find, Ne.symm h]
  | (c, w) :: m => by
    simp only [Memory.write]
    split
    · simp [Memory.find, Ne.symm h]
    · split
      · next hc => subst hc; simp [Memory.find, Ne.symm h]
      · simp [Memory.find, Memory.find_write_other h v m]

theorem Memory.byteAt_write_same (m : Memory) (a : Nat) (v : Byte) : (m.write a v).byteAt a = v := by
  simp [Memory.byteAt, Memory.find_write_same]

theorem Memory.byteAt_write_other (m : Memory) {a b : Nat} (h : b ≠ a) (v : Byte) :
    (m.write a v).byteAt b = m.byteAt b := by
  simp [Memory.byteAt, Memory.find_write_other h]

/-- The indices after a write are those before and the one written. -/
theorem Memory.mem_keys_write (a : Nat) (v : Byte) : ∀ (m : Memory) (x : Nat),
    x ∈ (m.write a v).map Prod.fst → x = a ∨ x ∈ m.map Prod.fst
  | [], x => by simp [Memory.write]
  | (b, w) :: m, x => by
    simp only [Memory.write]
    split
    · simp
    · split
      · next h => subst h; simp
      · intro hx
        simp only [List.map_cons, List.mem_cons] at hx ⊢
        rcases hx with hx | hx
        · exact .inr (.inl hx)
        · rcases Memory.mem_keys_write a v m x hx with h | h
          · exact .inl h
          · exact .inr (.inr h)

/-- A write keeps the canonical form. -/
theorem Memory.wf_write (a : Nat) (v : Byte) : ∀ m : Memory, m.wf → (m.write a v).wf
  | [], _ => by simp [Memory.write, Memory.wf]
  | (b, w) :: m, h => by
    have hb := (List.pairwise_cons.mp h)
    simp only [Memory.write]
    split
    · next hlt =>
      refine List.pairwise_cons.mpr ⟨?_, h⟩
      intro x hx
      simp only [List.map_cons, List.mem_cons] at hx
      rcases hx with hx | hx
      · omega
      · have := hb.1 x hx; simp at this; omega
    · split
      · next hab => subst hab; exact h
      · next h1 h2 =>
        refine List.pairwise_cons.mpr ⟨?_, Memory.wf_write a v m hb.2⟩
        intro x hx
        rcases Memory.mem_keys_write a v m x hx with hx | hx
        · simp; omega
        · exact hb.1 x hx

theorem memRead_in {s : State} {a : Nat} (h : a < s.cfg.planeBytes) (use : Byte → State → Flow) :
    memRead a use s = use (s.pb.byteAt a) s := if_pos h

theorem memWrite_in {s : State} {a : Nat} (h : a < s.cfg.planeBytes) (v : Byte) :
    memWrite a v s = .done { s with pb := s.pb.write a v } := if_pos h

/-- At power-on the plane buffer has the canonical form. -/
theorem reset_pb_wf : State.reset.pb.wf := List.Pairwise.nil

end Sys2Proof.Machine
end

