-- ==== Sys2Proof/Laws/Pieces.lean ====
section
/-! SUPPORT. What every piece of an operation can do, said once: the events it appends, how it ends, and what it leaves
alone. Frames, panel commands, waits, streams, conversions and the micro-operations each get one lemma; the invariants
of the machine follow from it. -/

namespace Sys2Proof.Machine

/-! ### Events in whole frames -/

/-- Events made of whole frames, whose commands satisfy `P`, and of other events that are no transmission and did not
fail. -/
inductive Chunks (P : Byte → Prop) : List Event → Prop
  | nil : Chunks P []
  | frame (mode : Level) (v : Byte) {es : List Event} : (mode = .low → P v) → Chunks P es →
      Chunks P (Script.frame mode v ++ es)
  | quiet (e : Event) {es : List Event} : e.isTransmit = false → e.failed = false → Chunks P es → Chunks P (e :: es)

theorem Chunks.append {P : Byte → Prop} {es fs : List Event} (h : Chunks P es) (g : Chunks P fs) :
    Chunks P (es ++ fs) := by
  induction h with
  | nil => exact g
  | frame mode v hv _ ih => rw [List.append_assoc]; exact .frame mode v hv ih
  | quiet e h1 h2 _ ih => exact .quiet e h1 h2 ih

theorem Chunks.ofFrame {P : Byte → Prop} {mode : Level} {v : Byte} (h : mode = .low → P v) :
    Chunks P (Script.frame mode v) := by
  simpa using Chunks.frame mode v h .nil

theorem Chunks.ofQuiet {P : Byte → Prop} {e : Event} (h1 : e.isTransmit = false) (h2 : e.failed = false) :
    Chunks P [e] := .quiet e h1 h2 .nil

/-- A frame broken off by a failed transmission. -/
def brokenFrame (mode : Level) (v : Byte) : List Event := [.setLine .dc mode, .setLine .cs .low, .transmit v .fail]

theorem Chunks.not_failed {P : Byte → Prop} {es : List Event} (h : Chunks P es) : ∀ e ∈ es, e.failed = false := by
  induction h with
  | nil => simp
  | frame mode v _ _ ih =>
    intro e he
    rcases List.mem_append.mp he with he | he
    · simp only [Script.frame, List.mem_cons, List.not_mem_nil, or_false] at he
      rcases he with rfl | rfl | rfl | rfl <;> rfl
    · exact ih e he
  | quiet e _ h2 _ ih => simpa using ⟨h2, ih⟩

/-! ### How a piece ends -/

/-- No fault, and the end state satisfies the property of the way it ends. -/
def Flow.Sat (x : Flow) (ran broke hung : State → Prop) : Prop :=
  match x with
  | .done t => ran t
  | .trapped t => broke t
  | .waits t => hung t
  | .fault _ => False

/-- The fields that no piece below the level of host operations writes. -/
structure SameOutside (s t : State) : Prop where
  cfg : t.cfg = s.cfg
  inbox : t.inbox = s.inbox
  opened : t.opened = s.opened
  torn : t.torn = s.torn
  violation : t.violation = s.violation
  phase : t.phase = s.phase
  plane : s.planeOk → t.planeOk

/-- The events `es` stand at the end of `T` and the latches hold what they set. -/
structure Logged (s t : State) (es : List Event) : Prop where
  trace : t.trace = es.reverse ++ s.trace
  rst : t.rst = latchAfter .rst es s.rst
  dc : t.dc = latchAfter .dc es s.dc
  cs : t.cs = latchAfter .cs es s.cs

/-- A piece that ran to its end. -/
def Ran (P : Byte → Prop) (s t : State) : Prop :=
  SameOutside s t ∧ (∃ es, Chunks P es ∧ Logged s t es) ∧ t.seq = s.seq ∧ t.haltedAt = s.haltedAt ∧
    t.fatal = s.fatal ∧ t.err = s.err ∧ (t.waiting = s.waiting ∨ t.waiting = false)

/-- The last events of a piece that an answer `fail` ended, and the code it raised (R242, R243). -/
inductive Broken (P : Byte → Prop) : List Event → ErrCode → Prop
  | frame (mode : Level) (v : Byte) : (mode = .low → P v) → Broken P (brokenFrame mode v) .transmitFailure
  | bus : Broken P [.openBus .fail] .setupFailure

/-- A piece that an answer `fail` ended. -/
def Broke (P : Byte → Prop) (s t : State) : Prop :=
  SameOutside s t ∧ (∃ es fs, Chunks P es ∧ Broken P fs t.err ∧ Logged s t (es ++ fs)) ∧
    t.seq = .halted ∧ t.haltedAt = s.position ∧ t.fatal = true ∧ (t.waiting = s.waiting ∨ t.waiting = false)

/-- A piece that still polls. -/
def Hung (P : Byte → Prop) (s t : State) : Prop :=
  SameOutside s t ∧ (∃ es, Chunks P es ∧ Logged s t es) ∧ t.seq = s.seq ∧ t.haltedAt = s.haltedAt ∧
    t.fatal = s.fatal ∧ t.err = s.err ∧ t.waiting = true

/-- What a piece can do. -/
def Piece (P : Byte → Prop) (s : State) (x : Flow) : Prop := x.Sat (Ran P s) (Broke P s) (Hung P s)

theorem SameOutside.rfl (s : State) : SameOutside s s := ⟨.refl _, .refl _, .refl _, .refl _, .refl _, .refl _, id⟩

theorem SameOutside.trans {s t u : State} (h : SameOutside s t) (g : SameOutside t u) : SameOutside s u :=
  ⟨g.cfg.trans h.cfg, g.inbox.trans h.inbox, g.opened.trans h.opened, g.torn.trans h.torn,
    g.violation.trans h.violation, g.phase.trans h.phase, fun hp => g.plane (h.plane hp)⟩

theorem Logged.nil (s : State) : Logged s s [] := ⟨by simp, .refl _, .refl _, .refl _⟩

theorem Logged.trans {s t u : State} {es fs : List Event} (h : Logged s t es) (g : Logged t u fs) :
    Logged s u (es ++ fs) where
  trace := by rw [g.trace, h.trace]; simp
  rst := by rw [g.rst, h.rst, latchAfter_append]
  dc := by rw [g.dc, h.dc, latchAfter_append]
  cs := by rw [g.cs, h.cs, latchAfter_append]

theorem Logged.performed (s : State) (es : List Event) : Logged s (s.performed es) es :=
  ⟨.refl _, .refl _, .refl _, .refl _⟩

theorem Logged.T {s t : State} {es : List Event} (h : Logged s t es) : t.T = s.T ++ es := by
  simp [State.T, h.trace]

theorem position_eq {s t : State} (h1 : t.seq = s.seq) (h2 : t.haltedAt = s.haltedAt) : t.position = s.position := by
  simp [State.position, h1, h2]

theorem Ran.rfl (P : Byte → Prop) (s : State) : Ran P s s :=
  ⟨.rfl s, ⟨[], .nil, .nil s⟩, .refl _, .refl _, .refl _, .refl _, .inl (.refl _)⟩

theorem Ran.trans {P : Byte → Prop} {s t u : State} (h : Ran P s t) (g : Ran P t u) : Ran P s u := by
  obtain ⟨h1, ⟨es, he, hl⟩, h3, h4, h5, h6, h7⟩ := h
  obtain ⟨g1, ⟨fs, hf, gl⟩, g3, g4, g5, g6, g7⟩ := g
  refine ⟨h1.trans g1, ⟨_, he.append hf, hl.trans gl⟩, g3.trans h3, g4.trans h4, g5.trans h5, g6.trans h6, ?_⟩
  rcases g7 with g7 | g7
  · exact h7.imp g7.trans g7.trans
  · exact .inr g7

theorem Ran.broke {P : Byte → Prop} {s t u : State} (h : Ran P s t) (g : Broke P t u) : Broke P s u := by
  obtain ⟨h1, ⟨es, he, hl⟩, h3, h4, h5, h6, h7⟩ := h
  obtain ⟨g1, ⟨fs, gs, hf, hb, gl⟩, g3, g4, g5, g7⟩ := g
  refine ⟨h1.trans g1, ⟨_, gs, he.append hf, hb, ?_⟩, g3, g4.trans (position_eq h3 h4), g5, ?_⟩
  · rw [List.append_assoc]; exact hl.trans gl
  · rcases g7 with g7 | g7
    · exact h7.imp g7.trans g7.trans
    · exact .inr g7

theorem Ran.hung {P : Byte → Prop} {s t u : State} (h : Ran P s t) (g : Hung P t u) : Hung P s u := by
  obtain ⟨h1, ⟨es, he, hl⟩, h3, h4, h5, h6, h7⟩ := h
  obtain ⟨g1, ⟨fs, hf, gl⟩, g3, g4, g5, g6, g7⟩ := g
  exact ⟨h1.trans g1, ⟨_, he.append hf, hl.trans gl⟩, g3.trans h3, g4.trans h4, g5.trans h5, g6.trans h6, g7⟩

theorem Piece.done {P : Byte → Prop} {s t : State} (h : Ran P s t) : Piece P s (.done t) := h

/-- Pieces one after the other. -/
theorem Piece.andThen {P : Byte → Prop} {s : State} {x : Flow} {f : State → Flow} (h : Piece P s x)
    (g : ∀ t, Ran P s t → Piece P t (f t)) : Piece P s (x.andThen f) := by
  cases x with
  | done t =>
    have := g t h
    simp only [Flow.done_andThen, Piece] at *
    cases hf : f t with
    | done u => rw [hf] at this; exact Ran.trans h this
    | trapped u => rw [hf] at this; exact Ran.broke h this
    | waits u => rw [hf] at this; exact Ran.hung h this
    | fault e => rw [hf] at this; exact this.elim
  | trapped t => exact h
  | waits t => exact h
  | fault e => exact h.elim

/-- A loop of pieces. -/
theorem Piece.forFrom {P : Byte → Prop} {f : Nat → State → Flow} {s : State} :
    ∀ (n a : Nat), (∀ m, a ≤ m → m < a + n → ∀ t, t.cfg = s.cfg → Piece P t (f m t)) →
      ∀ t, t.cfg = s.cfg → Piece P t (forFrom a n f t)
  | 0, a, _, t, _ => Piece.done (.rfl P t)
  | n + 1, a, h, t, ht => by
    rw [forFrom_succ]
    refine Piece.andThen (h a (Nat.le_refl a) (by omega) t ht) fun u hu => ?_
    exact Piece.forFrom n (a + 1) (fun m h1 h2 => h m (by omega) (by omega)) u (hu.1.cfg.trans ht)

/-- A change of the datapath registers and the counters of the model alone. -/
theorem Ran.registers {P : Byte → Prop} (s : State) (acc : Byte) (i j k polls draws : Nat) :
    Ran P s { s with acc := acc, i := i, j := j, k := k, polls := polls, draws := draws } :=
  ⟨⟨.refl _, .refl _, .refl _, .refl _, .refl _, .refl _, id⟩,
    ⟨[], .nil, ⟨by simp, .refl _, .refl _, .refl _⟩⟩, .refl _, .refl _, .refl _, .refl _, .inl (.refl _)⟩

/-- Quiet events. -/
theorem Ran.performed {P : Byte → Prop} (s : State) {es : List Event} (h : Chunks P es) : Ran P s (s.performed es) :=
  ⟨⟨.refl _, .refl _, .refl _, .refl _, .refl _, .refl _, id⟩, ⟨es, h, .performed s es⟩, .refl _, .refl _, .refl _,
    .refl _, .inl (.refl _)⟩

/-! ### The pieces -/

theorem frame_piece {P : Byte → Prop} (mode : Level) (v : Byte) (s : State) (h : mode = .low → P v) :
    Piece P s (frame mode v s) := by
  rcases frame_cases mode v s with e | e <;> rw [e]
  · exact Ran.performed s (.ofFrame h)
  · exact ⟨⟨.refl _, .refl _, .refl _, .refl _, .refl _, .refl _, id⟩,
      ⟨[], _, .nil, .frame mode v h, .refl _, .refl _, .refl _, .refl _⟩, .refl _, .refl _, .refl _, .inl (.refl _)⟩

theorem openBus_piece {P : Byte → Prop} (s : State) : Piece P s (openBus s) := by
  cases h : s.link.get 0 with
  | ok => rw [openBus_of_ok h]; exact Ran.performed s (.ofQuiet rfl rfl)
  | fail =>
    rw [openBus_of_fail h]
    exact ⟨⟨.refl _, .refl _, .refl _, .refl _, .refl _, .refl _, id⟩,
      ⟨[], _, .nil, .bus, .refl _, .refl _, .refl _, .refl _⟩, .refl _, .refl _, .refl _, .inl (.refl _)⟩

theorem sendCommand_piece {P : Byte → Prop} {v : Byte} (s : State) (h : P v) : Piece P s (sendCommand v s) :=
  frame_piece .low v s fun _ => h

theorem sendData_piece {P : Byte → Prop} (v : Byte) (s : State) : Piece P s (sendData v s) :=
  frame_piece .high v s (by simp)

theorem sendAll_piece {P : Byte → Prop} : ∀ (vs : List Byte) (s : State), Piece P s (sendAll vs s)
  | [], s => Piece.done (.rfl P s)
  | v :: vs, s => Piece.andThen (sendData_piece v s) fun t _ => sendAll_piece vs t

theorem sleepFor_ran {P : Byte → Prop} (ms : Nat) (s : State) : Ran P s (sleepFor ms s) := by
  rw [sleepFor_eq_performed]
  exact Ran.performed s (.ofQuiet rfl rfl)

theorem pollBusy_ran {P : Byte → Prop} (s : State) : Ran P s (pollBusy s) := by
  rw [pollBusy_eq_performed]
  exact (Ran.performed s (.ofQuiet (e := .readBusy s.busy.head) rfl rfl)).trans
    (Ran.registers _ _ _ _ _ (s.polls + 1) _)

theorem pollLoop_piece {P : Byte → Prop} : ∀ (n : Nat) (s : State), Piece P s (pollLoop n s)
  | 0, s => ⟨⟨.refl _, .refl _, .refl _, .refl _, .refl _, .refl _, id⟩, ⟨[], .nil, ⟨by simp, .refl _, .refl _, .refl _⟩⟩,
      .refl _, .refl _, .refl _, .refl _, .refl _⟩
  | n + 1, s => by
    rw [pollLoop]
    split
    · have h : Ran P s (sleepFor Params.tPoll (pollBusy s)) := (pollBusy_ran s).trans (sleepFor_ran _ _)
      exact Piece.andThen (x := .done _) (Piece.done h) fun t _ => pollLoop_piece n t
    · have h : Ran P s (sleepFor Params.tSettle (pollBusy s)) := (pollBusy_ran s).trans (sleepFor_ran _ _)
      refine Piece.done (h.trans ⟨⟨.refl _, .refl _, .refl _, .refl _, .refl _, .refl _, id⟩,
        ⟨[], .nil, ⟨by simp, .refl _, .refl _, .refl _⟩⟩, .refl _, .refl _, .refl _, .refl _, .inr (.refl _)⟩)

theorem pollOn_piece {P : Byte → Prop} (s : State) : Piece P s (pollOn s) := pollLoop_piece _ s

theorem waitIdle_piece {P : Byte → Prop} (s : State) : Piece P s (waitIdle s) :=
  Piece.andThen (x := .done _) (Piece.done (Ran.registers s s.acc s.i s.j s.k 0 s.draws)) fun t _ => pollOn_piece t

theorem streamByte_piece {P : Byte → Prop} (v : Byte) (s : State) : Piece P s (streamByte v s) :=
  Piece.andThen (sendData_piece v s) fun t _ =>
    Piece.done (Ran.registers t t.acc t.i t.j (t.k + 1) t.polls t.draws)

theorem streamFill_piece {P : Byte → Prop} (v : Byte) (s : State) : Piece P s (streamFill v s) :=
  Piece.andThen (x := .done _) (Piece.done (Ran.registers s s.acc s.i s.j 0 s.polls s.draws)) fun t _ =>
    Piece.forFrom (s := t) _ 0 (fun _ _ _ u _ => streamByte_piece v u) t rfl

theorem streamPlane_piece {P : Byte → Prop} (f : PlaneXform) (s : State) : Piece P s (streamPlane f s) := by
  refine Piece.andThen (x := .done { s with k := 0 })
    (f := fun t => Machine.forFrom 0 s.cfg.planeBytes
      (fun a => memRead a fun b => streamByte (PlaneXform.apply f b)) t)
    (Piece.done (Ran.registers s s.acc s.i s.j 0 s.polls s.draws)) fun t ht =>
    Piece.forFrom (s := s) _ 0 (fun m _ hm u hu => ?_) t ht.1.cfg
  rw [memRead_in (by rw [hu]; omega)]
  exact streamByte_piece _ u

/-- The code of a panel command is one of the seventeen. -/
theorem panelCode_mem (c : Cfg) (p : PanelCommand) : p.code c ∈ Script.codes c := by
  cases p <;> simp [PanelCommand.code, Script.codes, Params.codeScanMux, Params.codeSoftStart, Params.codeDeepSleep,
    Params.codeDataEntryMode, Params.codeSwReset, Params.codeWriteBlack, Params.codeWriteRed, Params.codeBorder]

theorem panelData_piece {P : Byte → Prop} (p : PanelCommand) (s : State) : Piece P s (panelData p s) := by
  unfold panelData
  split
  · exact streamFill_piece _ s
  · exact streamPlane_piece _ s
  · exact streamFill_piece _ s
  · exact streamPlane_piece _ s
  · exact sendAll_piece _ s

theorem panelCommand_piece {P : Byte → Prop} (p : PanelCommand) (s : State) (h : P (p.code s.cfg)) :
    Piece P s (panelCommand p s) :=
  Piece.andThen (sendCommand_piece s h) fun t _ => panelData_piece p t

theorem resetPulse_eq_performed (s : State) : resetPulse s = s.performed Script.reset := by
  cases s; rfl

theorem resetPulse_ran {P : Byte → Prop} (s : State) : Ran P s (resetPulse s) := by
  rw [resetPulse_eq_performed]
  exact Ran.performed s (.quiet _ rfl rfl (.quiet _ rfl rfl (.quiet _ rfl rfl (.quiet _ rfl rfl (.quiet _ rfl rfl
    (.quiet _ rfl rfl .nil))))))

theorem turnOnDisplay_piece {P : Byte → Prop} (s : State) (h1 : P s.cfg.cmdDuc) (h2 : P s.cfg.cmdAct) :
    Piece P s (turnOnDisplay s) := by
  refine Piece.andThen (panelCommand_piece _ s h1) fun t ht => ?_
  refine Piece.andThen (panelCommand_piece _ t (by simpa [PanelCommand.code, ht.1.cfg] using h2)) fun u _ => ?_
  exact Piece.andThen (x := .done _) (f := waitIdle) (Piece.done (sleepFor_ran _ u)) fun v _ => waitIdle_piece v

/-- The index of a pixel of the panel lies in the plane (R218, R225). -/
theorem planeIndex_lt {c : Cfg} {i j : Nat} (hi : i < c.width) (hj : j < c.height) :
    planeIndex c i j < c.planeBytes := by
  have h1 : i / 8 < c.stride := by unfold Cfg.stride; omega
  have h2 : (j + 1) * c.stride ≤ c.height * c.stride := Nat.mul_le_mul_right _ hj
  rw [Nat.add_mul, Nat.one_mul] at h2
  unfold planeIndex Cfg.planeBytes
  rw [Nat.mul_comm c.stride]
  omega

theorem planeOk_write {s : State} {a : Nat} (v : Byte) (h : a < s.cfg.planeBytes) (hp : s.planeOk) :
    State.planeOk { s with pb := s.pb.write a v } := by
  refine ⟨Memory.wf_write a v _ hp.1, fun cell hc => ?_⟩
  rcases Memory.mem_keys_write a v s.pb cell.1 (List.mem_map_of_mem hc) with e | e
  · exact e ▸ h
  · obtain ⟨c', hc', e'⟩ := List.mem_map.mp e
    exact e' ▸ hp.2 c' hc'

theorem convertPixel_piece {P : Byte → Prop} (img : Image) {i j : Nat} (s : State) (hi : i < s.cfg.width)
    (hj : j < s.cfg.height) : Piece P s (convertPixel img j i s) := by
  have acc_ran : Ran P s (accumulate img j i { s with i := i, j := j }) := by
    unfold accumulate
    split
    · exact Ran.registers s (s.acc ||| fillMask i) i j s.k s.polls s.draws
    · exact Ran.registers s s.acc i j s.k s.polls s.draws
  refine Piece.andThen (x := .done _) (Piece.done acc_ran) fun t ht => ?_
  rw [storeGroup]
  split
  · have hlt : planeIndex t.cfg i j < t.cfg.planeBytes := by rw [ht.1.cfg]; exact planeIndex_lt hi hj
    rw [memWrite_in hlt]
    exact Piece.done ⟨⟨.refl _, .refl _, .refl _, .refl _, .refl _, .refl _, fun hp => planeOk_write _ hlt hp⟩,
      ⟨[], .nil, ⟨by simp, .refl _, .refl _, .refl _⟩⟩, .refl _, .refl _, .refl _, .refl _, .inl (.refl _)⟩
  · exact Piece.done (.rfl P t)

theorem convert_piece {P : Byte → Prop} (img : Image) (s : State) : Piece P s (convert img s) := by
  refine Piece.andThen (Piece.andThen (x := .done { s with acc := 0 })
    (f := forFrom 0 s.cfg.height (convertRow img))
    (Piece.done (Ran.registers s 0 s.i s.j s.k s.polls s.draws)) fun t ht =>
    Piece.forFrom (s := s) _ 0 (fun j _ hj u hu => ?_) t ht.1.cfg) fun t _ =>
    Piece.done (Ran.registers t t.acc _ _ t.k t.polls _)
  exact Piece.forFrom (s := s) _ 0 (fun i _ hi v hv => convertPixel_piece img v (by rw [hv, ← hu]; omega)
    (by rw [hv]; omega)) u hu

end Sys2Proof.Machine
end

