-- ==== Sys2Proof/Laws/Convert.lean ====
section
/-! SUPPORT. The converter against the closed form of spec/44_bitplane_converter.md R220. -/

namespace Sys2Proof.Machine

/-- The accumulator after the first `n` columns of a group, `w m` saying that column `m` is White (R216). -/
def partialByte (w : Nat → Bool) : Nat → Byte
  | 0 => 0
  | n + 1 => if w n then partialByte w n ||| fillMask n else partialByte w n

/-- The byte of a group from its White columns (R220). -/
def runByte (w : Nat → Bool) : Byte :=
  match (List.range 8).find? w with
  | some m => BitVec.ofNat 8 (255 / 2 ^ m)
  | none => 0x00

/-- Eight accumulated columns are a run of ones from the first White one (R220). -/
theorem partialByte_eight (w : Nat → Bool) : partialByte w 8 = runByte w := by
  have h : (List.range 8) = [0, 1, 2, 3, 4, 5, 6, 7] := rfl
  unfold runByte
  rw [h]
  simp only [partialByte, List.find?]
  cases w 0 <;> cases w 1 <;> cases w 2 <;> cases w 3 <;> cases w 4 <;> cases w 5 <;> cases w 6 <;> cases w 7 <;> decide

theorem groupByte_eq_runByte (c : Cfg) (img : Image) (g j : Nat) :
    Script.groupByte c img g j = runByte (Script.isWhite c img g j) := rfl

theorem fillMask_mod (i : Nat) : fillMask (i % 8) = fillMask i := by
  simp [fillMask]

/-- The geometry a good configuration has (R7). -/
theorem width_eq {c : Cfg} (h : c.geometryOk = true) : c.width = 8 * c.stride ∧ 0 < c.stride ∧ 0 < c.height := by
  simp only [Cfg.geometryOk, Bool.and_eq_true, decide_eq_true_eq] at h
  unfold Cfg.stride
  omega

/-- What the loops of Convert have done when the next byte to write is `n`: all bytes below are converted, the others
are as before, and nothing outside the converter has changed. -/
structure Converted (c : Cfg) (img : Image) (s t : State) (n : Nat) (acc : Byte) : Prop where
  below : ∀ a < n, t.pb.byteAt a = Script.planeByte c img a
  above : ∀ a, n ≤ a → t.pb.byteAt a = s.pb.byteAt a
  same : t = { s with acc := acc, pb := t.pb, i := t.i, j := t.j }

/-- Two states that differ in the converter alone agree once the converter is overwritten. -/
theorem overwrite_converter {s t : State} {a : Byte} {p : Memory} {x y : Nat}
    (h : t = { s with acc := a, pb := p, i := x, j := y }) (a' : Byte) (p' : Memory) (x' y' : Nat) :
    { t with acc := a', pb := p', i := x', j := y' } = { s with acc := a', pb := p', i := x', j := y' } := by
  rw [h]

theorem planeByte_at {c : Cfg} (img : Image) {g j : Nat} (hg : g < c.stride) :
    Script.planeByte c img (g + j * c.stride) = Script.groupByte c img g j := by
  have hs : 0 < c.stride := by omega
  rw [Script.planeByte, Nat.add_mul_mod_self_right, Nat.mod_eq_of_lt hg, Nat.add_mul_div_right _ _ hs,
    Nat.div_eq_of_lt hg, Nat.zero_add]

/-- One pixel (R211): the accumulator takes the column, and after the last column of a group the byte is stored. -/
theorem convertPixel_converted {c : Cfg} {img : Image} {s t : State} {i j : Nat} (hc : s.cfg = c)
    (hg : c.geometryOk = true) (hi : i < c.width) (hj : j < c.height)
    (h : Converted c img s t (i / 8 + j * c.stride) (partialByte (Script.isWhite c img (i / 8) j) (i % 8))) :
    ∃ u, convertPixel img j i t = .done u ∧
      Converted c img s u ((i + 1) / 8 + j * c.stride)
        (partialByte (Script.isWhite c img ((i + 1) / 8) j) ((i + 1) % 8)) := by
  obtain ⟨hw, hs, hh⟩ := width_eq hg
  have htc : t.cfg = c := by rw [h.same]; exact hc
  have hacc : t.acc = partialByte (Script.isWhite c img (i / 8) j) (i % 8) := by rw [h.same]
  -- the accumulator after this column
  have hstep : accumulate img j i { t with i := i, j := j } =
      { t with i := i, j := j, acc := partialByte (Script.isWhite c img (i / 8) j) (i % 8 + 1) } := by
    have hcol : 8 * (i / 8) + i % 8 = i := by omega
    unfold accumulate
    simp only [htc, partialByte, Script.isWhite, hcol, fillMask_mod, decide_eq_true_eq]
    split
    · next hp => rw [if_pos hp, ← hacc]
    · next hp => rw [if_neg (by simp [hp]), ← hacc]
  rw [convertPixel, hstep, storeGroup]
  by_cases h7 : i % 8 = 7
  · have hlt : planeIndex c i j < c.planeBytes := planeIndex_lt hi hj
    have hgs : i / 8 < c.stride := by omega
    rw [if_pos h7, memWrite_in (by show planeIndex t.cfg i j < t.cfg.planeBytes; rw [htc]; exact hlt),
      Flow.done_andThen]
    refine ⟨_, rfl, ?_, ?_, ?_⟩
    · intro a ha
      simp only [htc, h7]
      by_cases hax : a = planeIndex c i j
      · subst hax
        rw [Memory.byteAt_write_same, planeIndex, planeByte_at img hgs, groupByte_eq_runByte, ← partialByte_eight]
      · rw [Memory.byteAt_write_other _ hax]
        refine h.below a ?_
        unfold planeIndex at hax
        omega
    · intro a ha
      simp only [htc, h7]
      have hax : a ≠ planeIndex c i j := by unfold planeIndex; omega
      rw [Memory.byteAt_write_other _ hax]
      exact h.above a (by omega)
    · have h0 : (i + 1) % 8 = 0 := by omega
      rw [h0, partialByte]
      exact overwrite_converter h.same _ _ _ _
  · rw [if_neg h7]
    have h1 : (i + 1) / 8 = i / 8 := by omega
    have h2 : (i + 1) % 8 = i % 8 + 1 := by omega
    refine ⟨_, rfl, ?_, ?_, ?_⟩
    · rw [h1]; exact h.below
    · rw [h1]; exact h.above
    · rw [h1, h2]
      exact overwrite_converter h.same _ _ _ _

theorem convertRow_converted {c : Cfg} {img : Image} {s t : State} {j : Nat} (hc : s.cfg = c)
    (hg : c.geometryOk = true) (hj : j < c.height) (h : Converted c img s t (j * c.stride) 0) :
    ∃ u, convertRow img j t = .done u ∧ Converted c img s u ((j + 1) * c.stride) 0 := by
  obtain ⟨hw, hs, hh⟩ := width_eq hg
  have htc : t.cfg = c := by rw [h.same]; exact hc
  obtain ⟨u, hu, hv⟩ := forFrom_done
    (P := fun i u => Converted c img s u (i / 8 + j * c.stride) (partialByte (Script.isWhite c img (i / 8) j) (i % 8)))
    (f := convertPixel img j) c.width 0 t (by simpa [partialByte] using h)
    (fun i u _ hi hp => convertPixel_converted hc hg (by omega) hj hp)
  refine ⟨u, by rw [convertRow, htc]; exact hu, ?_⟩
  rw [Nat.zero_add, hw] at hv
  have h1 : 8 * c.stride / 8 = c.stride := by omega
  have h2 : 8 * c.stride % 8 = 0 := by omega
  rw [h1, h2] at hv
  rwa [Nat.add_mul, Nat.one_mul, Nat.add_comm]

/-- Forgetting the counters keeps everything else. -/
theorem forgetCounters_of_same {s u : State} {a : Byte} {p : Memory} {x y : Nat}
    (h : u = { s with acc := a, pb := p, i := x, j := y }) :
    forgetCounters u =
      { s with acc := a, pb := p, i := (forgetCounters u).i, j := (forgetCounters u).j, draws := s.draws + 1 } := by
  subst h
  rfl

/-- Convert stores the closed form in every byte and leaves the rest alone (R219, R220). -/
theorem convert_done {s : State} (img : Image) (hg : s.cfg.geometryOk = true) :
    ∃ t : State, convert img s = .done t ∧
      (∀ a < s.cfg.planeBytes, t.pb.byteAt a = Script.planeByte s.cfg img a) ∧
      (∀ a, s.cfg.planeBytes ≤ a → t.pb.byteAt a = s.pb.byteAt a) ∧
      t.i < s.cfg.width ∧ t.j < s.cfg.height ∧
      t = { s with acc := 0, pb := t.pb, i := t.i, j := t.j, draws := s.draws + 1 } := by
  obtain ⟨hw, hs, hh⟩ := width_eq hg
  obtain ⟨u, hu, hv⟩ := forFrom_done
    (P := fun j u => Converted s.cfg img s u (j * s.cfg.stride) 0) (f := convertRow img) s.cfg.height 0
    { s with acc := 0 } ⟨by simp, by simp, rfl⟩
    (fun j u _ hj hp => convertRow_converted rfl hg (by omega) hp)
  rw [Nat.zero_add, Nat.mul_comm] at hv
  have huc : u.cfg = s.cfg := by rw [hv.same]
  refine ⟨forgetCounters u, ?_, hv.below, hv.above, ?_, ?_, ?_⟩
  · rw [convert, hu]; rfl
  · simpa [huc] using Nat.mod_lt _ (by omega)
  · simpa [huc] using Nat.mod_lt _ hh
  · exact forgetCounters_of_same hv.same

end Sys2Proof.Machine
end

