-- ==== Sys2Proof/Laws/Panel.lean ====
section
/-! SUPPORT. What the pieces do when the transport answers and the panel releases BUSY: the exact state they leave. -/

namespace Sys2Proof.Machine

/-- The model's little-endian pair is the script's (R62). -/
theorem pair_eq_le (v : Half) : pair v = Script.le v := by
  have h1 : lo v = BitVec.ofNat 8 (v.toNat % 256) := by
    apply BitVec.eq_of_toNat_eq; simp [lo, BitVec.extractLsb'_toNat]
  have h2 : hi v = BitVec.ofNat 8 (v.toNat / 256 % 256) := by
    apply BitVec.eq_of_toNat_eq; simp [hi, BitVec.extractLsb'_toNat, Nat.shiftRight_eq_div_pow]
  simp [pair, Script.le, h1, h2]

/-- The model's transform of a plane byte is the script's (R225). -/
theorem xform_eq_sent (f : PlaneXform) (b : Byte) : PlaneXform.apply f b = Script.sentByte f b := by
  cases f
  · rfl
  · apply BitVec.eq_of_toNat_eq
    have := b.isLt
    simp only [PlaneXform.apply, Script.sentByte, BitVec.toNat_not, BitVec.toNat_sub]
    simp
    omega

/-- A panel command is no plane write: its data frames are its parameter bytes. -/
def hasParams : PanelCommand → Bool
  | .writeBlackPlane _ => false
  | .writeRedPlane _ => false
  | _ => true

theorem panelData_of_hasParams {p : PanelCommand} (hp : hasParams p = true) (s : State) :
    panelData p s = sendAll (panelParams s.cfg p) s := by
  unfold panelData
  split <;> simp_all [hasParams]

theorem paramCommand_of_ok {s : State} {p : PanelCommand} (hp : hasParams p = true)
    (h : s.linkOk (1 + (panelParams s.cfg p).length)) :
    panelCommand p s = .done (s.performed (Script.command (p.code s.cfg) (panelParams s.cfg p))) := by
  rw [panelCommand, sendCommand, frame_of_ok _ _ (h 0 (by omega)), Flow.done_andThen, panelData_of_hasParams hp]
  show sendAll (panelParams s.cfg p) _ = _
  rw [sendAll_of_ok _ (linkOk_performed (by simpa using h)), performed_append]
  rfl

@[simp] theorem command_asksLink (code : Byte) (vs : List Byte) :
    (Script.command code vs).countP Event.asksLink = 1 + vs.length := by
  simp [Script.command, Script.C, List.countP_append]

@[simp] theorem command_isPoll (code : Byte) (vs : List Byte) :
    (Script.command code vs).countP Event.isPoll = 0 := by
  rw [Script.command, List.countP_append, data_isPoll]; rfl

/-! ### Streams -/

theorem streamByte_of_ok {s : State} (v : Byte) (h : s.link.get 0 = .ok) :
    streamByte v s = .done { s.performed (Script.D v) with k := s.k + 1 } := by
  rw [streamByte, sendData, frame_of_ok _ _ h]; rfl

theorem streamByte_of_fail {s : State} (v : Byte) (h : s.link.get 0 = .fail) :
    streamByte v s = .trapped (takeFatal .transmitFailure (s.performed (brokenFrame .high v))) := by
  rw [streamByte, sendData, frame_of_fail _ _ h]; rfl

/-- The body of a stream's loop: byte `b a` at index `a`, whatever was sent before. -/
def StreamsByte (f : Nat → State → Flow) (b : Nat → Byte) (s : State) (bound : Nat) : Prop :=
  ∀ a < bound, ∀ t : State, t.cfg = s.cfg → t.pb = s.pb → f a t = streamByte (b a) t

theorem stream_of_ok {f : Nat → State → Flow} {b : Nat → Byte} :
    ∀ (n a : Nat) (s : State), StreamsByte f b s (a + n) → s.linkOk n →
      forFrom a n f s = .done { s.performed (Script.data ((List.range' a n).map b)) with k := s.k + n }
  | 0, a, s, _, _ => by simp
  | n + 1, a, s, hf, h => by
    rw [forFrom_succ, hf a (by omega) s rfl rfl, streamByte_of_ok _ (h 0 (by omega)), Flow.done_andThen,
      stream_of_ok n (a + 1) { s.performed (Script.D (b a)) with k := s.k + 1 }
        (fun m hm t h1 h2 => hf m (by omega) t h1 h2)
        (linkOk_performed (es := Script.D (b a)) (by simpa [Script.D, Nat.add_comm] using h))]
    congr 1
    rw [List.range'_succ, List.map_cons, data_cons, ← performed_append]
    simp [State.performed, Script.D]
    omega

theorem stream_of_fail {f : Nat → State → Flow} {b : Nat → Byte} :
    ∀ (n a : Nat) (s : State) (m : Nat), StreamsByte f b s (a + n) → m < n → s.linkOk m → s.link.get m = .fail →
      forFrom a n f s = .trapped (takeFatal .transmitFailure { s.performed
        (Script.data ((List.range' a m).map b) ++ brokenFrame .high (b (a + m))) with k := s.k + m })
  | 0, a, s, m, _, hm, _, _ => by omega
  | n + 1, a, s, 0, hf, _, _, h => by
    rw [forFrom_succ, hf a (by omega) s rfl rfl, streamByte_of_fail _ h, Flow.trapped_andThen]
    simp [State.performed]
  | n + 1, a, s, m + 1, hf, hm, h, hg => by
    rw [forFrom_succ, hf a (by omega) s rfl rfl, streamByte_of_ok _ (h 0 (by omega)), Flow.done_andThen,
      stream_of_fail n (a + 1) { s.performed (Script.D (b a)) with k := s.k + 1 } m
        (fun x hx t h1 h2 => hf x (by omega) t h1 h2) (by omega)
        (linkOk_performed (es := Script.D (b a)) (by simpa [Script.D, Nat.add_comm] using h))
        (by simpa [Script.D, Nat.add_comm] using hg)]
    congr 2
    rw [List.range'_succ, List.map_cons, data_cons, List.append_assoc, ← performed_append,
      show a + 1 + m = a + (m + 1) by omega]
    simp [State.performed, Script.D, latchAfter_append, Nat.add_assoc, Nat.add_comm, Nat.add_left_comm]

theorem streamFill_streams (v : Byte) (s : State) (n : Nat) :
    StreamsByte (fun _ t => streamByte v t) (fun _ => v) s n := fun _ _ _ _ _ => rfl

theorem streamPlane_streams (f : PlaneXform) (s : State) :
    StreamsByte (fun a => memRead a fun b => streamByte (PlaneXform.apply f b))
      (fun a => Script.sentByte f (s.pb.byteAt a)) s s.cfg.planeBytes := by
  intro a ha t h1 h2
  show memRead a _ t = _
  rw [memRead_in (by rw [h1]; exact ha), h2, xform_eq_sent]

/-- StreamFill on a transport that answers. -/
theorem streamFill_of_ok {s : State} (v : Byte) (h : s.linkOk s.cfg.planeBytes) :
    streamFill v s = .done { s.performed (Script.data (List.replicate s.cfg.planeBytes v)) with
      k := s.cfg.planeBytes } := by
  have h' : State.linkOk { s with k := 0 } s.cfg.planeBytes := h
  rw [streamFill, stream_of_ok _ 0 _ (streamFill_streams v _ _) h']
  simp [State.performed]

/-- StreamFill whose byte number `n`, from 0, is not transmitted. -/
theorem streamFill_of_fail {s : State} (v : Byte) {n : Nat} (hn : n < s.cfg.planeBytes) (h : s.linkOk n)
    (hf : s.link.get n = .fail) :
    streamFill v s = .trapped (takeFatal .transmitFailure
      { s.performed (Script.data (List.replicate n v) ++ brokenFrame .high v) with k := n }) := by
  have h' : State.linkOk { s with k := 0 } n := h
  rw [streamFill, stream_of_fail _ 0 { s with k := 0 } n (streamFill_streams v _ _) hn h' hf]
  simp [State.performed]

/-- StreamPlane on a transport that answers. -/
theorem streamPlane_of_ok {s : State} (f : PlaneXform) (h : s.linkOk s.cfg.planeBytes) :
    streamPlane f s = .done { s.performed (Script.data (s.bufferBytes.map (Script.sentByte f))) with
      k := s.cfg.planeBytes } := by
  have h' : State.linkOk { s with k := 0 } s.cfg.planeBytes := h
  have hs := streamPlane_streams f { s with k := 0 }
  rw [streamPlane, stream_of_ok _ 0 _ (by simpa using hs) h']
  simp [State.performed, State.bufferBytes, List.range_eq_range', Function.comp_def]

/-- StreamPlane whose byte number `n`, from 0, is not transmitted. -/
theorem streamPlane_of_fail {s : State} (f : PlaneXform) {n : Nat} (hn : n < s.cfg.planeBytes) (h : s.linkOk n)
    (hf : s.link.get n = .fail) :
    streamPlane f s = .trapped (takeFatal .transmitFailure { s.performed
      (Script.data ((s.bufferBytes.take n).map (Script.sentByte f)) ++
        brokenFrame .high (Script.sentByte f (s.pb.byteAt n))) with k := n }) := by
  have h' : State.linkOk { s with k := 0 } n := h
  have hs := streamPlane_streams f { s with k := 0 }
  have ht : (s.bufferBytes.take n).map (Script.sentByte f)
      = (List.range' 0 n).map fun a => Script.sentByte f (s.pb.byteAt a) := by
    rw [State.bufferBytes, ← List.map_take, List.take_range, Nat.min_eq_left (by omega), List.range_eq_range',
      List.map_map]
    rfl
  rw [streamPlane, stream_of_fail _ 0 { s with k := 0 } n (by simpa using hs) hn h' hf, ht]
  simp [State.performed]

/-- A command frame on a transport that answers. -/
theorem sendCommand_of_ok {s : State} (code : Byte) (h : s.link.get 0 = .ok) :
    sendCommand code s = .done (s.performed (Script.C code)) := frame_of_ok _ _ h

/-- A plane write with a constant. -/
theorem fillCommand_of_ok {s : State} (code v : Byte) (h : s.linkOk (1 + s.cfg.planeBytes)) :
    (sendCommand code s).andThen (streamFill v) =
      .done { s.performed (Script.command code (List.replicate s.cfg.planeBytes v)) with k := s.cfg.planeBytes } := by
  have h' : (s.performed (Script.C code)).linkOk (s.performed (Script.C code)).cfg.planeBytes := linkOk_performed h
  rw [sendCommand_of_ok _ (h 0 (by omega)), Flow.done_andThen, streamFill_of_ok _ h', performed_append]
  rfl

/-- A plane write from the plane buffer. -/
theorem bufferCommand_of_ok {s : State} (code : Byte) (f : PlaneXform) (h : s.linkOk (1 + s.cfg.planeBytes)) :
    (sendCommand code s).andThen (streamPlane f) =
      .done { s.performed (Script.command code (s.bufferBytes.map (Script.sentByte f))) with
        k := s.cfg.planeBytes } := by
  have h' : (s.performed (Script.C code)).linkOk (s.performed (Script.C code)).cfg.planeBytes := linkOk_performed h
  rw [sendCommand_of_ok _ (h 0 (by omega)), Flow.done_andThen, streamPlane_of_ok _ h', performed_append]
  rfl

/-! ### Waits -/

theorem busyPolls_succ_last (c : Cfg) : ∀ n,
    Script.busyPolls c (n + 1) = Script.busyPolls c n ++ [.readBusy c.busyActive, .sleepFor 10]
  | 0 => rfl
  | n + 1 => by
    have ih := busyPolls_succ_last c n
    show _ :: _ :: Script.busyPolls c (n + 1) = (_ :: _ :: Script.busyPolls c n) ++ _
    rw [ih, List.cons_append, List.cons_append]

theorem ne_active_iff (c : Cfg) (l : Level) : l ≠ c.busyActive ↔ l = Script.idleLevel c := by
  unfold Script.idleLevel
  cases l <;> cases c.busyActive <;> simp

theorem pollBusy_of_head {s : State} {l : Level} (h : s.busy.head = l) :
    pollBusy s = { s.performed [.readBusy l] with polls := s.polls + 1 } := by
  rw [← h, pollBusy_eq_performed]

/-- A WaitIdle whose next `n` polls read busy and the one after them does not. -/
theorem pollLoop_of_release : ∀ (n fuel : Nat) (s : State), s.holdsBusy 0 n → n < fuel →
    pollLoop fuel s = .done { s.performed (Script.wait s.cfg n) with polls := s.polls + n + 1, waiting := false }
  | _, 0, _, _, h => by omega
  | 0, fuel + 1, s, h, _ => by
    have h0 : s.busy.head ≠ s.cfg.busyActive := by simpa [State.holdsBusy, Oracle.head_eq_get] using h.2
    have hi := (ne_active_iff _ _).mp h0
    rw [pollLoop, if_neg (by simp [readsBusy, h0]), pollBusy_of_head hi]
    simp [State.performed, Script.wait, Script.busyPolls, sleepFor, emit, Params.tSettle, latchAfter,
      List.countP_cons, Event.asksLink, Event.isPoll]
  | n + 1, fuel + 1, s, h, hf => by
    have h0 : s.busy.head = s.cfg.busyActive := by simpa [Oracle.head_eq_get] using h.1 0 (by omega)
    rw [pollLoop, if_pos (by simp [readsBusy, h0]), pollLoop_of_release n fuel _ ?_ (by omega), pollBusy_of_head h0]
    · simp [State.performed, Script.wait, Script.busyPolls, sleepFor, emit, Params.tPoll, latchAfter,
        List.countP_cons, Event.asksLink, Event.isPoll]
      simp only [Nat.add_assoc, Nat.add_comm 1, and_self]
    · refine ⟨fun m hm => ?_, ?_⟩
      · simpa [Nat.add_comm] using h.1 (m + 1) (by omega)
      · simpa [Nat.add_comm] using h.2

/-- A panel that releases BUSY does so within its listed answers or the lasting one. -/
theorem holdsBusy_le {s : State} {n : Nat} (h : s.holdsBusy 0 n) : n < s.busy.listed.length + 1 := by
  by_contra hn
  have h1 := h.1 s.busy.listed.length (by omega)
  rw [Nat.zero_add, Oracle.get_of_length_le _ _ (Nat.le_refl _)] at h1
  have h2 := h.2
  rw [Nat.zero_add, Oracle.get_of_length_le _ _ (by omega)] at h2
  exact h2 h1

theorem pollOn_of_release {s : State} {n : Nat} (h : s.holdsBusy 0 n) :
    pollOn s = .done { s.performed (Script.wait s.cfg n) with polls := s.polls + n + 1, waiting := false } :=
  pollLoop_of_release n _ s h (holdsBusy_le h)

theorem waitIdle_of_release {s : State} {n : Nat} (h : s.holdsBusy 0 n) :
    waitIdle s = .done { s.performed (Script.wait s.cfg n) with polls := n + 1, waiting := false } := by
  have h' : State.holdsBusy { s with polls := 0 } 0 n := h
  rw [waitIdle, pollOn_of_release h']
  simp [State.performed]

/-- WaitIdle does not fail. -/
theorem pollLoop_not_trapped : ∀ (n : Nat) (s t : State), pollLoop n s ≠ .trapped t
  | 0, s, t => by simp [pollLoop]
  | n + 1, s, t => by
    rw [pollLoop]
    split
    · exact pollLoop_not_trapped n _ t
    · simp

theorem pollOn_not_trapped (s t : State) : pollOn s ≠ .trapped t := pollLoop_not_trapped _ s t

/-- A WaitIdle that returns no longer waits. -/
theorem pollLoop_done_waiting : ∀ (n : Nat) {s t : State}, pollLoop n s = .done t → t.waiting = false
  | 0, s, t, h => by simp [pollLoop] at h
  | n + 1, s, t, h => by
    rw [pollLoop] at h
    split at h
    · exact pollLoop_done_waiting n h
    · cases h; rfl

theorem pollOn_done_waiting {s t : State} (h : pollOn s = .done t) : t.waiting = false := pollLoop_done_waiting _ h

/-- Polls that all read busy. -/
theorem pollLoop_of_busy : ∀ (n : Nat) (s : State), (∀ m < n, s.busy.get m = s.cfg.busyActive) →
    pollLoop n s = .waits { s.performed (Script.busyPolls s.cfg n) with polls := s.polls + n, waiting := true }
  | 0, s, _ => by simp [pollLoop, Script.busyPolls]
  | n + 1, s, h => by
    have h0 : s.busy.head = s.cfg.busyActive := h 0 (by omega)
    rw [pollLoop, if_pos (by simp [readsBusy, h0]), pollLoop_of_busy n, pollBusy_of_head h0]
    · simp [State.performed, Script.busyPolls, sleepFor, emit, Params.tPoll, latchAfter, List.countP_cons,
        Event.asksLink, Event.isPoll]
      simp only [Nat.add_assoc, Nat.add_comm 1, and_self]
    · intro m hm
      simpa [Nat.add_comm] using h (m + 1) (by omega)

end Sys2Proof.Machine
end

