-- ==== Sys2Proof/Laws/HostOps.lean ====
section
/-! SUPPORT. The rows of the host operations on a transport that answers and a panel that releases BUSY. -/

namespace Sys2Proof.Machine

/-! ### Runs -/

theorem coreRun_succ (M : Host.Core) {s t : M.State} (k : Nat) (h : M.step s = .next t) :
    M.run (k + 1) s = M.run k t := by
  rw [Host.Core.run, h]

theorem run_zero (s : State) : Host.Core.run Sys2Proof.core 0 s = .next s := rfl

theorem run_succ {s t : State} (k : Nat) (h : step s = .next t) :
    Host.Core.run Sys2Proof.core (k + 1) s = Host.Core.run Sys2Proof.core k t :=
  coreRun_succ Sys2Proof.core k h

/-! ### Counting answers -/

@[simp] theorem busyPolls_asksLink (c : Cfg) (n : Nat) : (Script.busyPolls c n).countP Event.asksLink = 0 := by
  induction n with
  | zero => rfl
  | succ n ih => simpa [Script.busyPolls, List.countP_cons, Event.asksLink] using ih

@[simp] theorem busyPolls_isPoll (c : Cfg) (n : Nat) : (Script.busyPolls c n).countP Event.isPoll = n := by
  induction n with
  | zero => rfl
  | succ n ih => simp [Script.busyPolls, List.countP_cons, Event.isPoll, ih]

@[simp] theorem wait_asksLink (c : Cfg) (n : Nat) : (Script.wait c n).countP Event.asksLink = 0 := by
  simp [Script.wait, Event.asksLink]

@[simp] theorem wait_isPoll (c : Cfg) (n : Nat) : (Script.wait c n).countP Event.isPoll = n + 1 := by
  simp [Script.wait, List.countP_cons, Event.isPoll]

@[simp] theorem reset_asksLink : Script.reset.countP Event.asksLink = 0 := rfl
@[simp] theorem reset_isPoll : Script.reset.countP Event.isPoll = 0 := rfl
@[simp] theorem C_asksLink (v : Byte) : (Script.C v).countP Event.asksLink = 1 := rfl
@[simp] theorem C_isPoll (v : Byte) : (Script.C v).countP Event.isPoll = 0 := rfl

@[simp] theorem le_length (v : Half) : (Script.le v).length = 2 := rfl

@[simp] theorem prepareDraw_asksLink (c : Cfg) : (Script.prepareDraw c).countP Event.asksLink = 3 := by
  simp [Script.prepareDraw]

@[simp] theorem prepareDraw_isPoll (c : Cfg) : (Script.prepareDraw c).countP Event.isPoll = 0 := by
  simp [Script.prepareDraw]

@[simp] theorem turnOn_asksLink (c : Cfg) (n : Nat) : (Script.turnOn c n).countP Event.asksLink = 3 := by
  simp [Script.turnOn, Event.asksLink]

@[simp] theorem turnOn_isPoll (c : Cfg) (n : Nat) : (Script.turnOn c n).countP Event.isPoll = n + 1 := by
  simp [Script.turnOn, Event.isPoll]

/-- After events that poll `m` times, the panel's later answers remain. -/
theorem holdsBusy_performed {s : State} {es : List Event} {a n : Nat}
    (h : s.holdsBusy (es.countP Event.isPoll + a) n) : (s.performed es).holdsBusy a n := by
  refine ⟨fun m hm => ?_, ?_⟩
  · simpa [Nat.add_assoc] using h.1 m hm
  · simpa [Nat.add_assoc] using h.2

/-! ### Micro-operations -/

theorem prepareDraw_of_ok {s : State} (h : s.linkOk 3) :
    prepareDraw s = .done (s.performed (Script.prepareDraw s.cfg)) := by
  rw [prepareDraw, paramCommand_of_ok rfl (by exact h), panelParams, pair_eq_le]
  rfl

theorem turnOnDisplay_of_ok {s : State} {n : Nat} (h : s.linkOk 3) (hb : s.holdsBusy 0 n) :
    turnOnDisplay s = .done { s.performed (Script.turnOn s.cfg n) with polls := n + 1, waiting := false } := by
  have h2 : (s.performed (Script.command s.cfg.cmdDuc [s.cfg.tonP])).linkOk 1 := linkOk_performed (by simpa using h)
  rw [turnOnDisplay, paramCommand_of_ok (p := .displayUpdateControl .turnOn) rfl (linkOk_mono h (by simp [panelParams])),
    Flow.done_andThen]
  show (panelCommand .activate (s.performed (Script.command s.cfg.cmdDuc [s.cfg.tonP]))).andThen _ = _
  rw [paramCommand_of_ok (p := .activate) rfl (by exact h2), Flow.done_andThen, performed_append, sleepFor_eq_performed,
    performed_append, waitIdle_of_release (n := n) (holdsBusy_performed ?_), performed_append]
  · simp [Script.turnOn, panelParams, PanelCommand.code, Params.tActivate]
  · simpa [List.countP_cons, Event.isPoll] using hb

/-- A panel command and the wait after it. -/
theorem commandWait_of_ok {s : State} {p : PanelCommand} {n : Nat} (hp : hasParams p = true)
    (h : s.linkOk (1 + (panelParams s.cfg p).length)) (hb : s.holdsBusy 0 n) :
    (panelCommand p s).andThen waitIdle = .done { s.performed
      (Script.command (p.code s.cfg) (panelParams s.cfg p) ++ Script.wait s.cfg n) with
      polls := n + 1, waiting := false } := by
  rw [paramCommand_of_ok hp h, Flow.done_andThen, waitIdle_of_release (n := n) (holdsBusy_performed ?_),
    performed_append]
  · rfl
  · simpa using hb

/-! ### Rows -/

theorem runRows_nil (op : HostOp) (n : Nat) (s : State) : runRows op n [] s = .done (endOp s) := rfl

theorem runRows_cons_done {op : HostOp} {n : Nat} {r : Row} {rs : List Row} {s t : State}
    (h : r.body (setSeq (.run op n) s) = .done t) : runRows op n (r :: rs) s = runRows op (n + 1) rs (r.post t) := by
  rw [runRows, h, Flow.done_andThen]

/-- `s` inside `op`, before row `n`, after the events `es`. -/
def State.at (s : State) (es : List Event) (ph : Phase) (po : Nat) (q : Seq) : State :=
  { s.performed es with phase := ph, polls := po, waiting := false, seq := q }

theorem at_linkOk {s : State} {es : List Event} {ph : Phase} {po : Nat} {q : Seq} {m : Nat}
    (h : s.linkOk (es.countP Event.asksLink + m)) : (s.at es ph po q).linkOk m :=
  linkOk_performed (s := s) h

theorem at_holdsBusy {s : State} {es : List Event} {ph : Phase} {po : Nat} {q : Seq} {n : Nat}
    (h : s.holdsBusy (es.countP Event.isPoll) n) : (s.at es ph po q).holdsBusy 0 n :=
  holdsBusy_performed (s := s) h

theorem at_performed (s : State) (es fs : List Event) (ph : Phase) (po : Nat) (q : Seq) :
    (s.at es ph po q).performed fs = s.at (es ++ fs) ph po q := by
  simp [State.at, State.performed]

theorem setSeq_at (s : State) (es : List Event) (ph : Phase) (po : Nat) (q q' : Seq) :
    setSeq q' (s.at es ph po q) = s.at es ph po q' := rfl

@[simp] theorem at_cfg (s : State) (es : List Event) (ph : Phase) (po : Nat) (q : Seq) :
    (s.at es ph po q).cfg = s.cfg := rfl

/-- A row of one panel command. -/
theorem runRows_command {s : State} {es : List Event} {ph : Phase} {po : Nat} {q : Seq} {op : HostOp} {n : Nat}
    {p : PanelCommand} {rs : List Row} (hp : hasParams p = true)
    (h : s.linkOk (es.countP Event.asksLink + (1 + (panelParams s.cfg p).length))) :
    runRows op n (commandRow p :: rs) (s.at es ph po q) = runRows op (n + 1) rs
      (s.at (es ++ Script.command (p.code s.cfg) (panelParams s.cfg p)) ph po (.run op n)) := by
  rw [runRows_cons_done (t := s.at (es ++ Script.command (p.code s.cfg) (panelParams s.cfg p)) ph po (.run op n)) ?_]
  · rfl
  · show panelCommand p (s.at es ph po (.run op n)) = _
    rw [paramCommand_of_ok hp (at_linkOk h), at_performed]
    rfl

/-- A row of one panel command and WaitIdle. -/
theorem runRows_commandWait {s : State} {es : List Event} {ph : Phase} {po : Nat} {q : Seq} {op : HostOp} {n m : Nat}
    {p : PanelCommand} {rs : List Row} (hp : hasParams p = true)
    (h : s.linkOk (es.countP Event.asksLink + (1 + (panelParams s.cfg p).length)))
    (hb : s.holdsBusy (es.countP Event.isPoll) m) :
    runRows op n (commandWaitRow p :: rs) (s.at es ph po q) = runRows op (n + 1) rs
      (s.at (es ++ (Script.command (p.code s.cfg) (panelParams s.cfg p) ++ Script.wait s.cfg m)) ph (m + 1)
        (.run op n)) := by
  rw [runRows_cons_done (t := s.at (es ++ (Script.command (p.code s.cfg) (panelParams s.cfg p) ++ Script.wait s.cfg m))
    ph (m + 1) (.run op n)) ?_]
  · rfl
  · show (panelCommand p (s.at es ph po (.run op n))).andThen waitIdle = _
    rw [commandWait_of_ok hp (at_linkOk h) (at_holdsBusy hb), at_performed]
    rfl

/-- A row of one WaitIdle. -/
theorem runRows_wait {s : State} {es : List Event} {ph : Phase} {po : Nat} {q : Seq} {op : HostOp} {n m : Nat}
    {rs : List Row} (hb : s.holdsBusy (es.countP Event.isPoll) m) :
    runRows op n ({ body := waitIdle } :: rs) (s.at es ph po q) = runRows op (n + 1) rs
      (s.at (es ++ Script.wait s.cfg m) ph (m + 1) (.run op n)) := by
  rw [runRows_cons_done (t := s.at (es ++ Script.wait s.cfg m) ph (m + 1) (.run op n)) ?_]
  · rfl
  · show waitIdle (s.at es ph po (.run op n)) = _
    rw [waitIdle_of_release (at_holdsBusy hb), at_performed]
    rfl

/-- A row of PrepareDraw. -/
theorem runRows_prepareDraw {s : State} {es : List Event} {ph : Phase} {po : Nat} {q : Seq} {op : HostOp} {n : Nat}
    {post : State → State} {rs : List Row} (h : s.linkOk (es.countP Event.asksLink + 3)) :
    runRows op n ({ body := prepareDraw, post := post } :: rs) (s.at es ph po q) = runRows op (n + 1) rs
      (post (s.at (es ++ Script.prepareDraw s.cfg) ph po (.run op n))) := by
  rw [runRows_cons_done (t := s.at (es ++ Script.prepareDraw s.cfg) ph po (.run op n)) ?_]
  show prepareDraw (s.at es ph po (.run op n)) = _
  rw [prepareDraw_of_ok (at_linkOk h), at_performed]
  rfl

/-- A row of TurnOnDisplay. -/
theorem runRows_turnOn {s : State} {es : List Event} {ph : Phase} {po : Nat} {q : Seq} {op : HostOp} {n m : Nat}
    {post : State → State} {rs : List Row} (h : s.linkOk (es.countP Event.asksLink + 3))
    (hb : s.holdsBusy (es.countP Event.isPoll) m) :
    runRows op n ({ body := turnOnDisplay, post := post } :: rs) (s.at es ph po q) = runRows op (n + 1) rs
      (post (s.at (es ++ Script.turnOn s.cfg m) ph (m + 1) (.run op n))) := by
  rw [runRows_cons_done (t := s.at (es ++ Script.turnOn s.cfg m) ph (m + 1) (.run op n)) ?_]
  show turnOnDisplay (s.at es ph po (.run op n)) = _
  rw [turnOnDisplay_of_ok (at_linkOk h) (at_holdsBusy hb), at_performed]
  rfl

/-! ### Rows that stream -/

/-- `s` inside an operation after the events `es`, with the stream index, the poll count and the position given. -/
def State.mid (s : State) (es : List Event) (k po : Nat) (q : Seq) : State :=
  { s.performed es with k := k, polls := po, seq := q }

theorem mid_linkOk {s : State} {es : List Event} {k po : Nat} {q : Seq} {m : Nat}
    (h : s.linkOk (es.countP Event.asksLink + m)) : (s.mid es k po q).linkOk m :=
  linkOk_performed (s := s) h

theorem mid_holdsBusy {s : State} {es : List Event} {k po : Nat} {q : Seq} {n : Nat}
    (h : s.holdsBusy (es.countP Event.isPoll) n) : (s.mid es k po q).holdsBusy 0 n :=
  holdsBusy_performed (s := s) h

theorem mid_performed (s : State) (es fs : List Event) (k po : Nat) (q : Seq) :
    (s.mid es k po q).performed fs = s.mid (es ++ fs) k po q := by
  simp [State.mid, State.performed]

/-- A row of one command frame. -/
theorem runRows_commandFrame {s : State} {es : List Event} {k po : Nat} {q : Seq} {op : HostOp} {n : Nat} {code : Byte}
    {rs : List Row} (h : s.linkOk (es.countP Event.asksLink + 1)) :
    runRows op n ({ body := sendCommand code } :: rs) (s.mid es k po q) =
      runRows op (n + 1) rs (s.mid (es ++ Script.C code) k po (.run op n)) := by
  rw [runRows_cons_done (t := s.mid (es ++ Script.C code) k po (.run op n))]
  · rfl
  · show sendCommand code (s.mid es k po (.run op n)) = _
    rw [sendCommand_of_ok _ (mid_linkOk h 0 (by omega)), mid_performed]

/-- A row of StreamFill. -/
theorem runRows_fill {s : State} {es : List Event} {k po : Nat} {q : Seq} {op : HostOp} {n : Nat} {v : Byte}
    {rs : List Row} (h : s.linkOk (es.countP Event.asksLink + s.cfg.planeBytes)) :
    runRows op n ({ body := streamFill v } :: rs) (s.mid es k po q) = runRows op (n + 1) rs
      (s.mid (es ++ Script.data (List.replicate s.cfg.planeBytes v)) s.cfg.planeBytes po (.run op n)) := by
  rw [runRows_cons_done
    (t := s.mid (es ++ Script.data (List.replicate s.cfg.planeBytes v)) s.cfg.planeBytes po (.run op n))]
  · rfl
  · show streamFill v (s.mid es k po (.run op n)) = _
    rw [streamFill_of_ok _ (mid_linkOk h), mid_performed]
    rfl

/-- A row of Convert: another base state, its converter changed. -/
theorem runRows_convert {s : State} {es : List Event} {k po : Nat} {q : Seq} {op : HostOp} {n : Nat} (img : Image)
    {rs : List Row} (hg : s.cfg.geometryOk = true) :
    ∃ u : State, u = { s with acc := 0, pb := u.pb, i := u.i, j := u.j, draws := s.draws + 1 } ∧
      (∀ a < s.cfg.planeBytes, u.pb.byteAt a = Script.planeByte s.cfg img a) ∧
      u.i < s.cfg.width ∧ u.j < s.cfg.height ∧
      runRows op n ({ body := convertOperand (some img) } :: rs) (s.mid es k po q) =
        runRows op (n + 1) rs (u.mid es k po (.run op n)) := by
  obtain ⟨t, h1, h2, _, h4, h5, h6⟩ := convert_done (s := s.mid es k po (.run op n)) img hg
  refine ⟨{ s with acc := 0, pb := t.pb, i := t.i, j := t.j, draws := s.draws + 1 }, rfl, h2, h4, h5, ?_⟩
  rw [runRows_cons_done (t := t)]
  · exact congrArg (runRows op (n + 1) rs) h6
  · exact h1

/-- A row that sends the plane buffer. -/
theorem runRows_buffer {s : State} {es : List Event} {k po : Nat} {q : Seq} {op : HostOp} {n : Nat} {code : Byte}
    {f : PlaneXform} (img : Image) {rs : List Row}
    (h : s.linkOk (es.countP Event.asksLink + (1 + s.cfg.planeBytes))) :
    runRows op n ({ body := streamOperand code f (some img) } :: rs) (s.mid es k po q) = runRows op (n + 1) rs
      (s.mid (es ++ Script.command code (s.bufferBytes.map (Script.sentByte f))) s.cfg.planeBytes po (.run op n)) := by
  rw [runRows_cons_done (t := s.mid (es ++ Script.command code (s.bufferBytes.map (Script.sentByte f)))
    s.cfg.planeBytes po (.run op n))]
  · rfl
  · show (sendCommand code (s.mid es k po (.run op n))).andThen (streamPlane f) = _
    rw [bufferCommand_of_ok _ _ (mid_linkOk h), mid_performed]
    rfl

/-- A row that does nothing. -/
theorem runRows_absent {s : State} {es : List Event} {k po : Nat} {q : Seq} {op : HostOp} {n : Nat} {r : Row}
    {rs : List Row} (h : ∀ t, r.body t = .done t) (hp : ∀ t, r.post t = t) :
    runRows op n (r :: rs) (s.mid es k po q) = runRows op (n + 1) rs (s.mid es k po (.run op n)) := by
  rw [runRows_cons_done (t := s.mid es k po (.run op n)), hp]
  exact h _

/-- A converted buffer holds the script's plane. -/
theorem bufferBytes_of_converted {s : State} {img : Image}
    (h : ∀ a < s.cfg.planeBytes, s.pb.byteAt a = Script.planeByte s.cfg img a) :
    s.bufferBytes = Script.plane s.cfg img := by
  unfold State.bufferBytes Script.plane
  exact List.map_congr_left fun a ha => h a (List.mem_range.mp ha)

/-- What the two rows of an operand send. -/
def operandScript (code : Byte) (f : PlaneXform) (c : Cfg) : Option Image → List Event
  | some img => Script.command code ((Script.plane c img).map (Script.sentByte f))
  | none => []

/-- The two rows of an operand, convert and stream: another base state, its converter changed if the operand is
supplied. -/
theorem runRows_operand {s : State} {es : List Event} {k po : Nat} {q : Seq} {op : HostOp} {n : Nat} (code : Byte)
    (f : PlaneXform) (img : Option Image) (rs : List Row) (hg : s.cfg.geometryOk = true)
    (h : s.linkOk (es.countP Event.asksLink + Script.planeFrames s.cfg img)) :
    ∃ u : State, u = { s with
        acc := if img.isSome then 0 else s.acc, pb := u.pb, i := u.i, j := u.j
        draws := s.draws + img.toList.length } ∧
      (∀ x, img = some x → ∀ a < s.cfg.planeBytes, u.pb.byteAt a = Script.planeByte s.cfg x a) ∧
      (img = none → u.pb = s.pb ∧ u.i = s.i ∧ u.j = s.j) ∧
      (img.isSome = true → u.i < s.cfg.width ∧ u.j < s.cfg.height) ∧
      runRows op n ({ body := convertOperand img } :: { body := streamOperand code f img } :: rs) (s.mid es k po q) =
        runRows op (n + 2) rs (u.mid (es ++ operandScript code f s.cfg img)
          (if img.isSome then s.cfg.planeBytes else k) po (.run op (n + 1))) := by
  cases img with
  | none =>
    refine ⟨s, rfl, by simp, by simp, by simp, ?_⟩
    rw [runRows_absent (fun _ => rfl) (fun _ => rfl), runRows_absent (fun _ => rfl) (fun _ => rfl)]
    simp [operandScript]
  | some img =>
    obtain ⟨u, hu, hb, hi, hj, e⟩ := runRows_convert (s := s) (es := es) (k := k) (po := po) (q := q) (op := op)
      (n := n) img (rs := { body := streamOperand code f (some img) } :: rs) hg
    have hc : u.cfg = s.cfg := by rw [hu]
    have hl : u.linkOk (es.countP Event.asksLink + (1 + u.cfg.planeBytes)) := by
      unfold State.linkOk
      rw [hc, hu]
      exact h
    refine ⟨u, hu, ?_, by simp, fun _ => ⟨hi, hj⟩, ?_⟩
    · intro x hx
      cases hx
      exact hb
    · rw [e, runRows_buffer img hl, bufferBytes_of_converted (img := img) (by rwa [hc]), hc]
      rfl

/-! ### Dispatch -/

/-- An operation that a ready block may run (R249). -/
theorem dispatch_of_ready {s : State} {op : HostOp} (h : s.ready) (hop : op ≠ .setup) (hm : s.mayRun op) :
    dispatch op s = (runOp op { s with violation := s.violationAfter op }).outcome := by
  obtain ⟨h1, h2, h3, h4, h5⟩ := h
  have hr : s.running = false := by simp [State.running, h1, h2]
  have hf : refusedHere op s = false := by simp [refusedHere, h1, h3, h4, hop]
  rw [dispatch, if_neg (by simp [hr]), if_neg (by simp [hf])]
  by_cases hl : legalIn op s.phase = true
  · rw [if_pos hl]; simp [State.violationAfter, hl]
  · rw [if_neg hl, if_neg (by rcases hm with hm | hm; exact absurd hm hl; simp [hm])]
    simp [State.violationAfter, hl]

/-- The end of an operation of a block that is not halted. -/
theorem endOp_at {s : State} (hs : s.seq = .idle) (hf : s.fatal = false) (hw : s.waiting = false) (es : List Event)
    (ph p : Phase) (po : Nat) (q : Seq) :
    endOp (setPhase p (s.at es ph po q)) = { s.performed es with phase := p, polls := po } := by
  simp [endOp, setSeq, setPhase, State.at, State.performed, hs, hf, hw]

end Sys2Proof.Machine
end

