-- ==== Sys2Proof/Laws/Operations.lean ====
section
/-! SUPPORT. What a whole operation can do, from its first row or from any later one: the events it appends, how it ends,
and what becomes of position, flags and phase. The invariants over steps follow from it. -/

namespace Sys2Proof.Machine

/-! ### Pieces that never wait -/

/-- A piece that has no WaitIdle in it. -/
def NeverWaits (f : State → Flow) : Prop := ∀ s t, f s ≠ .waits t

theorem NeverWaits.andThen {f : State → Flow} {g : State → Flow} (hf : NeverWaits f) (hg : NeverWaits g) :
    NeverWaits fun s => (f s).andThen g := by
  intro s t h
  cases hx : f s with
  | done u => simp only [hx, Flow.done_andThen] at h; exact hg u t h
  | trapped u => simp [hx] at h
  | waits u => exact hf s u hx
  | fault e => simp [hx] at h

theorem NeverWaits.done (f : State → State) : NeverWaits fun s => .done (f s) := fun _ _ h => by cases h

theorem NeverWaits.forFrom {f : Nat → State → Flow} (h : ∀ a, NeverWaits (f a)) :
    ∀ n a, NeverWaits (forFrom a n f)
  | 0, _ => fun _ _ h => by cases h
  | n + 1, a => NeverWaits.andThen (h a) (NeverWaits.forFrom h n (a + 1))

theorem openBus_neverWaits : NeverWaits openBus := by
  intro s t h
  unfold openBus at h
  split at h <;> cases h

theorem frame_neverWaits (mode : Level) (v : Byte) : NeverWaits (frame mode v) := by
  intro s t h
  rcases frame_cases mode v s with e | e <;> rw [e] at h <;> cases h

theorem sendAll_neverWaits : ∀ vs, NeverWaits (sendAll vs)
  | [] => NeverWaits.done id
  | v :: vs => NeverWaits.andThen (frame_neverWaits .high v) (sendAll_neverWaits vs)

theorem streamByte_neverWaits (v : Byte) : NeverWaits (streamByte v) :=
  NeverWaits.andThen (frame_neverWaits .high v) (NeverWaits.done _)

theorem streamFill_neverWaits (v : Byte) : NeverWaits (streamFill v) :=
  fun s t h => NeverWaits.forFrom (fun _ => streamByte_neverWaits v) s.cfg.planeBytes 0 _ t h

theorem streamPlane_neverWaits (f : PlaneXform) : NeverWaits (streamPlane f) := by
  intro s t h
  refine NeverWaits.forFrom (f := fun a => memRead a fun b => streamByte (PlaneXform.apply f b)) ?_
    s.cfg.planeBytes 0 _ t h
  intro a s t h
  unfold memRead at h
  split at h
  · exact streamByte_neverWaits _ _ _ h
  · cases h

theorem panelData_neverWaits (p : PanelCommand) : NeverWaits (panelData p) := by
  intro s t
  unfold panelData
  split
  · exact streamFill_neverWaits _ s t
  · exact streamPlane_neverWaits _ s t
  · exact streamFill_neverWaits _ s t
  · exact streamPlane_neverWaits _ s t
  · exact sendAll_neverWaits _ s t

theorem panelCommand_neverWaits (p : PanelCommand) : NeverWaits (panelCommand p) :=
  fun s t h => NeverWaits.andThen (frame_neverWaits .low (p.code s.cfg)) (panelData_neverWaits p) s t h

theorem convert_neverWaits (img : Image) : NeverWaits (convert img) := by
  intro s t h
  cases hg : forFrom 0 s.cfg.height (convertRow img) { s with acc := 0 } with
  | waits u =>
    refine NeverWaits.forFrom (f := convertRow img) (fun j => ?_) s.cfg.height 0 _ u hg
    intro s t h
    refine NeverWaits.forFrom (f := convertPixel img j) (fun i => ?_) s.cfg.width 0 _ t h
    intro s t h
    unfold convertPixel storeGroup memWrite at h
    split at h
    · split at h <;> cases h
    · cases h
  | done u => rw [convert, hg] at h; cases h
  | trapped u => rw [convert, hg] at h; cases h
  | fault e => rw [convert, hg] at h; cases h

/-! ### Rows -/

/-- What the last row of an operation records. -/
def finish : HostOp → State → State
  | .setup, s => { s with opened := true }
  | .initPanel, s => setPhase .initialized s
  | .clear, s => setPhase .cleared s
  | .display _ _, s => setPhase .displaying s
  | .sleep, s => setPhase .sleeping s
  | .teardown, s => { s with opened := false, torn := true }

/-- What a row does before its events: the first row of Initialize sets the phase. -/
def rowStart (op : HostOp) (n : Nat) (s : State) : State :=
  if op = .initPanel ∧ n = 0 then setPhase .inReset s else s

/-- What there is to know about row `n` of `op`. -/
structure RowFacts (op : HostOp) (n : Nat) (r : Row) : Prop where
  piece : ∀ (P : Byte → Prop) (s : State), (∀ v ∈ Script.codes s.cfg, P v) → Piece P (rowStart op n s) (r.body s)
  waits : ∀ s t, r.body s = .waits t → waitRow op n = true
  post : ∀ t, r.post t = if n + 1 = (rowsOf op).length then finish op t else t

theorem commandRow_piece {P : Byte → Prop} (p : PanelCommand) (s : State) (h : ∀ v ∈ Script.codes s.cfg, P v) :
    Piece P s (panelCommand p s) := panelCommand_piece p s (h _ (panelCode_mem s.cfg p))

theorem turnOn_piece {P : Byte → Prop} (s : State) (h : ∀ v ∈ Script.codes s.cfg, P v) :
    Piece P s (turnOnDisplay s) :=
  turnOnDisplay_piece s (h _ (panelCode_mem s.cfg (.displayUpdateControl .turnOn))) (h _ (panelCode_mem s.cfg .activate))

theorem quiet_piece {P : Byte → Prop} {s : State} {es : List Event} (h : Chunks P es) :
    Piece P s (.done (s.performed es)) := Ran.performed s h

theorem rowFacts (op : HostOp) (n : Nat) (r : Row) (h : (rowsOf op)[n]? = some r) : RowFacts op n r := by
  have command : ∀ (n : Nat) (p : PanelCommand), n + 1 ≠ 16 → n ≠ 0 → RowFacts .initPanel n (commandRow p) :=
    fun n p h1 h2 => ⟨fun P s hP => by simpa [rowStart, h2, commandRow] using commandRow_piece p s hP,
      fun s t h => absurd h (panelCommand_neverWaits p s t), fun t => by simp [rowsOf, initRows, commandRow, h1]⟩
  have commandWait : ∀ (n : Nat) (p : PanelCommand), n = 1 ∨ n = 2 ∨ n = 3 →
      RowFacts .initPanel n (commandWaitRow p) :=
    fun n p h1 => ⟨fun P s hP => by
        have h2 : n ≠ 0 := by omega
        simpa [rowStart, h2, commandWaitRow] using Piece.andThen (commandRow_piece p s hP) fun t _ => waitIdle_piece t,
      fun s t _ => by rcases h1 with rfl | rfl | rfl <;> rfl,
      fun t => by rcases h1 with rfl | rfl | rfl <;> rfl⟩
  have prepare : ∀ {P : Byte → Prop} (s : State), (∀ v ∈ Script.codes s.cfg, P v) → Piece P s (prepareDraw s) :=
    fun s hP => commandRow_piece .ramAddressCounter s hP
  have preparedNo : NeverWaits prepareDraw := panelCommand_neverWaits .ramAddressCounter
  have black : ∀ c, Params.codeWriteBlack ∈ Script.codes c := fun c => panelCode_mem c (.writeBlackPlane .fill)
  have red : ∀ c, Params.codeWriteRed ∈ Script.codes c := fun c => panelCode_mem c (.writeRedPlane .fill)
  cases op with
  | setup =>
    match n with
    | 0 => cases h; exact ⟨fun P s _ => openBus_piece s, fun s t h => absurd h (openBus_neverWaits s t), fun _ => rfl⟩
    | n + 1 => simp [rowsOf, setupRows] at h
  | sleep =>
    match n with
    | 0 =>
      cases h
      exact ⟨fun P s hP => commandRow_piece .deepSleep s hP, fun s t h => absurd h (panelCommand_neverWaits _ s t),
        fun _ => rfl⟩
    | n + 1 => simp [rowsOf, sleepRows] at h
  | teardown =>
    match n with
    | 0 =>
      cases h
      refine ⟨fun P s _ => ?_, fun s t h => (by cases h), fun _ => rfl⟩
      exact quiet_piece (s := s) (es := [.endTransaction]) (.ofQuiet rfl rfl)
    | 1 =>
      cases h
      refine ⟨fun P s _ => ?_, fun s t h => (by cases h), fun _ => rfl⟩
      show Piece P s (.done _)
      rw [driveLine_eq_performed, driveLine_eq_performed, driveLine_eq_performed, performed_append, performed_append]
      exact quiet_piece (.quiet _ rfl rfl (.quiet _ rfl rfl (.quiet _ rfl rfl .nil)))
    | 2 =>
      cases h
      refine ⟨fun P s _ => ?_, fun s t h => (by cases h), fun _ => rfl⟩
      exact quiet_piece (s := s) (es := [.closeBus]) (.ofQuiet rfl rfl)
    | n + 3 => simp [rowsOf, teardownRows] at h
  | clear =>
    match n with
    | 0 => cases h; exact ⟨fun P s hP => prepare s hP, fun s t h => absurd h (preparedNo s t), fun _ => rfl⟩
    | 1 =>
      cases h
      exact ⟨fun P s hP => sendCommand_piece s (hP _ (black _)), fun s t h => absurd h (frame_neverWaits _ _ s t),
        fun _ => rfl⟩
    | 2 => cases h; exact ⟨fun P s _ => streamFill_piece _ s, fun s t h => absurd h (streamFill_neverWaits _ s t), fun _ => rfl⟩
    | 3 =>
      cases h
      exact ⟨fun P s hP => sendCommand_piece s (hP _ (red _)), fun s t h => absurd h (frame_neverWaits _ _ s t),
        fun _ => rfl⟩
    | 4 => cases h; exact ⟨fun P s _ => streamFill_piece _ s, fun s t h => absurd h (streamFill_neverWaits _ s t), fun _ => rfl⟩
    | 5 => cases h; exact ⟨fun P s hP => turnOn_piece s hP, fun _ _ _ => rfl, fun _ => rfl⟩
    | n + 6 => simp [rowsOf, clearRows] at h
  | display b r =>
    have conv : ∀ {P : Byte → Prop} (img : Option Image) (s : State), Piece P s (convertOperand img s) := by
      intro P img s
      cases img
      · exact Piece.done (.rfl P s)
      · exact convert_piece _ s
    have convNo : ∀ img, NeverWaits (convertOperand img) := by
      intro img s t h
      cases img
      · cases h
      · exact convert_neverWaits _ s t h
    have stream : ∀ {P : Byte → Prop} (code : Byte) (f : PlaneXform) (img : Option Image) (s : State), P code →
        Piece P s (streamOperand code f img s) := by
      intro P code f img s h
      cases img
      · exact Piece.done (.rfl P s)
      · exact Piece.andThen (sendCommand_piece s h) fun t _ => streamPlane_piece f t
    have streamNo : ∀ code f img, NeverWaits (streamOperand code f img) := by
      intro code f img s t h
      cases img
      · cases h
      · exact NeverWaits.andThen (frame_neverWaits .low code) (streamPlane_neverWaits f) s t h
    match n with
    | 0 => cases h; exact ⟨fun P s hP => prepare s hP, fun s t h => absurd h (preparedNo s t), fun _ => rfl⟩
    | 1 => cases h; exact ⟨fun P s _ => conv _ s, fun s t h => absurd h (convNo _ s t), fun _ => rfl⟩
    | 2 =>
      cases h
      exact ⟨fun P s hP => stream _ _ _ s (hP _ (black _)), fun s t h => absurd h (streamNo _ _ _ s t), fun _ => rfl⟩
    | 3 => cases h; exact ⟨fun P s _ => conv _ s, fun s t h => absurd h (convNo _ s t), fun _ => rfl⟩
    | 4 =>
      cases h
      exact ⟨fun P s hP => stream _ _ _ s (hP _ (red _)), fun s t h => absurd h (streamNo _ _ _ s t), fun _ => rfl⟩
    | 5 => cases h; exact ⟨fun P s hP => turnOn_piece s hP, fun _ _ _ => rfl, fun _ => rfl⟩
    | n + 6 => simp [rowsOf, displayRows] at h
  | initPanel =>
    match n with
    | 0 =>
      cases h
      refine ⟨fun P s _ => ?_, fun s t h => (by cases h), fun _ => rfl⟩
      exact Piece.done (resetPulse_ran (setPhase .inReset s))
    | 1 => cases h; exact commandWait 1 _ (by omega)
    | 2 => cases h; exact commandWait 2 _ (by omega)
    | 3 => cases h; exact commandWait 3 _ (by omega)
    | 4 => cases h; exact command 4 _ (by omega) (by omega)
    | 5 => cases h; exact command 5 _ (by omega) (by omega)
    | 6 => cases h; exact command 6 _ (by omega) (by omega)
    | 7 => cases h; exact command 7 _ (by omega) (by omega)
    | 8 => cases h; exact command 8 _ (by omega) (by omega)
    | 9 => cases h; exact command 9 _ (by omega) (by omega)
    | 10 => cases h; exact command 10 _ (by omega) (by omega)
    | 11 => cases h; exact command 11 _ (by omega) (by omega)
    | 12 => cases h; exact command 12 _ (by omega) (by omega)
    | 13 => cases h; exact ⟨fun P s _ => waitIdle_piece s, fun _ _ _ => rfl, fun _ => rfl⟩
    | 14 => cases h; exact command 14 _ (by omega) (by omega)
    | 15 => cases h; exact ⟨fun P s hP => prepare s hP, fun s t h => absurd h (preparedNo s t), fun _ => rfl⟩
    | n + 16 => simp [rowsOf, initRows] at h

/-! ### Operations -/

/-- Between rows of `op`: what was true at `s`, the state at its start. -/
structure Between (P : Byte → Prop) (op : HostOp) (s t : State) : Prop where
  cfg : t.cfg = s.cfg
  inbox : t.inbox = s.inbox
  opened : t.opened = s.opened
  torn : t.torn = s.torn
  violation : t.violation = s.violation
  phase : t.phase = s.phase ∨ op = .initPanel ∧ t.phase = .inReset
  plane : s.planeOk → t.planeOk
  logged : ∃ es, Chunks P es ∧ Logged s t es
  haltedAt : t.haltedAt = s.haltedAt
  fatal : t.fatal = s.fatal
  err : t.err = s.err
  waiting : t.waiting = s.waiting ∨ t.waiting = false

/-- An operation that ran to its end, begun at `s`. -/
def Ended (P : Byte → Prop) (op : HostOp) (s t : State) : Prop := ∃ u, Between P op s u ∧ t = endOp (finish op u)

/-- An operation that an answer `fail` ended in one of its rows. -/
structure Halted (P : Byte → Prop) (op : HostOp) (s t : State) : Prop where
  cfg : t.cfg = s.cfg
  inbox : t.inbox = s.inbox
  opened : t.opened = s.opened
  torn : t.torn = s.torn
  violation : t.violation = s.violation
  phase : t.phase = s.phase ∨ op = .initPanel ∧ t.phase = .inReset
  plane : s.planeOk → t.planeOk
  logged : ∃ es fs, Chunks P es ∧ Broken P fs t.err ∧ Logged s t (es ++ fs)
  seq : t.seq = .halted
  haltedAt : ∃ row < (rowsOf op).length, t.haltedAt = some (op, row)
  fatal : t.fatal = true
  waiting : t.waiting = s.waiting ∨ t.waiting = false

/-- An operation that polls on in one of its rows. -/
def Suspended (P : Byte → Prop) (op : HostOp) (s t : State) : Prop :=
  ∃ u row, Between P op s u ∧ waitRow op row = true ∧ t = { u with seq := .run op row, waiting := true }

theorem Between.rfl (P : Byte → Prop) (op : HostOp) (s : State) : Between P op s s :=
  ⟨.refl _, .refl _, .refl _, .refl _, .refl _, .inl (.refl _), id, ⟨[], .nil, .nil s⟩, .refl _, .refl _, .refl _,
    .inl (.refl _)⟩

/-- What a row starts from. -/
theorem Between.start {P : Byte → Prop} {op : HostOp} {s t : State} (h : Between P op s t) (n : Nat) (q : Seq) :
    Between P op s (rowStart op n (setSeq q t)) := by
  have hq : Between P op s (setSeq q t) :=
    ⟨h.cfg, h.inbox, h.opened, h.torn, h.violation, h.phase, h.plane,
      h.logged.imp fun es he => ⟨he.1, ⟨he.2.trace, he.2.rst, he.2.dc, he.2.cs⟩⟩, h.haltedAt, h.fatal, h.err, h.waiting⟩
  unfold rowStart
  split
  · next hc =>
    exact ⟨hq.cfg, hq.inbox, hq.opened, hq.torn, hq.violation, .inr ⟨hc.1, .refl _⟩, hq.plane,
      hq.logged.imp fun es he => ⟨he.1, ⟨he.2.trace, he.2.rst, he.2.dc, he.2.cs⟩⟩, hq.haltedAt, hq.fatal, hq.err,
      hq.waiting⟩
  · exact hq

theorem phase_trans {op : HostOp} {p q r : Phase} (h : q = p ∨ op = .initPanel ∧ q = .inReset) (g : r = q) :
    r = p ∨ op = .initPanel ∧ r = .inReset := by
  rw [g]; exact h

theorem waiting_trans {a b c : Bool} (h : b = a ∨ b = false) (g : c = b ∨ c = false) : c = a ∨ c = false := by
  rcases g with g | g
  · rw [g]; exact h
  · exact .inr g

theorem Between.ran {P : Byte → Prop} {op : HostOp} {s t u : State} (h : Between P op s t) (g : Ran P t u) :
    Between P op s u := by
  obtain ⟨es, he, hl⟩ := h.logged
  obtain ⟨g1, ⟨fs, hf, gl⟩, _, g4, g5, g6, g7⟩ := g
  exact ⟨g1.cfg.trans h.cfg, g1.inbox.trans h.inbox, g1.opened.trans h.opened, g1.torn.trans h.torn,
    g1.violation.trans h.violation, phase_trans h.phase g1.phase, fun hp => g1.plane (h.plane hp),
    ⟨_, he.append hf, hl.trans gl⟩, g4.trans h.haltedAt, g5.trans h.fatal, g6.trans h.err, waiting_trans h.waiting g7⟩

theorem Between.broke {P : Byte → Prop} {op : HostOp} {s t u : State} {n : Nat} (h : Between P op s t)
    (hq : t.seq = .run op n) (hn : n < (rowsOf op).length) (g : Broke P t u) : Halted P op s u := by
  obtain ⟨es, he, hl⟩ := h.logged
  obtain ⟨g1, ⟨fs, gs, hf, hb, gl⟩, g3, g4, g5, g7⟩ := g
  refine ⟨g1.cfg.trans h.cfg, g1.inbox.trans h.inbox, g1.opened.trans h.opened, g1.torn.trans h.torn,
    g1.violation.trans h.violation, phase_trans h.phase g1.phase, fun hp => g1.plane (h.plane hp),
    ⟨_, gs, he.append hf, hb, ?_⟩, g3, ⟨n, hn, ?_⟩, g5, waiting_trans h.waiting g7⟩
  · rw [List.append_assoc]; exact hl.trans gl
  · rw [g4, State.position, hq]

theorem Between.hung {P : Byte → Prop} {op : HostOp} {s t u : State} {n : Nat} (h : Between P op s t)
    (hq : t.seq = .run op n) (hw : waitRow op n = true) (g : Hung P t u) : Suspended P op s u := by
  obtain ⟨es, he, hl⟩ := h.logged
  obtain ⟨g1, ⟨fs, hf, gl⟩, g3, g4, g5, g6, g7⟩ := g
  refine ⟨{ u with waiting := false }, n, ⟨g1.cfg.trans h.cfg, g1.inbox.trans h.inbox, g1.opened.trans h.opened,
    g1.torn.trans h.torn, g1.violation.trans h.violation, phase_trans h.phase g1.phase,
    fun hp => g1.plane (h.plane hp), ⟨_, he.append hf, ?_⟩, g4.trans h.haltedAt, g5.trans h.fatal, g6.trans h.err,
    .inr (.refl _)⟩, hw, ?_⟩
  · exact ⟨(hl.trans gl).trace, (hl.trans gl).rst, (hl.trans gl).dc, (hl.trans gl).cs⟩
  · rw [← g7, show Seq.run op n = u.seq from (g3.trans hq).symm]

/-- The rows of an operation, from any of them on. -/
theorem runRows_facts {P : Byte → Prop} {op : HostOp} {s : State} (hP : ∀ v ∈ Script.codes s.cfg, P v) :
    ∀ (k n : Nat) (t : State), n + k + 1 = (rowsOf op).length → Between P op s t →
      (runRows op n ((rowsOf op).drop n) t).Sat (Ended P op s) (Halted P op s) (Suspended P op s) := by
  intro k
  induction k with
  | zero =>
    intro n t hn h
    obtain ⟨r, hr⟩ : ∃ r, (rowsOf op)[n]? = some r := ⟨_, List.getElem?_eq_getElem (by omega)⟩
    have hd : (rowsOf op).drop n = [r] := by
      rw [List.drop_eq_getElem_cons (by omega), List.drop_eq_nil_of_le (by omega)]
      rw [List.getElem?_eq_getElem (by omega)] at hr
      rw [Option.some.inj hr]
    have facts := rowFacts op n r hr
    have hs := h.start n (.run op n)
    have hq : (rowStart op n (setSeq (.run op n) t)).seq = .run op n := by unfold rowStart; split <;> rfl
    have hp := facts.piece P (setSeq (.run op n) t) (by rw [setSeq_cfg, h.cfg]; exact hP)
    rw [hd, runRows]
    cases hb : r.body (setSeq (.run op n) t) with
    | done u =>
      rw [hb] at hp
      refine ⟨u, hs.ran hp, ?_⟩
      rw [facts.post, if_pos (by omega)]
    | trapped u => rw [hb] at hp; exact hs.broke hq (by omega) hp
    | waits u => rw [hb] at hp; exact hs.hung hq (facts.waits _ _ hb) hp
    | fault e => rw [hb] at hp; exact hp.elim
  | succ k ih =>
    intro n t hn h
    obtain ⟨r, hr⟩ : ∃ r, (rowsOf op)[n]? = some r := ⟨_, List.getElem?_eq_getElem (by omega)⟩
    have hd : (rowsOf op).drop n = r :: (rowsOf op).drop (n + 1) := by
      rw [List.drop_eq_getElem_cons (by omega)]
      rw [List.getElem?_eq_getElem (by omega)] at hr
      rw [Option.some.inj hr]
    have facts := rowFacts op n r hr
    have hs := h.start n (.run op n)
    have hq : (rowStart op n (setSeq (.run op n) t)).seq = .run op n := by unfold rowStart; split <;> rfl
    have hp := facts.piece P (setSeq (.run op n) t) (by rw [setSeq_cfg, h.cfg]; exact hP)
    rw [hd, runRows]
    cases hb : r.body (setSeq (.run op n) t) with
    | done u =>
      rw [hb] at hp
      rw [Flow.done_andThen, facts.post, if_neg (by omega)]
      exact ih (n + 1) u (by omega) (hs.ran hp)
    | trapped u => rw [hb] at hp; exact hs.broke hq (by omega) hp
    | waits u => rw [hb] at hp; exact hs.hung hq (facts.waits _ _ hb) hp
    | fault e => rw [hb] at hp; exact hp.elim

theorem rowsOf_length_pos (op : HostOp) : 0 < (rowsOf op).length := by
  cases op <;> simp [rowsOf, setupRows, initRows, clearRows, displayRows, sleepRows, teardownRows]

/-- What a whole operation can do. -/
theorem runOp_facts {P : Byte → Prop} (op : HostOp) (s : State) (hP : ∀ v ∈ Script.codes s.cfg, P v) :
    (runOp op s).Sat (Ended P op s) (Halted P op s) (Suspended P op s) := by
  have := runRows_facts hP ((rowsOf op).length - 1) 0 s (by have := rowsOf_length_pos op; omega) (.rfl P op s)
  rwa [List.drop_zero] at this

end Sys2Proof.Machine
end

