-- ==== Sys2Proof/Laws/Steps.lean ====
section
/-! SUPPORT. What an instruction and a step can do: the cases of dispatch and of going on, and the weakest fact that
holds of all of them. -/

namespace Sys2Proof.Machine

/-- The events of one instruction: whole frames and quiet events, and at most one broken end. -/
def StepEvents (P : Byte → Prop) (es : List Event) : Prop :=
  Chunks P es ∨ ∃ fs gs e, Chunks P fs ∧ Broken P gs e ∧ es = fs ++ gs

/-- What every instruction does at most. -/
structure Went (P : Byte → Prop) (s t : State) : Prop where
  cfg : t.cfg = s.cfg
  inbox : t.inbox = s.inbox
  torn : s.torn = true → t.torn = true
  fatal : s.fatal = true → t.fatal = true
  violation : s.violation = true → t.violation = true
  plane : s.planeOk → t.planeOk
  logged : ∃ es, StepEvents P es ∧ Logged s t es

theorem Went.rfl (P : Byte → Prop) (s : State) : Went P s s :=
  ⟨.refl _, .refl _, id, id, id, id, ⟨[], .inl .nil, .nil s⟩⟩

theorem Logged.congr {s t u : State} {es : List Event} (h : Logged s t es) (h1 : u.trace = t.trace) (h2 : u.rst = t.rst)
    (h3 : u.dc = t.dc) (h4 : u.cs = t.cs) : Logged s u es :=
  ⟨h1.trans h.trace, h2.trans h.rst, h3.trans h.dc, h4.trans h.cs⟩

theorem Ran.went {P : Byte → Prop} {s t : State} (h : Ran P s t) : Went P s t := by
  obtain ⟨h1, ⟨es, he, hl⟩, h3, h4, h5, h6, h7⟩ := h
  exact ⟨h1.cfg, h1.inbox, by rw [h1.torn]; exact id, by rw [h5]; exact id, by rw [h1.violation]; exact id, h1.plane,
    ⟨es, .inl he, hl⟩⟩

theorem Broke.went {P : Byte → Prop} {s t : State} (h : Broke P s t) : Went P s t := by
  obtain ⟨h1, ⟨es, fs, he, hf, hl⟩, h3, h4, h5, h6⟩ := h
  exact ⟨h1.cfg, h1.inbox, by rw [h1.torn]; exact id, fun _ => h5, by rw [h1.violation]; exact id, h1.plane,
    ⟨_, .inr ⟨es, fs, _, he, hf, .refl _⟩, hl⟩⟩

theorem Hung.went {P : Byte → Prop} {s t : State} (h : Hung P s t) : Went P s t := by
  obtain ⟨h1, ⟨es, he, hl⟩, h3, h4, h5, h6, h7⟩ := h
  exact ⟨h1.cfg, h1.inbox, by rw [h1.torn]; exact id, by rw [h5]; exact id, by rw [h1.violation]; exact id, h1.plane,
    ⟨es, .inl he, hl⟩⟩

theorem Between.went {P : Byte → Prop} {op : HostOp} {s t : State} (h : Between P op s t) : Went P s t := by
  obtain ⟨es, he, hl⟩ := h.logged
  exact ⟨h.cfg, h.inbox, by rw [h.torn]; exact id, by rw [h.fatal]; exact id, by rw [h.violation]; exact id, h.plane,
    ⟨es, .inl he, hl⟩⟩

theorem Ended.went {P : Byte → Prop} {op : HostOp} {s t : State} (h : Ended P op s t) : Went P s t := by
  obtain ⟨u, hu, rfl⟩ := h
  have w := hu.went
  obtain ⟨es, he, hl⟩ := w.logged
  cases op <;>
    exact ⟨w.cfg, w.inbox, fun h => by first | exact w.torn h | exact .refl _, w.fatal, w.violation, w.plane,
      ⟨es, he, hl.congr (.refl _) (.refl _) (.refl _) (.refl _)⟩⟩

theorem Halted.went {P : Byte → Prop} {op : HostOp} {s t : State} (h : Halted P op s t) : Went P s t := by
  obtain ⟨es, fs, he, hf, hl⟩ := h.logged
  exact ⟨h.cfg, h.inbox, by rw [h.torn]; exact id, fun _ => h.fatal, by rw [h.violation]; exact id, h.plane,
    ⟨_, .inr ⟨es, fs, _, he, hf, .refl _⟩, hl⟩⟩

theorem Suspended.went {P : Byte → Prop} {op : HostOp} {s t : State} (h : Suspended P op s t) : Went P s t := by
  obtain ⟨u, row, hu, _, rfl⟩ := h
  have w := hu.went
  obtain ⟨es, he, hl⟩ := w.logged
  exact ⟨w.cfg, w.inbox, w.torn, w.fatal, w.violation, w.plane,
    ⟨es, he, hl.congr (.refl _) (.refl _) (.refl _) (.refl _)⟩⟩

/-! ### Dispatch -/

theorem exec_hostInstr (op : HostOp) (s : State) : exec (hostInstr op) s = dispatch op s := by
  cases op <;> rfl

/-- How a started operation ends. -/
def Outcomes (P : Byte → Prop) (op : HostOp) (s t : State) : Prop :=
  Ended P op s t ∨ Halted P op s t ∨ Suspended P op s t

theorem Outcomes.went {P : Byte → Prop} {op : HostOp} {s t : State} (h : Outcomes P op s t) : Went P s t := by
  rcases h with h | h | h
  · exact h.went
  · exact h.went
  · exact h.went

theorem sat_outcome {ran broke hung : State → Prop} {x : Flow} (h : x.Sat ran broke hung) :
    ∃ t, x.outcome = .next t ∧ (ran t ∨ broke t ∨ hung t) := by
  cases x with
  | done t => exact ⟨t, .refl _, .inl h⟩
  | trapped t => exact ⟨t, .refl _, .inr (.inl h)⟩
  | waits t => exact ⟨t, .refl _, .inr (.inr h)⟩
  | fault e => exact h.elim

theorem runOp_outcomes {P : Byte → Prop} (op : HostOp) (s : State) (hP : ∀ v ∈ Script.codes s.cfg, P v) :
    ∃ t, (runOp op s).outcome = .next t ∧ Outcomes P op s t := sat_outcome (runOp_facts op s hP)

/-- What the dispatch of a request can do. -/
inductive Dispatched (P : Byte → Prop) (op : HostOp) (s t : State) : Prop
  | notAccepted : s.running = true → t = s → Dispatched P op s t
  | refused : s.running = false → refusedHere op s = true → t = recordErr .refused s → Dispatched P op s t
  | stopped : s.running = false → refusedHere op s = false → legalIn op s.phase = false → s.cfg.strict = true →
      t = recordErr .sequenceViolation { s with violation := true } → Dispatched P op s t
  | legal : s.running = false → refusedHere op s = false → legalIn op s.phase = true → Outcomes P op s t →
      Dispatched P op s t
  | illegal : s.running = false → refusedHere op s = false → legalIn op s.phase = false → s.cfg.strict = false →
      Outcomes P op { s with violation := true } t → Dispatched P op s t

theorem dispatch_cases {P : Byte → Prop} (op : HostOp) (s : State) (hP : ∀ v ∈ Script.codes s.cfg, P v) :
    ∃ t, dispatch op s = .next t ∧ Dispatched P op s t := by
  unfold dispatch
  split
  · next h => exact ⟨s, .refl _, .notAccepted h (.refl _)⟩
  · next h1 =>
    have h1' : s.running = false := by simpa using h1
    split
    · next h2 => exact ⟨_, .refl _, .refused h1' h2 (.refl _)⟩
    · next h2 =>
      have h2' : refusedHere op s = false := by simpa using h2
      split
      · next h3 =>
        obtain ⟨t, ht, ho⟩ := runOp_outcomes (P := P) op s hP
        exact ⟨t, ht, .legal h1' h2' h3 ho⟩
      · next h3 =>
        have h3' : legalIn op s.phase = false := by simpa using h3
        split
        · next h4 => exact ⟨_, .refl _, .stopped h1' h2' h3' h4 (.refl _)⟩
        · next h4 =>
          obtain ⟨t, ht, ho⟩ := runOp_outcomes (P := P) op { s with violation := true } hP
          exact ⟨t, ht, .illegal h1' h2' h3' (by simpa using h4) ho⟩

theorem Dispatched.went {P : Byte → Prop} {op : HostOp} {s t : State} (h : Dispatched P op s t) : Went P s t := by
  cases h with
  | notAccepted h1 h2 => rw [h2]; exact .rfl P s
  | refused h1 h2 h3 =>
    rw [h3]; exact ⟨.refl _, .refl _, id, id, id, id, ⟨[], .inl .nil, ⟨.refl _, .refl _, .refl _, .refl _⟩⟩⟩
  | stopped h1 h2 h3 h4 h5 =>
    rw [h5]; exact ⟨.refl _, .refl _, id, id, fun _ => .refl _, id, ⟨[], .inl .nil, ⟨.refl _, .refl _, .refl _, .refl _⟩⟩⟩
  | legal h1 h2 h3 h4 => exact h4.went
  | illegal h1 h2 h3 h4 h5 =>
    have w := h5.went
    obtain ⟨es, he, hl⟩ := w.logged
    exact ⟨w.cfg, w.inbox, w.torn, w.fatal, fun _ => w.violation (.refl _), w.plane,
      ⟨es, he, ⟨hl.trace, hl.rst, hl.dc, hl.cs⟩⟩⟩

/-! ### Instructions -/

/-- An instruction is a host operation, a reserved code, or a piece. -/
inductive ExecCases (P : Byte → Prop) (i : Instr) (s t : State) : Prop
  | host (op : HostOp) : i = hostInstr op → Dispatched P op s t → ExecCases P i s t
  | reserved : i = .reserved6 ∨ i = .reserved7 →
      (s.running = true ∧ t = s ∨ s.running = false ∧ t = recordErr .refused s) → ExecCases P i s t
  | piece : (∀ op, i ≠ hostInstr op) →
      (Ran P s t ∨ Broke P s t ∨ (i = .waitIdle ∨ i = .turnOnDisplay) ∧ Hung P s t) → ExecCases P i s t

/-- What is none of the six host operations. -/
theorem notHost {i : Instr}
    (h : i ≠ .setup ∧ i ≠ .initPanel ∧ i ≠ .clear ∧ (∀ b r, i ≠ .display b r) ∧ i ≠ .sleep ∧ i ≠ .teardown) :
    ∀ op, i ≠ hostInstr op := by
  obtain ⟨h1, h2, h3, h4, h5, h6⟩ := h
  intro op
  cases op
  · exact h1
  · exact h2
  · exact h3
  · exact h4 _ _
  · exact h5
  · exact h6

/-- The piece that an instruction of the lower levels is. -/
theorem pieceCase {P : Byte → Prop} {i : Instr} {s : State} {x : Flow} (he : exec i s = x.outcome)
    (hi : ∀ op, i ≠ hostInstr op) (hw : (∀ t, x ≠ .waits t) ∨ i = .waitIdle ∨ i = .turnOnDisplay)
    (h : Piece P s x) : ∃ t, exec i s = .next t ∧ ExecCases P i s t := by
  cases x with
  | done t => exact ⟨t, he, .piece hi (.inl h)⟩
  | trapped t => exact ⟨t, he, .piece hi (.inr (.inl h))⟩
  | waits t =>
    rcases hw with hw | hw
    · exact absurd (.refl _) (hw t)
    · exact ⟨t, he, .piece hi (.inr (.inr ⟨hw, h⟩))⟩
  | fault e => exact h.elim

theorem exec_cases {P : Byte → Prop} (i : Instr) (s : State) (hP : ∀ v ∈ Script.codes s.cfg, P v)
    (hc : ∀ v, i = .sendCommand v → P v) : ∃ t, exec i s = .next t ∧ ExecCases P i s t := by
  have host : ∀ op, ∃ t, exec (hostInstr op) s = .next t ∧ ExecCases P (hostInstr op) s t := by
    intro op
    obtain ⟨t, ht, hd⟩ := dispatch_cases op s hP
    exact ⟨t, by rw [exec_hostInstr, ht], .host op (.refl _) hd⟩
  have reserved : ∀ i : Instr, i = .reserved6 ∨ i = .reserved7 → exec i s = refuseReserved s →
      ∃ t, exec i s = .next t ∧ ExecCases P i s t := by
    intro i hi he
    rw [he, refuseReserved]
    split
    · next h => exact ⟨_, .refl _, .reserved hi (.inl ⟨h, .refl _⟩)⟩
    · next h => exact ⟨_, .refl _, .reserved hi (.inr ⟨by simpa using h, .refl _⟩)⟩
  have panel : ∀ (i : Instr) (p : PanelCommand), exec i s = (panelCommand p s).outcome → (∀ op, i ≠ hostInstr op) →
      ∃ t, exec i s = .next t ∧ ExecCases P i s t :=
    fun i p he hi => pieceCase he hi (.inl (panelCommand_neverWaits p s)) (commandRow_piece p s hP)
  cases i with
  | setup => exact host .setup
  | initPanel => exact host .initPanel
  | clear => exact host .clear
  | display b r => exact host (.display b r)
  | sleep => exact host .sleep
  | teardown => exact host .teardown
  | reserved6 => exact reserved .reserved6 (.inl (.refl _)) (.refl _)
  | reserved7 => exact reserved .reserved7 (.inr (.refl _)) (.refl _)
  | sendCommand v =>
    exact pieceCase (.refl _) (notHost (by simp)) (.inl (frame_neverWaits _ _ s)) (sendCommand_piece s (hc v (.refl _)))
  | sendData v => exact pieceCase (.refl _) (notHost (by simp)) (.inl (frame_neverWaits _ _ s)) (sendData_piece v s)
  | pcScanMux => exact panel _ .scanMux (.refl _) (notHost (by simp))
  | pcSoftStart => exact panel _ .softStart (.refl _) (notHost (by simp))
  | pcDeepSleep => exact panel _ .deepSleep (.refl _) (notHost (by simp))
  | pcDataEntryMode => exact panel _ .dataEntryMode (.refl _) (notHost (by simp))
  | pcSwReset => exact panel _ .swReset (.refl _) (notHost (by simp))
  | pcDisplayOption => exact panel _ .displayOption (.refl _) (notHost (by simp))
  | pcActivate => exact panel _ .activate (.refl _) (notHost (by simp))
  | pcDisplayUpdateControl u =>
    exact panel _ (.displayUpdateControl u) (.refl _) (notHost (by simp))
  | pcWriteBlackPlane u =>
    exact panel _ (.writeBlackPlane u) (.refl _) (notHost (by simp))
  | pcWriteRedPlane u => exact panel _ (.writeRedPlane u) (.refl _) (notHost (by simp))
  | pcBorderVbd => exact panel _ .borderVbd (.refl _) (notHost (by simp))
  | pcRamXWindow => exact panel _ .ramXWindow (.refl _) (notHost (by simp))
  | pcRamYWindow => exact panel _ .ramYWindow (.refl _) (notHost (by simp))
  | pcAutoWrite1 => exact panel _ .autoWrite1 (.refl _) (notHost (by simp))
  | pcAutoWrite2 => exact panel _ .autoWrite2 (.refl _) (notHost (by simp))
  | pcFinalPair => exact panel _ .finalPair (.refl _) (notHost (by simp))
  | pcRamAddressCounter => exact panel _ .ramAddressCounter (.refl _) (notHost (by simp))
  | reset =>
    exact pieceCase (x := .done (resetPulse s)) (.refl _) (notHost (by simp)) (.inl (by simp)) (resetPulse_ran s)
  | waitIdle => exact pieceCase (.refl _) (notHost (by simp)) (.inr (.inl (.refl _))) (waitIdle_piece s)
  | prepareDraw =>
    exact pieceCase (.refl _) (notHost (by simp)) (.inl (panelCommand_neverWaits _ s))
      (commandRow_piece .ramAddressCounter s hP)
  | streamFill v => exact pieceCase (.refl _) (notHost (by simp)) (.inl (streamFill_neverWaits v s)) (streamFill_piece v s)
  | convert img => exact pieceCase (.refl _) (notHost (by simp)) (.inl (convert_neverWaits img s)) (convert_piece img s)
  | streamPlane f => exact pieceCase (.refl _) (notHost (by simp)) (.inl (streamPlane_neverWaits f s)) (streamPlane_piece f s)
  | turnOnDisplay => exact pieceCase (.refl _) (notHost (by simp)) (.inr (.inr (.refl _))) (turnOn_piece s hP)

theorem ExecCases.went {P : Byte → Prop} {i : Instr} {s t : State} (h : ExecCases P i s t) : Went P s t := by
  cases h with
  | host op h1 h2 => exact h2.went
  | reserved h1 h2 =>
    rcases h2 with ⟨_, rfl⟩ | ⟨_, rfl⟩
    · exact .rfl P _
    · exact ⟨.refl _, .refl _, id, id, id, id, ⟨[], .inl .nil, ⟨.refl _, .refl _, .refl _, .refl _⟩⟩⟩
  | piece h1 h2 =>
    rcases h2 with h | h | ⟨_, h⟩
    · exact h.went
    · exact h.went
    · exact h.went

/-! ### Going on -/

/-- What going on with a running operation can do, at a row the operation has. -/
theorem resume_waiting {P : Byte → Prop} {op : HostOp} {n : Nat} {s : State} (hP : ∀ v ∈ Script.codes s.cfg, P v)
    (hq : s.seq = .run op n) (hw : s.waiting = true) (hn : waitRow op n = true) :
    ∃ t, (resume s).outcome = .next t ∧
      (Ended P op s t ∧ t.waiting = false ∨ Halted P op s t ∧ t.waiting = false ∨ Suspended P op s t) := by
  have hlen : n < (rowsOf op).length := by
    cases op <;> simp [waitRow, rowsOf, initRows, clearRows, displayRows] at hn ⊢ <;> omega
  obtain ⟨r, hr⟩ : ∃ r, (rowsOf op)[n]? = some r := ⟨_, List.getElem?_eq_getElem hlen⟩
  have hd : (rowsOf op).drop n = r :: (rowsOf op).drop (n + 1) := by
    rw [List.drop_eq_getElem_cons hlen]
    rw [List.getElem?_eq_getElem hlen] at hr
    rw [Option.some.inj hr]
  have facts := rowFacts op n r hr
  unfold resume
  rw [hq]
  simp only [hw, if_true]
  rcases hb : pollOn s with u | u | u | e
  · have hp := pollOn_piece (P := P) s
    rw [hb] at hp
    have hbw : Between P op s u := (Between.rfl P op s).ran hp
    have hu : u.waiting = false := pollOn_done_waiting hb
    rw [Flow.done_andThen, hd]
    show ∃ t, (runRows op (n + 1) ((rowsOf op).drop (n + 1)) (r.post u)).outcome = .next t ∧ _
    by_cases hl : n + 1 = (rowsOf op).length
    · refine ⟨endOp (r.post u), ?_, .inl ⟨⟨u, hbw, ?_⟩, ?_⟩⟩
      · rw [List.drop_eq_nil_of_le (by omega)]; rfl
      · rw [facts.post, if_pos hl]
      · rw [facts.post, if_pos hl]; cases op <;> exact hu
    · rw [facts.post, if_neg hl]
      have hu' : Between P op u u := .rfl P op u
      obtain ⟨t, ht, hc⟩ := sat_outcome (runRows_facts (P := P) (op := op) (s := u) (by rw [hbw.cfg]; exact hP)
        ((rowsOf op).length - (n + 2)) (n + 1) u (by omega) hu')
      refine ⟨t, ht, ?_⟩
      have tr : ∀ v, Between P op u v → Between P op s v ∧ v.waiting = false := by
        intro v hv
        obtain ⟨es, he, hl⟩ := hbw.logged
        obtain ⟨fs, hf, gl⟩ := hv.logged
        refine ⟨⟨hv.cfg.trans hbw.cfg, hv.inbox.trans hbw.inbox, hv.opened.trans hbw.opened, hv.torn.trans hbw.torn,
          hv.violation.trans hbw.violation, ?_, fun hp => hv.plane (hbw.plane hp), ⟨_, he.append hf, hl.trans gl⟩,
          hv.haltedAt.trans hbw.haltedAt, hv.fatal.trans hbw.fatal, hv.err.trans hbw.err,
          waiting_trans hbw.waiting hv.waiting⟩, ?_⟩
        · rcases hv.phase with h | h
          · exact phase_trans hbw.phase h
          · exact .inr h
        · rcases hv.waiting with h | h
          · rw [h, hu]
          · exact h
      rcases hc with ⟨v, hv, rfl⟩ | hh | ⟨v, row, hv, hr, rfl⟩
      · refine .inl ⟨⟨v, (tr v hv).1, .refl _⟩, ?_⟩
        cases op <;> exact (tr v hv).2
      · obtain ⟨es, he, hl⟩ := hbw.logged
        obtain ⟨fs, gs, hf, hg, gl⟩ := hh.logged
        refine .inr (.inl ⟨⟨hh.cfg.trans hbw.cfg, hh.inbox.trans hbw.inbox, hh.opened.trans hbw.opened,
          hh.torn.trans hbw.torn, hh.violation.trans hbw.violation, ?_, fun hp => hh.plane (hbw.plane hp),
          ⟨es ++ fs, gs, he.append hf, hg, ?_⟩, hh.seq, hh.haltedAt, hh.fatal,
          waiting_trans hbw.waiting hh.waiting⟩, ?_⟩)
        · rcases hh.phase with h | h
          · exact phase_trans hbw.phase h
          · exact .inr h
        · rw [List.append_assoc]; exact hl.trans gl
        · rcases hh.waiting with h | h
          · rw [h, hu]
          · exact h
      · exact .inr (.inr ⟨v, row, (tr v hv).1, hr, .refl _⟩)
  · exact absurd hb (pollOn_not_trapped s u)
  · have hp := pollOn_piece (P := P) s
    rw [hb] at hp
    exact ⟨u, .refl _, .inr (.inr ((Between.rfl P op s).hung hq hn hp))⟩
  · have hp := pollOn_piece (P := P) s
    rw [hb] at hp
    exact hp.elim

/-- After an operation the position is not inside one. -/
theorem endOp_seq_cases (s : State) :
    s.fatal = true ∧ (endOp s).seq = .halted ∨ s.fatal = false ∧ (endOp s).seq = .idle := by
  cases h : s.fatal
  · exact .inr ⟨.refl _, by simp [endOp, setSeq, h]⟩
  · exact .inl ⟨.refl _, by simp [endOp, setSeq, h]⟩

theorem Between.endOp {P : Byte → Prop} {op : HostOp} {s t : State} (h : Between P op s t) : Went P s (endOp t) := by
  have w := h.went
  obtain ⟨es, he, hl⟩ := w.logged
  exact ⟨w.cfg, w.inbox, w.torn, w.fatal, w.violation, w.plane, ⟨es, he, ⟨hl.trace, hl.rst, hl.dc, hl.cs⟩⟩⟩

theorem Outcomes.violation {P : Byte → Prop} {op : HostOp} {s t : State} (h : Outcomes P op s t) :
    t.violation = s.violation := by
  rcases h with ⟨u, hu, rfl⟩ | h | ⟨u, r, hu, _, rfl⟩
  · rw [← hu.violation]; cases op <;> rfl
  · exact h.violation
  · exact hu.violation

/-- The rows of an operation from any number on, also beyond the last. -/
theorem runRows_went {P : Byte → Prop} {op : HostOp} {n : Nat} {s t : State} (hP : ∀ v ∈ Script.codes s.cfg, P v)
    (h : Between P op s t) :
    ∃ u, (runRows op n ((rowsOf op).drop n) t).outcome = .next u ∧ Went P s u ∧ u.violation = s.violation := by
  by_cases hn : n < (rowsOf op).length
  · obtain ⟨u, hu, ho⟩ := sat_outcome (runRows_facts hP ((rowsOf op).length - (n + 1)) n t (by omega) h)
    exact ⟨u, hu, Outcomes.went ho, Outcomes.violation ho⟩
  · rw [List.drop_eq_nil_of_le (by omega)]
    exact ⟨_, .refl _, h.endOp, h.violation⟩

/-- Going on, from any state. -/
theorem resume_went {P : Byte → Prop} {s : State} (hP : ∀ v ∈ Script.codes s.cfg, P v) :
    ∃ t, (resume s).outcome = .next t ∧ Went P s t ∧ t.violation = s.violation := by
  have polls : ∃ t, (pollOn s).outcome = .next t ∧ Went P s t ∧ t.violation = s.violation := by
    obtain ⟨t, ht, h⟩ := sat_outcome (pollOn_piece (P := P) s)
    rcases h with h | h | h
    · exact ⟨t, ht, h.went, h.1.violation⟩
    · exact ⟨t, ht, h.went, h.1.violation⟩
    · exact ⟨t, ht, h.went, h.1.violation⟩
  unfold resume
  split
  · next op n _ =>
    split
    · rcases hb : pollOn s with u | u | u | e
      · have hp := pollOn_piece (P := P) s
        rw [hb] at hp
        have hbw : Between P op s u := (Between.rfl P op s).ran hp
        rw [Flow.done_andThen]
        cases hd : (rowsOf op).drop n with
        | nil => exact ⟨_, .refl _, hbw.endOp, hbw.violation⟩
        | cons r rs =>
          have hlen : n < (rowsOf op).length := by
            by_contra hc
            rw [List.drop_eq_nil_of_le (by omega)] at hd
            cases hd
          have hr : (rowsOf op)[n]? = some r := by
            rw [List.getElem?_eq_getElem hlen]
            rw [List.drop_eq_getElem_cons hlen] at hd
            exact congrArg some (List.cons.inj hd).1
          have hrs : rs = (rowsOf op).drop (n + 1) := by
            rw [List.drop_eq_getElem_cons hlen] at hd
            exact (List.cons.inj hd).2.symm
          have facts := rowFacts op n r hr
          show ∃ t, (runRows op (n + 1) rs (r.post u)).outcome = .next t ∧ _
          rw [hrs, facts.post]
          split
          · next hl =>
            rw [List.drop_eq_nil_of_le (by omega)]
            have he : Ended P op s (endOp (finish op u)) := ⟨u, hbw, .refl _⟩
            exact ⟨_, .refl _, he.went, Outcomes.violation (.inl he)⟩
          · exact runRows_went hP hbw
      · exact absurd hb (pollOn_not_trapped s u)
      · rw [hb] at polls; exact polls
      · rw [hb] at polls; obtain ⟨t, h, _⟩ := polls; cases h
    · exact runRows_went hP (.rfl P op s)
  · exact polls
  · exact polls

/-! ### Steps -/

/-- The instructions a host request can stand for. -/
theorem decode_length_one {c : Cfg} {r : Request} {i : Instr} (hr : r.bytes.length = 1) (h : decode c r = .ok i) :
    (∃ op, i = hostInstr op) ∨ i = .reserved6 ∨ i = .reserved7 := by
  unfold decode at h
  split at h
  · next w hb =>
    unfold decodeHost at h
    split at h
    · injection h with h
      subst h
      unfold decodeOp
      split
      · exact .inl ⟨.setup, .refl _⟩
      · exact .inl ⟨.initPanel, .refl _⟩
      · exact .inl ⟨.clear, .refl _⟩
      · exact .inl ⟨.display _ _, .refl _⟩
      · exact .inl ⟨.sleep, .refl _⟩
      · exact .inl ⟨.teardown, .refl _⟩
      · exact .inr (.inl (.refl _))
      · exact .inr (.inr (.refl _))
    · cases h
  · next lo hi hb => rw [hb] at hr; simp at hr
  · cases h

/-- No request stands for an instruction that can wait: the micro-operations have no encoding (R111). -/
theorem decode_no_wait {c : Cfg} {r : Request} {i : Instr} (h : decode c r = .ok i) :
    i ≠ .waitIdle ∧ i ≠ .turnOnDisplay := by
  unfold decode at h
  split at h
  · unfold decodeHost at h
    split at h
    · injection h with h
      subst h
      unfold decodeOp
      split <;> simp
    · cases h
  · unfold decodeFrame at h
    split at h
    · split at h
      · split at h
        · cases h
        · injection h with h
          subst h
          simp
      · split at h
        · next j hj =>
          injection h with h
          subst h
          unfold decodeCommand at hj
          split at hj
          · next p _ =>
            injection hj with hj
            subst hj
            cases p <;> simp [PanelCommand.instr]
          · split at hj
            · cases hj
            · injection hj with hj
              subst hj
              simp
        · cases h
    · cases h
  · cases h

/-- The cases of a step that answers a next state. -/
inductive StepCases (s t : State) : Prop
  | goesOn : s.running = true → (resume s).outcome = .next t → StepCases s t
  | idles : s.running = false → s.inbox = [] → t = s → StepCases s t
  | runs (r : Request) (rs : List Request) (i : Instr) : s.running = false → s.inbox = r :: rs →
      decode s.cfg r = .ok i → exec i { s with inbox := rs } = .next t → StepCases s t

theorem step_cases {s t : State} (h : step s = .next t) : s.cfg.ok = true ∧ StepCases s t := by
  unfold step at h
  split at h
  · next hok =>
    refine ⟨hok, ?_⟩
    split at h
    · next hr => exact .goesOn hr h
    · next hr =>
      have hr' : s.running = false := by simpa using hr
      split at h
      · next hi => injection h with h; exact .idles hr' hi h.symm
      · next r rs hi =>
        split at h
        · next i hd => exact .runs r rs i hr' hi hd h
        · cases h
  · cases h

end Sys2Proof.Machine
end

