-- ==== Sys2Proof/Laws/Frames.lean ====
section
/-! SUPPORT. What pieces and operations leave alone: a key, that is a part of the state, is fixed by a flow when every
state the flow can leave has the key of the state it began in. -/

namespace Sys2Proof.Machine

/-- However the flow ends, the key is the one it began with. -/
def Flow.Fixes {α : Type} (key : State → α) (s : State) (x : Flow) : Prop :=
  ∀ t, x.state? = some t → key t = key s

variable {α : Type} {key : State → α}

theorem Fixes.done {s t : State} (h : key t = key s) : (Flow.done t).Fixes key s := by
  intro u hu
  cases hu
  exact h

theorem Fixes.outcome {s t : State} {x : Flow} (h : x.Fixes key s) (ho : x.outcome = .next t) : key t = key s :=
  h t (Flow.outcome_eq_next.mp ho)

theorem Fixes.andThen {s : State} {x : Flow} {f : State → Flow} (h : x.Fixes key s) (g : ∀ t, (f t).Fixes key t) :
    (x.andThen f).Fixes key s := by
  intro u hu
  cases x with
  | done t => exact (g t u hu).trans (h t rfl)
  | trapped t => exact h u hu
  | waits t => exact h u hu
  | fault e => cases hu

/-- The first piece of a sequence may also move the state where the second begins. -/
theorem Fixes.of_eq {s s' : State} {x : Flow} (h : x.Fixes key s') (e : key s' = key s) : x.Fixes key s :=
  fun t ht => (h t ht).trans e

theorem Fixes.forFrom {f : Nat → State → Flow} (h : ∀ a s, (f a s).Fixes key s) :
    ∀ n a s, (forFrom a n f s).Fixes key s
  | 0, _, _ => Fixes.done rfl
  | n + 1, a, s => Fixes.andThen (h a s) fun t => Fixes.forFrom h n (a + 1) t

/-- A key that frames fix. -/
def FramesFix (key : State → α) : Prop := ∀ mode v s, (frame mode v s).Fixes key s

/-- What makes frames fix a key: the events, the answers and the trap entry do not move it. -/
theorem framesFix_of (hd : ∀ l s, key (driveLine .dc l s) = key s) (hc : ∀ l s, key (driveLine .cs l s) = key s)
    (ha : ∀ e s, key (emit e (takeAnswer s)) = key s) (hf : ∀ s, key (takeFatal .transmitFailure s) = key s) :
    FramesFix key := by
  intro mode v s
  have ht : ∀ s, (transmitByte v s).Fixes key s := by
    intro s t h
    unfold transmitByte at h
    split at h
    · cases h; exact ha _ s
    · cases h; exact (hf _).trans (ha _ s)
  refine Fixes.andThen (Fixes.of_eq (ht _) ?_) fun t => Fixes.done (hc _ t)
  exact (hc _ _).trans (hd _ s)

theorem sendAll_fixes (hf : FramesFix key) : ∀ vs s, (sendAll vs s).Fixes key s
  | [], _ => Fixes.done rfl
  | v :: vs, s => Fixes.andThen (hf .high v s) fun t => sendAll_fixes hf vs t

theorem streamByte_fixes (hf : FramesFix key) (hk : ∀ s n, key { s with k := n } = key s) (v : Byte) (s : State) :
    (streamByte v s).Fixes key s :=
  Fixes.andThen (hf .high v s) fun t => Fixes.done (hk t _)

theorem streamFill_fixes (hf : FramesFix key) (hk : ∀ s n, key { s with k := n } = key s) (v : Byte) (s : State) :
    (streamFill v s).Fixes key s :=
  Fixes.of_eq (Fixes.forFrom (fun _ t => streamByte_fixes hf hk v t) _ 0 _) (hk s 0)

theorem memRead_fixes {a : Nat} {use : Byte → State → Flow} {s : State} (h : ∀ b, (use b s).Fixes key s) :
    (memRead a use s).Fixes key s := by
  unfold memRead
  split
  · exact h _
  · intro t ht; cases ht

theorem streamPlane_fixes (hf : FramesFix key) (hk : ∀ s n, key { s with k := n } = key s) (f : PlaneXform)
    (s : State) : (streamPlane f s).Fixes key s :=
  Fixes.of_eq (Fixes.forFrom (fun _ t => memRead_fixes fun _ => streamByte_fixes hf hk _ t) _ 0 _) (hk s 0)

theorem paramCommand_fixes (hf : FramesFix key) {p : PanelCommand} (hp : hasParams p = true) (s : State) :
    (panelCommand p s).Fixes key s :=
  Fixes.andThen (hf .low _ s) fun t => by rw [panelData_of_hasParams hp]; exact sendAll_fixes hf _ t

theorem panelCommand_fixes (hf : FramesFix key) (hk : ∀ s n, key { s with k := n } = key s) (p : PanelCommand)
    (s : State) : (panelCommand p s).Fixes key s := by
  refine Fixes.andThen (hf .low _ s) fun t => ?_
  unfold panelData
  split
  · exact streamFill_fixes hf hk _ t
  · exact streamPlane_fixes hf hk _ t
  · exact streamFill_fixes hf hk _ t
  · exact streamPlane_fixes hf hk _ t
  · exact sendAll_fixes hf _ t

theorem prepareDraw_fixes (hf : FramesFix key) (s : State) : (prepareDraw s).Fixes key s :=
  paramCommand_fixes hf rfl s

/-- A key that waits fix. -/
structure WaitsFix (key : State → α) : Prop where
  poll : ∀ s, key (pollBusy s) = key s
  sleep : ∀ ms s, key (sleepFor ms s) = key s
  polls : ∀ s n, key { s with polls := n } = key s
  waiting : ∀ s b, key { s with waiting := b } = key s

theorem pollLoop_fixes (hw : WaitsFix key) : ∀ n s, (pollLoop n s).Fixes key s
  | 0, s => by
    intro t ht
    cases ht
    exact hw.waiting s _
  | n + 1, s => by
    rw [pollLoop]
    split
    · exact Fixes.of_eq (pollLoop_fixes hw n _) ((hw.sleep _ _).trans (hw.poll s))
    · exact Fixes.done ((hw.waiting _ _).trans ((hw.sleep _ _).trans (hw.poll s)))

theorem pollOn_fixes (hw : WaitsFix key) (s : State) : (pollOn s).Fixes key s := pollLoop_fixes hw _ s

theorem waitIdle_fixes (hw : WaitsFix key) (s : State) : (waitIdle s).Fixes key s :=
  Fixes.of_eq (pollOn_fixes hw _) (hw.polls s 0)

theorem turnOnDisplay_fixes (hf : FramesFix key) (hw : WaitsFix key) (s : State) : (turnOnDisplay s).Fixes key s :=
  Fixes.andThen (paramCommand_fixes hf rfl s) fun t =>
    Fixes.andThen (paramCommand_fixes hf rfl t) fun u => Fixes.of_eq (waitIdle_fixes hw _) (hw.sleep _ u)

/-- A key that conversions fix: the converter's registers do not move it, nor does a write inside the plane. -/
structure ConvertsFix (key : State → α) : Prop where
  registers : ∀ s a i j d, key { s with acc := a, i := i, j := j, draws := d } = key s
  write : ∀ s a v, a < s.cfg.planeBytes → key { s with pb := s.pb.write a v } = key s

theorem convert_fixes (hc : ConvertsFix key) (img : Image) (s : State) : (convert img s).Fixes key s := by
  have pixel : ∀ j i s, (convertPixel img j i s).Fixes key s := by
    intro j i s
    have ha : key (accumulate img j i { s with i := i, j := j }) = key s := by
      unfold accumulate
      split
      · exact hc.registers s _ i j s.draws
      · exact hc.registers s s.acc i j s.draws
    refine Fixes.of_eq (s' := accumulate img j i { s with i := i, j := j }) ?_ ha
    unfold convertPixel storeGroup memWrite
    generalize accumulate img j i { s with i := i, j := j } = u
    split
    · split
      · next h => exact Fixes.done ((hc.registers _ 0 _ _ _).trans (hc.write u _ _ h))
      · intro t ht; cases ht
    · exact Fixes.done rfl
  refine Fixes.andThen (Fixes.of_eq (Fixes.forFrom (fun j t => Fixes.forFrom (pixel j) _ 0 t) _ 0 _) ?_) fun t =>
    Fixes.done (hc.registers t t.acc _ _ _)
  exact hc.registers s 0 s.i s.j s.draws

/-! ### Operations -/

/-- A key that the run of a table does not move: its rows and what they record fix it, and so does the position. -/
theorem runRows_fixes (op : HostOp) (hq : ∀ s q, key (setSeq q s) = key s) :
    ∀ (rs : List Row) (n : Nat) (s : State), (∀ r ∈ rs, (∀ t, (r.body t).Fixes key t) ∧ ∀ t, key (r.post t) = key t) →
      (runRows op n rs s).Fixes key s
  | [], _, s, _ => Fixes.done (hq s _)
  | r :: rs, n, s, h => by
    have hr := h r (by simp)
    rw [runRows]
    refine Fixes.of_eq (Fixes.andThen (hr.1 _) fun t => ?_) (hq s _)
    exact Fixes.of_eq (runRows_fixes op hq rs (n + 1) (r.post t) fun r' h' => h r' (by simp [h'])) (hr.2 t)

theorem openBus_fixes (he : ∀ s e, key (emit e (takeAnswer s)) = key s) (ht : ∀ s c, key (takeFatal c s) = key s)
    (s : State) : (openBus s).Fixes key s := by
  intro t h
  unfold openBus at h
  split at h
  · cases h; exact he s _
  · cases h; exact (ht _ _).trans (he s _)

theorem setupOp_fixes (ho : ∀ s, (openBus s).Fixes key s) (hq : ∀ s q, key (setSeq q s) = key s)
    (hop : ∀ s b, key { s with opened := b } = key s) (s : State) : (runOp .setup s).Fixes key s := by
  refine runRows_fixes _ hq _ 0 s ?_
  simp only [rowsOf, setupRows, List.mem_cons, List.not_mem_nil, or_false, forall_eq]
  exact ⟨ho, fun t => hop t _⟩

theorem initPanelOp_fixes (hf : FramesFix key) (hw : WaitsFix key) (hq : ∀ s q, key (setSeq q s) = key s)
    (hph : ∀ s p, key (setPhase p s) = key s) (hr : ∀ l s, key (driveLine .rst l s) = key s) (s : State) :
    (runOp .initPanel s).Fixes key s := by
  refine runRows_fixes _ hq _ 0 s ?_
  have cw : ∀ p, hasParams p = true →
      (∀ t, ((commandWaitRow p).body t).Fixes key t) ∧ ∀ t, key ((commandWaitRow p).post t) = key t :=
    fun p hp => ⟨fun t => Fixes.andThen (paramCommand_fixes hf hp t) fun t => waitIdle_fixes hw t, fun _ => rfl⟩
  have c : ∀ p, hasParams p = true →
      (∀ t, ((commandRow p).body t).Fixes key t) ∧ ∀ t, key ((commandRow p).post t) = key t :=
    fun p hp => ⟨fun t => paramCommand_fixes hf hp t, fun _ => rfl⟩
  simp only [rowsOf, initRows, List.mem_cons, List.not_mem_nil, or_false, forall_eq_or_imp, forall_eq]
  refine ⟨⟨fun t => Fixes.done ?_, fun _ => rfl⟩, cw _ rfl, cw _ rfl, cw _ rfl, c _ rfl, c _ rfl, c _ rfl, c _ rfl,
    c _ rfl, c _ rfl, c _ rfl, c _ rfl, c _ rfl, ⟨fun t => waitIdle_fixes hw t, fun _ => rfl⟩, c _ rfl,
    ⟨fun t => prepareDraw_fixes hf t, fun t => hph t _⟩⟩
  rw [resetPulse]
  simp only [hw.sleep, hr, hph]

theorem clearOp_fixes (hf : FramesFix key) (hw : WaitsFix key) (hk : ∀ s n, key { s with k := n } = key s)
    (hq : ∀ s q, key (setSeq q s) = key s) (hph : ∀ s p, key (setPhase p s) = key s) (s : State) :
    (runOp .clear s).Fixes key s := by
  refine runRows_fixes _ hq _ 0 s ?_
  simp only [rowsOf, clearRows, List.mem_cons, List.not_mem_nil, or_false, forall_eq_or_imp, forall_eq]
  exact ⟨⟨fun t => prepareDraw_fixes hf t, fun _ => rfl⟩, ⟨fun t => hf _ _ t, fun _ => rfl⟩,
    ⟨fun t => streamFill_fixes hf hk _ t, fun _ => rfl⟩, ⟨fun t => hf _ _ t, fun _ => rfl⟩,
    ⟨fun t => streamFill_fixes hf hk _ t, fun _ => rfl⟩, ⟨fun t => turnOnDisplay_fixes hf hw t, fun t => hph t _⟩⟩

theorem displayOp_fixes (hf : FramesFix key) (hw : WaitsFix key) (hk : ∀ s n, key { s with k := n } = key s)
    (hc : ConvertsFix key) (hq : ∀ s q, key (setSeq q s) = key s) (hph : ∀ s p, key (setPhase p s) = key s)
    (b r : Option Image) (s : State) : (runOp (.display b r) s).Fixes key s := by
  refine runRows_fixes _ hq _ 0 s ?_
  simp only [rowsOf, displayRows, List.mem_cons, List.not_mem_nil, or_false, forall_eq_or_imp, forall_eq]
  have conv : ∀ img t, (convertOperand img t).Fixes key t := by
    intro img t
    cases img
    · exact Fixes.done rfl
    · exact convert_fixes hc _ t
  have send : ∀ c f img t, (streamOperand c f img t).Fixes key t := by
    intro c f img t
    cases img
    · exact Fixes.done rfl
    · exact Fixes.andThen (hf _ _ t) fun t => streamPlane_fixes hf hk _ t
  exact ⟨⟨fun t => prepareDraw_fixes hf t, fun _ => rfl⟩, ⟨fun t => conv _ t, fun _ => rfl⟩,
    ⟨fun t => send _ _ _ t, fun _ => rfl⟩, ⟨fun t => conv _ t, fun _ => rfl⟩, ⟨fun t => send _ _ _ t, fun _ => rfl⟩,
    ⟨fun t => turnOnDisplay_fixes hf hw t, fun t => hph t _⟩⟩

theorem sleepOp_fixes (hf : FramesFix key) (hq : ∀ s q, key (setSeq q s) = key s)
    (hph : ∀ s p, key (setPhase p s) = key s) (s : State) : (runOp .sleep s).Fixes key s := by
  refine runRows_fixes _ hq _ 0 s ?_
  simp only [rowsOf, sleepRows, List.mem_cons, List.not_mem_nil, or_false, forall_eq]
  exact ⟨fun t => paramCommand_fixes hf rfl t, fun t => hph t _⟩

theorem teardownOp_fixes (he : ∀ s e, key (emit e s) = key s) (hl : ∀ ln l s, key (driveLine ln l s) = key s)
    (hq : ∀ s q, key (setSeq q s) = key s) (hop : ∀ s b c, key { s with opened := b, torn := c } = key s) (s : State) :
    (runOp .teardown s).Fixes key s := by
  refine runRows_fixes _ hq _ 0 s ?_
  simp only [rowsOf, teardownRows, List.mem_cons, List.not_mem_nil, or_false, forall_eq_or_imp, forall_eq]
  exact ⟨⟨fun t => Fixes.done (he t _), fun _ => rfl⟩, ⟨fun t => Fixes.done (by simp only [hl]), fun _ => rfl⟩,
    ⟨fun t => Fixes.done (he t _), fun t => hop t _ _⟩⟩

/-- Dispatch fixes what its operation fixes, from every state. -/
theorem dispatch_fixes {op : HostOp} {s t : State} (hrun : ∀ s, (runOp op s).Fixes key s)
    (he : ∀ s e, key (recordErr e s) = key s) (hv : ∀ s b, key { s with violation := b } = key s)
    (h : dispatch op s = .next t) : key t = key s := by
  unfold dispatch at h
  split at h
  · cases h; rfl
  · split at h
    · cases h; exact he s _
    · split at h
      · exact Fixes.outcome (hrun s) h
      · split at h
        · cases h; exact (he _ _).trans (hv s _)
        · exact (Fixes.outcome (hrun _) h).trans (hv s _)

end Sys2Proof.Machine
end

