-- ==== Sys2Proof/Laws/Lockstep.lean ====
section
/-! SUPPORT. Two blocks that run the same operation with the same configuration and the same answers stay in step: they
perform the same events and end the same way, whatever else they hold. -/

namespace Sys2Proof.Machine

/-- Same configuration, same answers to come. -/
structure Alike (s t : State) : Prop where
  cfg : t.cfg = s.cfg
  link : t.link = s.link
  busy : t.busy = s.busy

/-- And the same bytes in the plane. -/
def AlikePlane (s t : State) : Prop := Alike s t ∧ ∀ a < s.cfg.planeBytes, t.pb.byteAt a = s.pb.byteAt a

/-- The same events were performed from `s` to `s'` as from `t` to `t'`. -/
def SameEvents (s s' t t' : State) : Prop := ∃ es, s'.trace = es ++ s.trace ∧ t'.trace = es ++ t.trace

theorem SameEvents.rfl (s t : State) : SameEvents s s t t := ⟨[], .refl _, .refl _⟩

theorem SameEvents.trans {s s' s'' t t' t'' : State} (h : SameEvents s s' t t') (g : SameEvents s' s'' t' t'') :
    SameEvents s s'' t t'' := by
  obtain ⟨es, h1, h2⟩ := h
  obtain ⟨fs, g1, g2⟩ := g
  exact ⟨fs ++ es, by rw [g1, h1, List.append_assoc], by rw [g2, h2, List.append_assoc]⟩

/-- The two flows end the same way after the same events, in states related by `R` where they run to their end. -/
inductive InStep (R : State → State → Prop) (s t : State) : Flow → Flow → Prop
  | done {s' t' : State} : SameEvents s s' t t' → R s' t' → InStep R s t (.done s') (.done t')
  | trapped {s' t' : State} : SameEvents s s' t t' → InStep R s t (.trapped s') (.trapped t')
  | waits {s' t' : State} : SameEvents s s' t t' → InStep R s t (.waits s') (.waits t')
  | fault (e : Fault) : InStep R s t (.fault e) (.fault e)

theorem InStep.andThen {R R' : State → State → Prop} {s t : State} {x y : Flow} {f g : State → Flow}
    (h : InStep R s t x y) (k : ∀ s' t', R s' t' → InStep R' s' t' (f s') (g t')) :
    InStep R' s t (x.andThen f) (y.andThen g) := by
  cases h with
  | trapped h => exact .trapped h
  | waits h => exact .waits h
  | fault e => exact .fault e
  | @done s' t' h hr =>
    have hk := k s' t' hr
    simp only [Flow.done_andThen]
    generalize f s' = x at hk
    generalize g t' = y at hk
    cases hk with
    | done g gr => exact .done (h.trans g) gr
    | trapped g => exact .trapped (h.trans g)
    | waits g => exact .waits (h.trans g)
    | fault e => exact .fault e

/-- Two flows in step from states reached by the same events. -/
theorem InStep.after {R : State → State → Prop} {s t s' t' : State} {x y : Flow} (h : SameEvents s s' t t')
    (k : InStep R s' t' x y) : InStep R s t x y :=
  InStep.andThen (x := .done s') (y := .done t') (f := fun _ => x) (g := fun _ => y)
    (R := fun a b => a = s' ∧ b = t') (.done h ⟨.refl _, .refl _⟩) fun a b hab => by rw [hab.1, hab.2]; exact k

/-- A piece keeps alike blocks in step. -/
def KeepsStep (R R' : State → State → Prop) (f : State → Flow) : Prop := ∀ s t, R s t → InStep R' s t (f s) (f t)

theorem frame_inStep (mode : Level) (v : Byte) : KeepsStep Alike Alike (frame mode v) := by
  intro s t h
  cases hl : s.link.get 0 with
  | ok =>
    rw [frame_of_ok _ _ hl, frame_of_ok _ _ (by rw [h.link]; exact hl)]
    exact .done ⟨(Script.frame mode v).reverse, .refl _, .refl _⟩ ⟨h.cfg, by simp [h.link], by simp [h.busy]⟩
  | fail =>
    rw [frame_of_fail _ _ hl, frame_of_fail _ _ (by rw [h.link]; exact hl)]
    exact .trapped ⟨(brokenFrame mode v).reverse, .refl _, .refl _⟩

theorem sendAll_inStep : ∀ vs, KeepsStep Alike Alike (sendAll vs)
  | [] => fun s t h => .done (.rfl s t) h
  | v :: vs => fun s t h => InStep.andThen (frame_inStep .high v s t h) (sendAll_inStep vs)

theorem streamByte_inStep (v : Byte) : KeepsStep Alike Alike (streamByte v) := fun s t h =>
  InStep.andThen (frame_inStep .high v s t h) fun s t h => .done (.rfl s t) ⟨h.cfg, h.link, h.busy⟩

theorem forFrom_inStep {R : State → State → Prop} {f : Nat → State → Flow} :
    ∀ (n a : Nat), (∀ m, a ≤ m → m < a + n → KeepsStep R R (f m)) → KeepsStep R R (forFrom a n f)
  | 0, _, _ => fun s t h => .done (.rfl s t) h
  | n + 1, a, hf => fun s t h => by
    rw [forFrom_succ, forFrom_succ]
    exact InStep.andThen (hf a (Nat.le_refl a) (by omega) s t h)
      (forFrom_inStep n (a + 1) fun m h1 h2 => hf m (by omega) (by omega))

theorem streamFill_inStep (v : Byte) : KeepsStep Alike Alike (streamFill v) := by
  intro s t h
  have e : t.cfg.planeBytes = s.cfg.planeBytes := by rw [h.cfg]
  unfold streamFill
  rw [e]
  exact InStep.after (s' := { s with k := 0 }) (t' := { t with k := 0 }) ⟨[], .refl _, .refl _⟩
    (forFrom_inStep _ 0 (fun _ _ _ => streamByte_inStep v) _ _ ⟨h.cfg, h.link, h.busy⟩)

/-- A byte of a stream also keeps the plane. -/
theorem streamByte_inStep_plane (v : Byte) : KeepsStep AlikePlane AlikePlane (streamByte v) := by
  intro s t ⟨h, hp⟩
  have hpb : ∀ u u' : State, streamByte v u = .done u' → u'.pb = u.pb ∧ u'.cfg = u.cfg := by
    intro u u' hu
    rw [streamByte, sendData] at hu
    rcases frame_cases .high v u with e | e <;> rw [e] at hu
    · cases hu; exact ⟨.refl _, .refl _⟩
    · cases hu
  have hk := streamByte_inStep v s t h
  generalize hx : streamByte v s = x at hk
  generalize hy : streamByte v t = y at hk
  cases hk with
  | done g gr =>
    have h1 := hpb _ _ hx
    have h2 := hpb _ _ hy
    exact .done g ⟨gr, by rw [h1.1, h1.2, h2.1]; exact hp⟩
  | trapped g => exact .trapped g
  | waits g => exact .waits g
  | fault e => exact .fault e

theorem streamPlane_inStep (f : PlaneXform) : KeepsStep AlikePlane Alike (streamPlane f) := by
  intro s t h
  have loop : KeepsStep AlikePlane AlikePlane
      (forFrom 0 s.cfg.planeBytes fun a => memRead a fun b => streamByte (PlaneXform.apply f b)) := by
    refine forFrom_inStep _ 0 fun a _ _ s t h => ?_
    unfold memRead
    rw [h.1.cfg]
    split
    · next ha => rw [h.2 a ha]; exact streamByte_inStep_plane _ s t h
    · exact .fault _
  have e : t.cfg.planeBytes = s.cfg.planeBytes := by rw [h.1.cfg]
  unfold streamPlane
  rw [e]
  have := loop { s with k := 0 } { t with k := 0 } ⟨⟨h.1.cfg, h.1.link, h.1.busy⟩, h.2⟩
  refine InStep.after (s' := { s with k := 0 }) (t' := { t with k := 0 }) ⟨[], .refl _, .refl _⟩ ?_
  have h2 := InStep.andThen this (f := Flow.done) (g := Flow.done) (R' := Alike) fun s t h => .done (.rfl s t) h.1
  rwa [Flow.andThen_done, Flow.andThen_done] at h2

theorem paramCommand_inStep {p : PanelCommand} (hp : hasParams p = true) :
    KeepsStep Alike Alike (panelCommand p) := by
  intro s t h
  unfold panelCommand
  rw [h.cfg]
  refine InStep.andThen (R := fun s' t' => Alike s' t' ∧ s'.cfg = s.cfg) ?_ fun s' t' h' => ?_
  · have hk := frame_inStep .low (p.code s.cfg) s t h
    have hc : ∀ u, frame .low (p.code s.cfg) s = .done u → u.cfg = s.cfg := by
      intro u hu
      rcases frame_cases .low (p.code s.cfg) s with e | e <;> rw [e] at hu
      · cases hu; exact .refl _
      · cases hu
    unfold sendCommand
    generalize hx : frame .low (p.code s.cfg) s = x at hk
    generalize frame .low (p.code s.cfg) t = y at hk
    cases hk with
    | done g gr => exact .done g ⟨gr, hc _ hx⟩
    | trapped g => exact .trapped g
    | waits g => exact .waits g
    | fault e => exact .fault e
  · rw [panelData_of_hasParams hp, panelData_of_hasParams hp, h'.1.cfg]
    exact sendAll_inStep _ s' t' h'.1

theorem sleepFor_alike {s t : State} (ms : Nat) (h : Alike s t) : Alike (sleepFor ms s) (sleepFor ms t) :=
  ⟨h.cfg, h.link, h.busy⟩

theorem pollLoop_inStep : ∀ n, KeepsStep Alike Alike (pollLoop n)
  | 0 => fun s t _ => .waits (.rfl s t)
  | n + 1 => fun s t h => by
    rw [pollLoop, pollLoop, h.busy, h.cfg]
    have hp : Alike (pollBusy s) (pollBusy t) := ⟨h.cfg, h.link, by simp [h.busy]⟩
    split
    · refine InStep.after ⟨[.sleepFor Params.tPoll, .readBusy s.busy.head], .refl _, ?_⟩
        (pollLoop_inStep n _ _ (sleepFor_alike _ hp))
      show _ = [_, _] ++ _
      rw [← h.busy]
      rfl
    · refine .done ⟨[.sleepFor Params.tSettle, .readBusy s.busy.head], .refl _, ?_⟩ ⟨hp.cfg, hp.link, hp.busy⟩
      show _ = [_, _] ++ _
      rw [← h.busy]
      rfl

theorem waitIdle_inStep : KeepsStep Alike Alike waitIdle := by
  intro s t h
  have e : t.busy.listed.length = s.busy.listed.length := by rw [h.busy]
  unfold waitIdle pollOn
  rw [e]
  exact InStep.after (s' := { s with polls := 0 }) (t' := { t with polls := 0 }) ⟨[], .refl _, .refl _⟩
    (pollLoop_inStep _ _ _ ⟨h.cfg, h.link, h.busy⟩)

theorem turnOnDisplay_inStep : KeepsStep Alike Alike turnOnDisplay := fun _ _ h =>
  InStep.andThen (paramCommand_inStep (p := .displayUpdateControl .turnOn) (.refl _) _ _ h) fun s t h =>
    InStep.andThen (paramCommand_inStep (p := .activate) (.refl _) s t h) fun _ _ h =>
      InStep.after ⟨[.sleepFor Params.tActivate], .refl _, .refl _⟩ (waitIdle_inStep _ _ (sleepFor_alike _ h))

theorem convert_inStep (img : Image) {s t : State} (hg : s.cfg.geometryOk = true) (h : Alike s t) :
    InStep AlikePlane s t (convert img s) (convert img t) := by
  obtain ⟨s', hs, hb, _, _, _, e⟩ := convert_done img hg
  obtain ⟨t', ht, hb', _, _, _, e'⟩ := convert_done (s := t) img (by rw [h.cfg]; exact hg)
  rw [hs, ht]
  have hc : s'.cfg = s.cfg := by rw [e]
  refine .done ⟨[], by rw [e]; rfl, by rw [e']; rfl⟩ ⟨⟨?_, ?_, ?_⟩, fun a ha => ?_⟩
  · rw [e, e']; exact h.cfg
  · rw [e, e']; exact h.link
  · rw [e, e']; exact h.busy
  · rw [hc] at ha
    rw [hb a ha, hb' a (by rw [h.cfg]; exact ha), h.cfg]

/-! ### Rows and operations -/

theorem runRows_cons_inStep {R : State → State → Prop} {op : HostOp} {n : Nat} {r : Row} {rs : List Row} {s t : State}
    (hb : InStep R (setSeq (.run op n) s) (setSeq (.run op n) t) (r.body (setSeq (.run op n) s))
      (r.body (setSeq (.run op n) t)))
    (hr : ∀ s t, R s t → InStep Alike s t (runRows op (n + 1) rs (r.post s)) (runRows op (n + 1) rs (r.post t))) :
    InStep Alike s t (runRows op n (r :: rs) s) (runRows op n (r :: rs) t) :=
  InStep.after (⟨[], .refl _, .refl _⟩ : SameEvents s (setSeq (.run op n) s) t (setSeq (.run op n) t))
    (InStep.andThen hb hr)

theorem endOp_inStep {op : HostOp} {n : Nat} {s t : State} (h : Alike s t) :
    InStep Alike s t (runRows op n [] s) (runRows op n [] t) :=
  .done ⟨[], .refl _, .refl _⟩ ⟨h.cfg, h.link, h.busy⟩

/-- A row that keeps alike blocks in step, with a record that neither the configuration nor the answers see. -/
structure PlainRow (r : Row) : Prop where
  body : KeepsStep Alike Alike r.body
  post : ∀ s, (r.post s).cfg = s.cfg ∧ (r.post s).link = s.link ∧ (r.post s).busy = s.busy ∧ (r.post s).trace = s.trace

theorem runRows_inStep {op : HostOp} : ∀ (rs : List Row) (n : Nat) (s t : State), (∀ r ∈ rs, PlainRow r) → Alike s t →
    InStep Alike s t (runRows op n rs s) (runRows op n rs t)
  | [], _, _, _, _, h => endOp_inStep h
  | r :: rs, n, s, t, hp, h => by
    have hr := hp r (by simp)
    refine runRows_cons_inStep (hr.body _ _ ⟨h.cfg, h.link, h.busy⟩) fun s t h => ?_
    obtain ⟨a1, a2, a3, a4⟩ := hr.post s
    obtain ⟨b1, b2, b3, b4⟩ := hr.post t
    exact InStep.after ⟨[], a4, b4⟩ (runRows_inStep rs (n + 1) _ _ (fun r' h' => hp r' (by simp [h']))
      ⟨by rw [a1, b1, h.cfg], by rw [a2, b2, h.link], by rw [a3, b3, h.busy]⟩)

theorem commandRow_plain {p : PanelCommand} (hp : hasParams p = true) : PlainRow (commandRow p) :=
  ⟨paramCommand_inStep hp, fun _ => ⟨.refl _, .refl _, .refl _, .refl _⟩⟩

theorem commandWaitRow_plain {p : PanelCommand} (hp : hasParams p = true) : PlainRow (commandWaitRow p) :=
  ⟨fun s t h => InStep.andThen (paramCommand_inStep hp s t h) waitIdle_inStep,
    fun _ => ⟨.refl _, .refl _, .refl _, .refl _⟩⟩

theorem openBus_inStep : KeepsStep Alike Alike openBus := by
  intro s t h
  cases hl : s.link.get 0 with
  | ok =>
    rw [openBus_of_ok hl, openBus_of_ok (by rw [h.link]; exact hl)]
    exact .done ⟨[.openBus .ok], .refl _, .refl _⟩ ⟨h.cfg, by simp [h.link], by simp [h.busy]⟩
  | fail =>
    rw [openBus_of_fail hl, openBus_of_fail (by rw [h.link]; exact hl)]
    exact .trapped ⟨[.openBus .fail], .refl _, .refl _⟩

/-- A whole operation keeps alike blocks in step. -/
theorem runOp_inStep (op : HostOp) {s t : State} (hg : s.cfg.geometryOk = true) (h : Alike s t) :
    InStep Alike s t (runOp op s) (runOp op t) := by
  have same : ∀ (f : State → State), (∀ s, (f s).cfg = s.cfg ∧ (f s).link = s.link ∧ (f s).busy = s.busy) →
      (∃ es, ∀ s, (f s).trace = es ++ s.trace) → KeepsStep Alike Alike fun s => .done (f s) := by
    intro f hf ⟨es, he⟩ s t h
    obtain ⟨a1, a2, a3⟩ := hf s
    obtain ⟨b1, b2, b3⟩ := hf t
    exact .done ⟨es, he s, he t⟩ ⟨by rw [a1, b1, h.cfg], by rw [a2, b2, h.link], by rw [a3, b3, h.busy]⟩
  have post : ∀ (p : Phase) (s : State), (setPhase p s).cfg = s.cfg ∧ (setPhase p s).link = s.link ∧
      (setPhase p s).busy = s.busy ∧ (setPhase p s).trace = s.trace := fun _ _ => ⟨.refl _, .refl _, .refl _, .refl _⟩
  have prepare : KeepsStep Alike Alike prepareDraw := paramCommand_inStep (p := .ramAddressCounter) (.refl _)
  have none : ∀ s : State, s.cfg = s.cfg ∧ s.link = s.link ∧ s.busy = s.busy ∧ s.trace = s.trace :=
    fun _ => ⟨.refl _, .refl _, .refl _, .refl _⟩
  cases op with
  | setup =>
    refine runRows_inStep _ 0 _ _ ?_ h
    simp only [rowsOf, setupRows, List.mem_cons, List.not_mem_nil, or_false, forall_eq]
    exact ⟨openBus_inStep, none⟩
  | initPanel =>
    refine runRows_inStep _ 0 _ _ ?_ h
    simp only [rowsOf, initRows, List.mem_cons, List.not_mem_nil, or_false, forall_eq_or_imp, forall_eq]
    exact ⟨⟨same (fun s => resetPulse (setPhase .inReset s)) (fun _ => ⟨.refl _, .refl _, .refl _⟩)
        ⟨Script.reset.reverse, fun _ => .refl _⟩, none⟩,
      commandWaitRow_plain (.refl _), commandWaitRow_plain (.refl _), commandWaitRow_plain (.refl _),
      commandRow_plain (.refl _), commandRow_plain (.refl _), commandRow_plain (.refl _), commandRow_plain (.refl _),
      commandRow_plain (.refl _), commandRow_plain (.refl _), commandRow_plain (.refl _), commandRow_plain (.refl _),
      commandRow_plain (.refl _), ⟨waitIdle_inStep, none⟩, commandRow_plain (.refl _), ⟨prepare, post _⟩⟩
  | clear =>
    refine runRows_inStep _ 0 _ _ ?_ h
    simp only [rowsOf, clearRows, List.mem_cons, List.not_mem_nil, or_false, forall_eq_or_imp, forall_eq]
    exact ⟨⟨prepare, none⟩, ⟨frame_inStep _ _, none⟩, ⟨streamFill_inStep _, none⟩, ⟨frame_inStep _ _, none⟩,
      ⟨streamFill_inStep _, none⟩, ⟨turnOnDisplay_inStep, post _⟩⟩
  | sleep =>
    refine runRows_inStep _ 0 _ _ ?_ h
    simp only [rowsOf, sleepRows, List.mem_cons, List.not_mem_nil, or_false, forall_eq]
    exact ⟨paramCommand_inStep (.refl _), post _⟩
  | teardown =>
    refine runRows_inStep _ 0 _ _ ?_ h
    simp only [rowsOf, teardownRows, List.mem_cons, List.not_mem_nil, or_false, forall_eq_or_imp, forall_eq]
    exact ⟨⟨same _ (fun _ => ⟨.refl _, .refl _, .refl _⟩) ⟨[.endTransaction], fun _ => .refl _⟩, none⟩,
      ⟨same _ (fun _ => ⟨.refl _, .refl _, .refl _⟩)
        ⟨[.setLine .cs .low, .setLine .dc .low, .setLine .rst .low], fun _ => .refl _⟩, none⟩,
      ⟨same _ (fun _ => ⟨.refl _, .refl _, .refl _⟩) ⟨[.closeBus], fun _ => .refl _⟩,
        fun _ => ⟨.refl _, .refl _, .refl _, .refl _⟩⟩⟩
  | display b r =>
    -- the two rows of one operand, then the rest
    have operand : ∀ (img : Option Image) (code : Byte) (f : PlaneXform) (n : Nat) (rs : List Row) (s t : State),
        s.cfg = t.cfg → s.cfg.geometryOk = true → Alike s t →
        (∀ s' t' : State, s'.cfg = s.cfg → Alike s' t' → InStep Alike s' t' (runRows (.display b r) (n + 2) rs s')
          (runRows (.display b r) (n + 2) rs t')) →
        InStep Alike s t
          (runRows (.display b r) n ({ body := convertOperand img } :: { body := streamOperand code f img } :: rs) s)
          (runRows (.display b r) n ({ body := convertOperand img } :: { body := streamOperand code f img } :: rs) t) := by
      intro img code f n rs s t hc hg h rest
      cases img with
      | none =>
        refine runRows_cons_inStep (R := fun s' t' => s'.cfg = s.cfg ∧ Alike s' t')
          (.done (.rfl _ _) ⟨.refl _, h.cfg, h.link, h.busy⟩) fun s1 t1 h1 => ?_
        refine runRows_cons_inStep (R := fun s' t' => s'.cfg = s.cfg ∧ Alike s' t')
          (.done (.rfl _ _) ⟨h1.1, h1.2.cfg, h1.2.link, h1.2.busy⟩) fun s2 t2 h2 => rest s2 t2 h2.1 h2.2
      | some img =>
        -- neither row moves the configuration
        have fixC : ∀ u, (convert img u).Fixes State.cfg u := convert_fixes ⟨fun _ _ _ _ _ => rfl, fun _ _ _ _ => rfl⟩ img
        have ff : FramesFix State.cfg := framesFix_of (fun _ _ => rfl) (fun _ _ => rfl) (fun _ _ => rfl) fun _ => rfl
        have fixS : ∀ u, ((sendCommand code u).andThen (streamPlane f)).Fixes State.cfg u := fun u =>
          Fixes.andThen (ff _ _ u) fun t => streamPlane_fixes ff (fun _ _ => rfl) f t
        have withCfg : ∀ {R : State → State → Prop} {s t : State} {x y : Flow}, x.Fixes State.cfg s → InStep R s t x y →
            InStep (fun s' t' => s'.cfg = s.cfg ∧ R s' t') s t x y := by
          intro R s t x y hx hxy
          cases hxy with
          | done g gr => exact .done g ⟨hx _ rfl, gr⟩
          | trapped g => exact .trapped g
          | waits g => exact .waits g
          | fault e => exact .fault e
        refine runRows_cons_inStep (R := fun s' t' => s'.cfg = s.cfg ∧ AlikePlane s' t')
          (withCfg (s := setSeq (.run (.display b r) n) s) (fixC _)
            (convert_inStep (s := setSeq (.run (.display b r) n) s) (t := setSeq (.run (.display b r) n) t) img
              hg ⟨h.cfg, h.link, h.busy⟩)) fun s1 t1 h1 => ?_
        refine runRows_cons_inStep (R := fun s' t' => s'.cfg = s.cfg ∧ Alike s' t') ?_ fun s2 t2 h2 => rest s2 t2 h2.1 h2.2
        have hk : InStep Alike (setSeq (.run (.display b r) (n + 1)) s1) (setSeq (.run (.display b r) (n + 1)) t1)
            ((sendCommand code (setSeq (.run (.display b r) (n + 1)) s1)).andThen (streamPlane f))
            ((sendCommand code (setSeq (.run (.display b r) (n + 1)) t1)).andThen (streamPlane f)) := by
          refine InStep.andThen (R := AlikePlane) ?_ (streamPlane_inStep f)
          have hf := frame_inStep .low code (setSeq (.run (.display b r) (n + 1)) s1)
            (setSeq (.run (.display b r) (n + 1)) t1) ⟨h1.2.1.cfg, h1.2.1.link, h1.2.1.busy⟩
          have pb : FramesFix fun s : State => (s.pb, s.cfg) :=
            framesFix_of (fun _ _ => rfl) (fun _ _ => rfl) (fun _ _ => rfl) fun _ => rfl
          have p1 := pb .low code (setSeq (.run (.display b r) (n + 1)) s1)
          have p2 := pb .low code (setSeq (.run (.display b r) (n + 1)) t1)
          unfold sendCommand
          generalize frame .low code (setSeq (.run (.display b r) (n + 1)) s1) = x at hf p1
          generalize frame .low code (setSeq (.run (.display b r) (n + 1)) t1) = y at hf p2
          cases hf with
          | @done u v g gr =>
            refine .done g ⟨gr, ?_⟩
            have q1 := p1 u rfl
            have q2 := p2 v rfl
            simp only [Prod.mk.injEq] at q1 q2
            rw [q1.1, q1.2, q2.1]
            exact h1.2.2
          | trapped g => exact .trapped g
          | waits g => exact .waits g
          | fault e => exact .fault e
        have hc1 : (setSeq (.run (.display b r) (n + 1)) s1).cfg = s.cfg := h1.1
        rw [← hc1]
        exact withCfg (fixS _) hk
    have ff : FramesFix State.cfg := framesFix_of (fun _ _ => rfl) (fun _ _ => rfl) (fun _ _ => rfl) fun _ => rfl
    refine runRows_cons_inStep (R := fun s' t' => s'.cfg = s.cfg ∧ Alike s' t') ?_ fun s1 t1 h1 => ?_
    · have hp := prepare (setSeq (.run (.display b r) 0) s) (setSeq (.run (.display b r) 0) t) ⟨h.cfg, h.link, h.busy⟩
      have hf := prepareDraw_fixes ff (setSeq (.run (.display b r) 0) s)
      show InStep _ _ _ (prepareDraw _) (prepareDraw _)
      generalize prepareDraw (setSeq (.run (.display b r) 0) s) = x at hp hf
      generalize prepareDraw (setSeq (.run (.display b r) 0) t) = y at hp
      cases hp with
      | done g gr => exact .done g ⟨hf _ rfl, gr⟩
      | trapped g => exact .trapped g
      | waits g => exact .waits g
      | fault e => exact .fault e
    · refine operand b Params.codeWriteBlack .identity 1 _ s1 t1 h1.2.cfg.symm (by rw [h1.1]; exact hg) h1.2
        fun s2 t2 c2 h2 => ?_
      refine operand r Params.codeWriteRed .complement 3 _ s2 t2 h2.cfg.symm (by rw [c2, h1.1]; exact hg) h2
        fun s3 t3 _ h3 => ?_
      refine runRows_inStep [{ body := turnOnDisplay, post := setPhase .displaying }] 5 s3 t3 ?_ h3
      intro r hr
      simp only [List.mem_cons, List.not_mem_nil, or_false] at hr
      subst hr
      exact ⟨turnOnDisplay_inStep, post _⟩

end Sys2Proof.Machine
end

