-- ==== Sys2Proof/Laws/PerInstr.lean ====
section
/-! SUPPORT. One statement per instruction: its encoding against its row of spec/opcode_table.json. -/

namespace Sys2Proof.Laws.TableRow

/-- The word a request's bytes stand for, bit 0 the least significant bit of the first. -/
def word : List Byte → Nat
  | [] => 0
  | b :: bs => b.toNat + 256 * word bs

/-- `mask` and `match` of the instruction's row, copied from the table; none for the rows without an encoding. -/
def row : Instr → Option (Nat × Nat)
  | .setup => some (0x1C, 0x00)
  | .initPanel => some (0x1C, 0x04)
  | .clear => some (0x1C, 0x08)
  | .display _ _ => some (0x1C, 0x0C)
  | .sleep => some (0x1C, 0x10)
  | .teardown => some (0x1C, 0x14)
  | .reserved6 => some (0x1C, 0x18)
  | .reserved7 => some (0x1C, 0x1C)
  | .sendCommand _ => some (0x100, 0x000)
  | .sendData _ => some (0x100, 0x100)
  | .pcScanMux => some (0x1FF, 0x001)
  | .pcSoftStart => some (0x1FF, 0x00C)
  | .pcDeepSleep => some (0x1FF, 0x010)
  | .pcDataEntryMode => some (0x1FF, 0x011)
  | .pcSwReset => some (0x1FF, 0x012)
  | .pcDisplayOption => some (0x1FF, 0x018)
  | .pcActivate => some (0x1FF, 0x020)
  | .pcDisplayUpdateControl _ => some (0x1FF, 0x022)
  | .pcWriteBlackPlane _ => some (0x1FF, 0x024)
  | .pcWriteRedPlane _ => some (0x1FF, 0x026)
  | .pcBorderVbd => some (0x1FF, 0x03C)
  | .pcRamXWindow => some (0x1FF, 0x044)
  | .pcRamYWindow => some (0x1FF, 0x045)
  | .pcAutoWrite1 => some (0x1FF, 0x046)
  | .pcAutoWrite2 => some (0x1FF, 0x047)
  | .pcFinalPair => some (0x1FF, 0x04E)
  | .pcRamAddressCounter => some (0x1FF, 0x04F)
  | .reset => none
  | .waitIdle => none
  | .prepareDraw => none
  | .streamFill _ => none
  | .convert _ => none
  | .streamPlane _ => none
  | .turnOnDisplay => none

/-- At the default configuration the instruction's word has the fixed bits of its row; a row without an encoding has no
word at any configuration (R91, R94, R95, R100, R111). -/
def Statement (i : Instr) : Prop :=
  match row i with
  | some (mask, value) => ∃ r, encode Cfg.reference i = some r ∧ word r.bytes &&& mask = value
  | none => ∀ c, encode c i = none

theorem display_word (b r : Bool) : word [hostByte 3 b r] &&& 0x1C = 0x0C := by
  revert b r
  decide

theorem frame_dc (dc : Bool) (v : Byte) : word (frameBytes false dc v) &&& 0x100 = 256 * dc.toNat := by
  revert v
  cases dc <;> decide

theorem setup : Statement (.setup) := ⟨_, rfl, by decide⟩

theorem initPanel : Statement (.initPanel) := ⟨_, rfl, by decide⟩

theorem clear : Statement (.clear) := ⟨_, rfl, by decide⟩

theorem display (b r : Option Image) : Statement (.display b r) := ⟨_, rfl, display_word b.isSome r.isSome⟩

theorem sleep : Statement (.sleep) := ⟨_, rfl, by decide⟩

theorem teardown : Statement (.teardown) := ⟨_, rfl, by decide⟩

theorem reserved6 : Statement (.reserved6) := ⟨_, rfl, by decide⟩

theorem reserved7 : Statement (.reserved7) := ⟨_, rfl, by decide⟩

theorem sendCommand (v : Byte) : Statement (.sendCommand v) := ⟨_, rfl, frame_dc false v⟩

theorem sendData (v : Byte) : Statement (.sendData v) := ⟨_, rfl, frame_dc true v⟩

theorem pcScanMux : Statement (.pcScanMux) := ⟨_, rfl, by decide⟩

theorem pcSoftStart : Statement (.pcSoftStart) := ⟨_, rfl, by decide⟩

theorem pcDeepSleep : Statement (.pcDeepSleep) := ⟨_, rfl, by decide⟩

theorem pcDataEntryMode : Statement (.pcDataEntryMode) := ⟨_, rfl, by decide⟩

theorem pcSwReset : Statement (.pcSwReset) := ⟨_, rfl, by decide⟩

theorem pcDisplayOption : Statement (.pcDisplayOption) := ⟨_, rfl, by decide⟩

theorem pcActivate : Statement (.pcActivate) := ⟨_, rfl, by decide⟩

theorem pcDisplayUpdateControl (u : DucUse) : Statement (.pcDisplayUpdateControl u) := by
  cases u <;> exact ⟨_, rfl, by decide⟩

theorem pcWriteBlackPlane (u : PlaneUse) : Statement (.pcWriteBlackPlane u) := by
  cases u <;> exact ⟨_, rfl, by decide⟩

theorem pcWriteRedPlane (u : PlaneUse) : Statement (.pcWriteRedPlane u) := by
  cases u <;> exact ⟨_, rfl, by decide⟩

theorem pcBorderVbd : Statement (.pcBorderVbd) := ⟨_, rfl, by decide⟩

theorem pcRamXWindow : Statement (.pcRamXWindow) := ⟨_, rfl, by decide⟩

theorem pcRamYWindow : Statement (.pcRamYWindow) := ⟨_, rfl, by decide⟩

theorem pcAutoWrite1 : Statement (.pcAutoWrite1) := ⟨_, rfl, by decide⟩

theorem pcAutoWrite2 : Statement (.pcAutoWrite2) := ⟨_, rfl, by decide⟩

theorem pcFinalPair : Statement (.pcFinalPair) := ⟨_, rfl, by decide⟩

theorem pcRamAddressCounter : Statement (.pcRamAddressCounter) := ⟨_, rfl, by decide⟩

theorem reset : Statement (.reset) := fun _ => rfl

theorem waitIdle : Statement (.waitIdle) := fun _ => rfl

theorem prepareDraw : Statement (.prepareDraw) := fun _ => rfl

theorem streamFill (v : Byte) : Statement (.streamFill v) := fun _ => rfl

theorem convert (img : Image) : Statement (.convert img) := fun _ => rfl

theorem streamPlane (f : PlaneXform) : Statement (.streamPlane f) := fun _ => rfl

theorem turnOnDisplay : Statement (.turnOnDisplay) := fun _ => rfl

end Sys2Proof.Laws.TableRow
end

