-- ==== Sys2Proof/Laws/Stops.lean ====
section
/-! SUPPORT. Where an operation stops: how many answers of the transport each piece and each row takes, the row in which
a fatal exception ends an operation, and the phase an operation that has not ended shows. -/

namespace Sys2Proof.Machine

/-! ### Answers taken -/

/-- How many answers of the transport the events of `T` took. -/
def State.answers (s : State) : Nat := s.trace.countP Event.asksLink

@[simp] theorem answers_setSeq (q : Seq) (s : State) : (setSeq q s).answers = s.answers := rfl
@[simp] theorem answers_setPhase (p : Phase) (s : State) : (setPhase p s).answers = s.answers := rfl
@[simp] theorem answers_takeFatal (c : ErrCode) (s : State) : (takeFatal c s).answers = s.answers := rfl
@[simp] theorem answers_performed (s : State) (es : List Event) :
    (s.performed es).answers = s.answers + es.countP Event.asksLink := by
  simp [State.answers, State.performed, List.countP_append, Nat.add_comm]

/-- The events appended between two states took the difference of their answers. -/
theorem answers_appended {s t : State} {es : List Event} (h : t.T = s.T ++ es) :
    t.answers = s.answers + es.countP Event.asksLink := by
  have h' := congrArg (List.countP Event.asksLink) h
  simpa [State.T, State.answers, List.countP_append] using h'

/-- Run in full the flow takes `n` answers; ended by a failed one it takes at least that one and at most `n`. -/
def Asks (n : Nat) (s : State) : Flow → Prop
  | .done t => t.cfg = s.cfg ∧ t.answers = s.answers + n
  | .trapped t => s.answers < t.answers ∧ t.answers ≤ s.answers + n
  | .waits _ => True
  | .fault _ => True

theorem Asks.andThen {a b : Nat} {s : State} {x : Flow} {f : State → Flow} (h : Asks a s x)
    (g : ∀ t, t.cfg = s.cfg → Asks b t (f t)) : Asks (a + b) s (x.andThen f) := by
  cases x with
  | done t =>
    obtain ⟨hc, ht⟩ := h
    have hg := g t hc
    simp only [Flow.done_andThen]
    cases hx : f t with
    | done u => rw [hx] at hg; exact ⟨hg.1.trans hc, by rw [hg.2, ht, Nat.add_assoc]⟩
    | trapped u =>
      rw [hx] at hg
      obtain ⟨h1, h2⟩ := hg
      exact ⟨by omega, by omega⟩
    | waits u => trivial
    | fault e => trivial
  | trapped t => exact ⟨h.1, by have := h.2; omega⟩
  | waits t => trivial
  | fault e => trivial

/-- A piece that begins in a state with the same configuration and answers. -/
theorem Asks.of_eq {n : Nat} {s s' : State} {x : Flow} (h : Asks n s' x) (hc : s'.cfg = s.cfg)
    (ha : s'.answers = s.answers) : Asks n s x := by
  cases x with
  | done t => exact ⟨h.1.trans hc, by rw [h.2, ha]⟩
  | trapped t => exact ⟨by rw [← ha]; exact h.1, by rw [← ha]; exact h.2⟩
  | waits t => trivial
  | fault e => trivial

theorem Asks.forFrom {m : Nat} {f : Nat → State → Flow} (h : ∀ a s, Asks m s (f a s)) :
    ∀ n a s, Asks (n * m) s (forFrom a n f s)
  | 0, _, _ => ⟨.refl _, by simp⟩
  | n + 1, a, s => by
    rw [forFrom_succ, Nat.add_mul, Nat.one_mul, Nat.add_comm]
    exact Asks.andThen (h a s) fun t _ => Asks.forFrom h n (a + 1) t

theorem frame_asks (mode : Level) (v : Byte) (s : State) : Asks 1 s (frame mode v s) := by
  rcases frame_cases mode v s with e | e <;> rw [e]
  · exact ⟨.refl _, by simp [Script.frame, List.countP_cons, Event.asksLink]⟩
  · exact ⟨by simp [List.countP_cons, Event.asksLink], by simp [List.countP_cons, Event.asksLink]⟩

theorem openBus_asks (s : State) : Asks 1 s (openBus s) := by
  cases h : s.link.get 0 with
  | ok => rw [openBus_of_ok h]; exact ⟨.refl _, by simp [Event.asksLink]⟩
  | fail => rw [openBus_of_fail h]; exact ⟨by simp [Event.asksLink], by simp [Event.asksLink]⟩

theorem sendAll_asks : ∀ (vs : List Byte) (s : State), Asks vs.length s (sendAll vs s)
  | [], _ => ⟨.refl _, .refl _⟩
  | v :: vs, s => by
    rw [List.length_cons, Nat.add_comm]
    exact Asks.andThen (frame_asks .high v s) fun t _ => sendAll_asks vs t

theorem streamByte_asks (v : Byte) (s : State) : Asks 1 s (streamByte v s) :=
  Asks.andThen (b := 0) (frame_asks .high v s) fun _ _ => ⟨.refl _, .refl _⟩

theorem streamFill_asks (v : Byte) (s : State) : Asks s.cfg.planeBytes s (streamFill v s) := by
  have h := Asks.forFrom (fun _ t => streamByte_asks v t) s.cfg.planeBytes 0 { s with k := 0 }
  rw [Nat.mul_one] at h
  exact h.of_eq (.refl _) (.refl _)

theorem streamPlane_asks (f : PlaneXform) (s : State) : Asks s.cfg.planeBytes s (streamPlane f s) := by
  have body : ∀ a t, Asks 1 t (memRead a (fun b => streamByte (PlaneXform.apply f b)) t) := by
    intro a t
    unfold memRead
    split
    · exact streamByte_asks _ t
    · trivial
  have h := Asks.forFrom body s.cfg.planeBytes 0 { s with k := 0 }
  rw [Nat.mul_one] at h
  exact h.of_eq (.refl _) (.refl _)

theorem paramCommand_asks {p : PanelCommand} (hp : hasParams p = true) (s : State) :
    Asks (1 + (panelParams s.cfg p).length) s (panelCommand p s) :=
  Asks.andThen (frame_asks .low _ s) fun t ht => by
    rw [panelData_of_hasParams hp, ← ht]
    exact sendAll_asks _ t

theorem pollLoop_asks : ∀ n s, Asks 0 s (pollLoop n s)
  | 0, _ => trivial
  | n + 1, s => by
    rw [pollLoop]
    split
    · exact (pollLoop_asks n _).of_eq (.refl _) (by rw [sleepFor_eq_performed, pollBusy_eq_performed]; rfl)
    · exact ⟨.refl _, by rw [sleepFor_eq_performed, pollBusy_eq_performed]; rfl⟩

theorem pollOn_asks (s : State) : Asks 0 s (pollOn s) := pollLoop_asks _ s

theorem waitIdle_asks (s : State) : Asks 0 s (waitIdle s) := (pollOn_asks _).of_eq (.refl _) (.refl _)

theorem turnOnDisplay_asks (s : State) : Asks 3 s (turnOnDisplay s) :=
  Asks.andThen (a := 2) (b := 1) (paramCommand_asks (p := .displayUpdateControl .turnOn) rfl s) fun t _ =>
    Asks.andThen (a := 1) (b := 0) (paramCommand_asks (p := .activate) rfl t) fun u _ =>
      (waitIdle_asks _).of_eq (.refl _) (by rw [sleepFor_eq_performed]; rfl)

theorem convert_asks (img : Image) (s : State) : Asks 0 s (convert img s) := by
  have pixel : ∀ j i t, Asks 0 t (convertPixel img j i t) := by
    intro j i t
    refine Asks.of_eq (s' := accumulate img j i { t with i := i, j := j }) ?_ (by unfold accumulate; split <;> rfl)
      (by unfold accumulate; split <;> rfl)
    unfold convertPixel storeGroup memWrite
    split
    · split
      · exact ⟨.refl _, .refl _⟩
      · trivial
    · exact ⟨.refl _, .refl _⟩
  have row : ∀ j t, Asks 0 t (convertRow img j t) := fun j t => Asks.forFrom (m := 0) (pixel j) _ 0 t
  have all := Asks.forFrom (m := 0) row s.cfg.height 0 { s with acc := 0 }
  exact Asks.andThen (b := 0) (all.of_eq (.refl _) (.refl _)) fun _ _ => ⟨.refl _, .refl _⟩

/-! ### Rows -/

theorem rowAnswers_length (c : Cfg) (op : HostOp) : (rowAnswers c op).length = (rowsOf op).length := by
  cases op <;> rfl

/-- Every row takes the answers the table of `rowAnswers` gives it. -/
theorem row_asks (op : HostOp) (n : Nat) (r : Row) (s : State) (h : (rowsOf op)[n]? = some r) :
    Asks ((rowAnswers s.cfg op)[n]?.getD 0) s (r.body s) := by
  have command : ∀ {p : PanelCommand}, hasParams p = true →
      Asks (1 + (panelParams s.cfg p).length) s ((commandRow p).body s) := fun hp => paramCommand_asks hp s
  have commandWait : ∀ {p : PanelCommand}, hasParams p = true →
      Asks (1 + (panelParams s.cfg p).length) s ((commandWaitRow p).body s) := fun hp =>
    Asks.andThen (b := 0) (paramCommand_asks hp s) fun t _ => waitIdle_asks t
  have prepare : Asks 3 s (prepareDraw s) := paramCommand_asks (p := .ramAddressCounter) rfl s
  cases op with
  | setup =>
    match n with
    | 0 => cases h; exact openBus_asks s
    | n + 1 => simp [rowsOf, setupRows] at h
  | sleep =>
    match n with
    | 0 => cases h; exact paramCommand_asks (p := .deepSleep) rfl s
    | n + 1 => simp [rowsOf, sleepRows] at h
  | teardown =>
    match n with
    | 0 => cases h; exact ⟨.refl _, .refl _⟩
    | 1 => cases h; exact ⟨.refl _, .refl _⟩
    | 2 => cases h; exact ⟨.refl _, .refl _⟩
    | n + 3 => simp [rowsOf, teardownRows] at h
  | clear =>
    match n with
    | 0 => cases h; exact prepare
    | 1 => cases h; exact frame_asks .low _ s
    | 2 => cases h; exact streamFill_asks _ s
    | 3 => cases h; exact frame_asks .low _ s
    | 4 => cases h; exact streamFill_asks _ s
    | 5 => cases h; exact turnOnDisplay_asks s
    | n + 6 => simp [rowsOf, clearRows] at h
  | display b r' =>
    have conv : ∀ img, Asks 0 s (convertOperand img s) := by
      intro img
      cases img
      · exact ⟨.refl _, .refl _⟩
      · exact convert_asks _ s
    have stream : ∀ code f img, Asks (Script.planeFrames s.cfg img) s (streamOperand code f img s) := by
      intro code f img
      cases img
      · exact ⟨.refl _, .refl _⟩
      · exact Asks.andThen (frame_asks .low code s) fun t ht => by rw [← ht]; exact streamPlane_asks f t
    match n with
    | 0 => cases h; exact prepare
    | 1 => cases h; exact conv b
    | 2 => cases h; exact stream _ _ b
    | 3 => cases h; exact conv r'
    | 4 => cases h; exact stream _ _ r'
    | 5 => cases h; exact turnOnDisplay_asks s
    | n + 6 => simp [rowsOf, displayRows] at h
  | initPanel =>
    match n with
    | 0 => cases h; exact ⟨.refl _, by rw [resetPulse_eq_performed]; rfl⟩
    | 1 => cases h; exact commandWait rfl
    | 2 => cases h; exact commandWait rfl
    | 3 => cases h; exact commandWait rfl
    | 4 => cases h; exact command rfl
    | 5 => cases h; exact command rfl
    | 6 => cases h; exact command rfl
    | 7 => cases h; exact command rfl
    | 8 => cases h; exact command rfl
    | 9 => cases h; exact command rfl
    | 10 => cases h; exact command rfl
    | 11 => cases h; exact command rfl
    | 12 => cases h; exact command rfl
    | 13 => cases h; exact waitIdle_asks s
    | 14 => cases h; exact command rfl
    | 15 => cases h; exact prepare
    | n + 16 => simp [rowsOf, initRows] at h

theorem answersBefore_self (c : Cfg) (op : HostOp) (n : Nat) : answersBefore c op n n = 0 := by
  simp [answersBefore]

/-- The answers of the rows from `n` on: those of row `n`, and those of the rows after it. -/
theorem answersBefore_step (c : Cfg) (op : HostOp) {n m : Nat} (h : n < m) (hl : n < (rowsOf op).length) :
    answersBefore c op n m = (rowAnswers c op)[n]?.getD 0 + answersBefore c op (n + 1) m := by
  have hl' : n < ((rowAnswers c op).take m).length := by rw [List.length_take, rowAnswers_length]; omega
  unfold answersBefore
  rw [List.drop_eq_getElem_cons hl', List.sum_cons, List.getElem_take,
    List.getElem?_eq_getElem (by rw [rowAnswers_length]; exact hl)]
  rfl

/-! ### Where a run of rows stops -/

/-- What a run of the rows of `op` from row `n` of state `t` on shows where it stops in `u`, in a row or before its
end. -/
structure StopsIn (op : HostOp) (n : Nat) (t u : State) (row : Nat) : Prop where
  from_le : n ≤ row
  haltedAt : u.seq = .halted → u.haltedAt = some (op, row)
  answers : u.seq = .halted → t.answers + answersBefore t.cfg op n row < u.answers ∧
    u.answers ≤ t.answers + answersBefore t.cfg op n (row + 1)
  phase : u.phase = (rowStart op n t).phase

/-- The state of a flow that did not run to its end. -/
def Flow.stopped? : Flow → Option State
  | .done _ => none
  | .trapped t => some t
  | .waits t => some t
  | .fault _ => none

theorem rowStart_later {op : HostOp} {n : Nat} (h : n ≠ 0) (s : State) : rowStart op n s = s := by
  simp [rowStart, h]

/-- One row that stops. -/
theorem row_stops {op : HostOp} {n : Nat} {r : Row} {t u : State} (hr : (rowsOf op)[n]? = some r)
    (hs : (r.body (setSeq (.run op n) t)).stopped? = some u) : StopsIn op n t u n := by
  have hl : n < (rowsOf op).length := by
    by_contra hc
    rw [List.getElem?_eq_none (by omega)] at hr
    cases hr
  have hp := (rowFacts op n r hr).piece (fun _ => True) (setSeq (.run op n) t) fun _ _ => trivial
  have ha := row_asks op n r (setSeq (.run op n) t) hr
  have hq : (rowStart op n (setSeq (.run op n) t)).seq = .run op n := by unfold rowStart; split <;> rfl
  have hph : (rowStart op n (setSeq (.run op n) t)).phase = (rowStart op n t).phase := by
    unfold rowStart; split <;> rfl
  cases hb : r.body (setSeq (.run op n) t) with
  | done v => rw [hb] at hs; cases hs
  | fault e => rw [hb] at hs; cases hs
  | trapped v =>
    rw [hb] at hs hp ha
    cases hs
    obtain ⟨h1, _, _, h4, _, _⟩ := hp
    refine ⟨Nat.le_refl n, fun _ => by rw [h4, State.position, hq], fun _ => ?_, h1.phase.trans hph⟩
    rw [answersBefore_self, answersBefore_step _ _ (Nat.lt_succ_self n) hl, answersBefore_self]
    exact ⟨ha.1, ha.2⟩
  | waits v =>
    rw [hb] at hs hp
    cases hs
    obtain ⟨h1, _, h3, _⟩ := hp
    rw [hq] at h3
    exact ⟨Nat.le_refl n, fun h => by rw [h3] at h; (cases h), fun h => by rw [h3] at h; (cases h), h1.phase.trans hph⟩

/-- A run of rows that does not reach its end stops in one of them. -/
theorem runRows_stops {op : HostOp} : ∀ (k n : Nat) (t u : State), n + k = (rowsOf op).length →
    (runRows op n ((rowsOf op).drop n) t).stopped? = some u → ∃ row, StopsIn op n t u row
  | 0, n, t, u, hn, h => by
    rw [List.drop_eq_nil_of_le (by omega)] at h
    cases h
  | k + 1, n, t, u, hn, h => by
    have hl : n < (rowsOf op).length := by omega
    obtain ⟨r, hr⟩ : ∃ r, (rowsOf op)[n]? = some r := ⟨_, List.getElem?_eq_getElem hl⟩
    have hd : (rowsOf op).drop n = r :: (rowsOf op).drop (n + 1) := by
      rw [List.drop_eq_getElem_cons hl]
      rw [List.getElem?_eq_getElem hl] at hr
      rw [Option.some.inj hr]
    rw [hd, runRows] at h
    cases hb : r.body (setSeq (.run op n) t) with
    | trapped v => rw [hb] at h; exact ⟨n, row_stops hr (by rw [hb]; exact h)⟩
    | waits v => rw [hb] at h; exact ⟨n, row_stops hr (by rw [hb]; exact h)⟩
    | fault e => rw [hb] at h; cases h
    | done v =>
      have facts := rowFacts op n r hr
      rw [hb, Flow.done_andThen, facts.post] at h
      by_cases hlast : n + 1 = (rowsOf op).length
      · rw [List.drop_eq_nil_of_le (by omega)] at h
        cases h
      · rw [if_neg hlast] at h
        obtain ⟨row, hrow⟩ := runRows_stops k (n + 1) v u (by omega) h
        have hp := facts.piece (fun _ => True) (setSeq (.run op n) t) fun _ _ => trivial
        have ha := row_asks op n r (setSeq (.run op n) t) hr
        rw [hb] at hp ha
        obtain ⟨hc, hans⟩ := ha
        have hc' : v.cfg = t.cfg := hc
        have hans' : v.answers = t.answers + (rowAnswers t.cfg op)[n]?.getD 0 := hans
        refine ⟨row, Nat.le_of_succ_le hrow.from_le, hrow.haltedAt, fun hu => ?_, ?_⟩
        · obtain ⟨h1, h2⟩ := hrow.answers hu
          rw [hc', hans'] at h1 h2
          have hle := hrow.from_le
          rw [answersBefore_step _ _ (show n < row by omega) hl, answersBefore_step _ _ (show n < row + 1 by omega) hl]
          exact ⟨by omega, by omega⟩
        · rw [hrow.phase, rowStart_later (by omega)]
          refine hp.1.phase.trans ?_
          unfold rowStart; split <;> rfl

/-! ### Whole operations -/

/-- An operation begun at `s` that stops in one of its rows. -/
theorem runOp_stops {op : HostOp} {s u : State} (h : (runOp op s).stopped? = some u) :
    ∃ row, StopsIn op 0 s u row := by
  refine runRows_stops (rowsOf op).length 0 s u (by omega) ?_
  rw [List.drop_zero]
  exact h

theorem pollOn_sameOutside {s u : State} (h : (pollOn s).state? = some u) :
    u.phase = s.phase ∧ u.cfg = s.cfg ∧ u.answers = s.answers ∧ u.seq = s.seq := by
  have hp := pollOn_fixes (key := fun s : State => (s.phase, s.cfg, s.answers, s.seq))
    ⟨fun s => by rw [pollBusy_eq_performed]; simp [State.answers, State.performed, Event.asksLink],
      fun ms s => by rw [sleepFor_eq_performed]; simp [State.answers, State.performed, Event.asksLink],
      fun _ _ => rfl, fun _ _ => rfl⟩ s u h
  simpa using hp

/-- An operation gone on with from the WaitIdle of its row `n` that stops: in that row still polling, or in a later
row. -/
theorem resume_stops {op : HostOp} {n : Nat} {s u : State} (hq : s.seq = .run op n) (hw : s.waiting = true)
    (h : (resume s).stopped? = some u) :
    u.seq = .run op n ∧ u.phase = s.phase ∨ ∃ row, StopsIn op (n + 1) s u row := by
  unfold resume at h
  rw [hq] at h
  simp only [hw, if_true] at h
  cases hb : pollOn s with
  | trapped v => exact absurd hb (pollOn_not_trapped s v)
  | fault e => rw [hb] at h; cases h
  | waits v =>
    rw [hb] at h
    cases h
    obtain ⟨h1, _, _, h4⟩ := pollOn_sameOutside (s := s) (u := u) (by rw [hb]; rfl)
    exact .inl ⟨h4.trans hq, h1⟩
  | done v =>
    obtain ⟨h1, h2, h3, _⟩ := pollOn_sameOutside (s := s) (u := v) (by rw [hb]; rfl)
    rw [hb, Flow.done_andThen] at h
    by_cases hl : n < (rowsOf op).length
    · obtain ⟨r, hr⟩ : ∃ r, (rowsOf op)[n]? = some r := ⟨_, List.getElem?_eq_getElem hl⟩
      have hd : (rowsOf op).drop n = r :: (rowsOf op).drop (n + 1) := by
        rw [List.drop_eq_getElem_cons hl]
        rw [List.getElem?_eq_getElem hl] at hr
        rw [Option.some.inj hr]
      rw [hd] at h
      simp only [(rowFacts op n r hr).post] at h
      by_cases hlast : n + 1 = (rowsOf op).length
      · rw [List.drop_eq_nil_of_le (by omega)] at h
        cases h
      · rw [if_neg hlast] at h
        obtain ⟨row, g⟩ := runRows_stops ((rowsOf op).length - (n + 1)) (n + 1) v u (by omega) h
        refine .inr ⟨row, g.from_le, g.haltedAt, fun hu => ?_, ?_⟩
        · obtain ⟨a, b⟩ := g.answers hu
          rw [h3, h2] at a b
          exact ⟨a, b⟩
        · rw [g.phase, rowStart_later (by omega), rowStart_later (by omega), h1]
    · rw [List.drop_eq_nil_of_le (by omega)] at h
      cases h

/-- A fatal exception in a run of rows, as `FatalIn` states it. -/
theorem StopsIn.fatalIn {op : HostOp} {n row : Nat} {s u : State} {es : List Event} (h : StopsIn op n s u row)
    (hq : u.seq = .halted) (hT : u.T = s.T ++ es) (hph : op = .initPanel → n = 0 ∨ s.phase = .inReset) :
    FatalIn op n s u := by
  have ha := answers_appended hT
  obtain ⟨h1, h2⟩ := h.answers hq
  refine ⟨⟨row, es, h.haltedAt hq, hT, by omega, by omega⟩, ?_⟩
  rw [h.phase]
  unfold rowStart
  by_cases hi : op = .initPanel
  · rcases hph hi with hn | hp
    · rw [if_pos ⟨hi, hn⟩, if_pos hi]; rfl
    · rw [if_pos hi]
      split
      · rfl
      · exact hp
  · rw [if_neg (fun hc => hi hc.1), if_neg hi]

/-! ### Fatal entry -/

/-- A broken piece or operation is a fatal entry. -/
theorem Broken.fatalEntry {P : Byte → Prop} {s t : State} {es fs : List Event} (he : Chunks P es)
    (hb : Broken P fs t.err) (hl : Logged s t (es ++ fs)) (ho : t.opened = s.opened) (hq : t.seq = .halted) :
    FatalEntry s t := by
  refine ⟨hq, ?_⟩
  have hcs := hl.cs
  have hdc := hl.dc
  have hT := hl.T
  generalize t.err = e at hb
  cases hb with
  | frame m v _ =>
    refine ⟨es ++ [.setLine .dc m, .setLine .cs .low], _, by rw [hT]; simp [brokenFrame], ?_,
      .inr ⟨v, m, es, .refl _, .refl _, .refl _, ?_, ?_⟩⟩
    · intro x hx
      rcases List.mem_append.mp hx with hx | hx
      · exact he.not_failed x hx
      · simp only [List.mem_cons, List.not_mem_nil, or_false] at hx
        rcases hx with rfl | rfl <;> rfl
    · rw [hcs, latchAfter_append]; rfl
    · rw [hdc, latchAfter_append]; rfl
  | bus => exact ⟨es, _, by rw [hT]; simp, he.not_failed, .inl ⟨.refl _, .refl _, ho⟩⟩

theorem Halted.fatalEntry {P : Byte → Prop} {op : HostOp} {s t : State} (h : Halted P op s t) : FatalEntry s t := by
  obtain ⟨es, fs, he, hf, hl⟩ := h.logged
  exact hf.fatalEntry he hl h.opened h.seq

/-- What turns a block fatal is an operation that halted. -/
theorem Outcomes.halted {P : Byte → Prop} {op : HostOp} {s t : State} (h : Outcomes P op s t) (hs : s.fatal = false)
    (ht : t.fatal = true) : Halted P op s t := by
  rcases h with ⟨u, hu, rfl⟩ | h | ⟨u, r, hu, _, rfl⟩
  · have hf : u.fatal = true := by cases op <;> exact ht
    rw [hu.fatal, hs] at hf
    cases hf
  · exact h
  · rw [show _ = u.fatal from rfl, hu.fatal, hs] at ht
    cases ht

/-- Running to its end leaves `fatal` alone. -/
def KeepsFatal (s : State) (x : Flow) : Prop := ∀ u, x = .done u → u.fatal = s.fatal

theorem runRows_keepsFatal (op : HostOp) (n : Nat) (s : State) :
    KeepsFatal s (runRows op n ((rowsOf op).drop n) s) := by
  intro u hu
  by_cases hn : n < (rowsOf op).length
  · have h := runRows_facts (P := fun _ => True) (op := op) (s := s) (fun _ _ => trivial)
      ((rowsOf op).length - (n + 1)) n s (by omega) (.rfl _ op s)
    rw [hu] at h
    obtain ⟨v, hv, rfl⟩ := h
    rw [← hv.fatal]
    cases op <;> rfl
  · rw [List.drop_eq_nil_of_le (by omega)] at hu
    cases hu
    rfl

theorem runOp_keepsFatal (op : HostOp) (s : State) : KeepsFatal s (runOp op s) := runRows_keepsFatal op 0 s

theorem pollOn_keepsFatal (s : State) : KeepsFatal s (pollOn s) := by
  intro u hu
  have h := pollOn_piece (P := fun _ => True) s
  rw [hu] at h
  obtain ⟨_, _, _, _, h5, _⟩ := h
  exact h5

theorem finish_fatal (op : HostOp) (s : State) : (finish op s).fatal = s.fatal := by cases op <;> rfl

theorem resume_keepsFatal (s : State) : KeepsFatal s (resume s) := by
  intro u hu
  unfold resume at hu
  split at hu
  · next op n _ =>
    split at hu
    · cases hb : pollOn s with
      | trapped v => rw [hb] at hu; cases hu
      | waits v => rw [hb] at hu; cases hu
      | fault e => rw [hb] at hu; cases hu
      | done v =>
        rw [hb, Flow.done_andThen] at hu
        rw [← pollOn_keepsFatal s v hb]
        by_cases hl : n < (rowsOf op).length
        · rw [List.drop_eq_getElem_cons hl] at hu
          simp only [(rowFacts op n _ (List.getElem?_eq_getElem hl)).post] at hu
          rw [runRows_keepsFatal op (n + 1) _ u hu]
          split
          · exact finish_fatal op v
          · rfl
        · rw [List.drop_eq_nil_of_le (by omega)] at hu
          cases hu
          rfl
    · exact runRows_keepsFatal op n s u hu
  · exact pollOn_keepsFatal s u hu
  · exact pollOn_keepsFatal s u hu

/-- A flow that turns the block fatal stopped. -/
theorem stopped_of_fatal {s t : State} {x : Flow} (hk : KeepsFatal s x) (h : x.outcome = .next t)
    (hs : s.fatal = false) (ht : t.fatal = true) : x.stopped? = some t := by
  cases x with
  | done u => cases h; rw [hk _ rfl, hs] at ht; cases ht
  | trapped u => cases h; rfl
  | waits u => cases h; rfl
  | fault e => cases h

/-! ### The phase of a running Initialize -/

theorem runRows_done_settles (op : HostOp) : ∀ (rs : List Row) (n : Nat) (s u : State), runRows op n rs s = .done u →
    ∃ v, u = endOp v
  | [], _, s, _, h => ⟨s, by cases h; rfl⟩
  | r :: rs, n, s, u, h => by
    rw [runRows] at h
    cases hb : r.body (setSeq (.run op n) s) with
    | done v => rw [hb, Flow.done_andThen] at h; exact runRows_done_settles op rs (n + 1) _ u h
    | trapped v => rw [hb] at h; cases h
    | waits v => rw [hb] at h; cases h
    | fault e => rw [hb] at h; cases h

theorem resume_done_settles {op : HostOp} {n : Nat} {s u : State} (hq : s.seq = .run op n) (h : resume s = .done u) :
    ∃ v, u = endOp v := by
  unfold resume at h
  rw [hq] at h
  simp only at h
  split at h
  · cases hb : pollOn s with
    | done v =>
      rw [hb, Flow.done_andThen] at h
      split at h
      · exact ⟨v, by cases h; rfl⟩
      · exact runRows_done_settles op _ _ _ u h
    | trapped v => rw [hb] at h; cases h
    | waits v => rw [hb] at h; cases h
    | fault e => rw [hb] at h; cases h
  · exact runRows_done_settles op _ _ _ u h

/-- A flow that leaves the position inside an operation stopped, if running to its end it would not. -/
theorem stopped_of_running {t : State} {x : Flow} {op : HostOp} {n : Nat} (hd : ∀ u, x = .done u → ∃ v, u = endOp v)
    (h : x.outcome = .next t) (hq : t.seq = .run op n) : x.stopped? = some t := by
  cases x with
  | done u =>
    cases h
    obtain ⟨v, rfl⟩ := hd _ rfl
    rcases endOp_seq_cases v with ⟨_, g⟩ | ⟨_, g⟩ <;> rw [g] at hq <;> cases hq
  | trapped u => cases h; rfl
  | waits u => cases h; rfl
  | fault e => cases h

/-- An Initialize begun and suspended shows `InReset`. -/
theorem runOp_inReset {s t : State} {n : Nat} (h : (runOp .initPanel s).outcome = .next t)
    (hq : t.seq = .run .initPanel n) : t.phase = .inReset := by
  obtain ⟨row, hr⟩ := runOp_stops (stopped_of_running (runRows_done_settles .initPanel _ 0 s) h hq)
  rw [hr.phase]
  rfl

/-- An Initialize gone on with and suspended again shows the phase it showed. -/
theorem resume_inReset {s t : State} {n m : Nat} (hs : s.seq = .run .initPanel n) (hw : s.waiting = true)
    (hp : s.phase = .inReset) (h : (resume s).outcome = .next t) (hq : t.seq = .run .initPanel m) :
    t.phase = .inReset := by
  rcases resume_stops hs hw (stopped_of_running (fun u hu => resume_done_settles hs hu) h hq) with ⟨_, g⟩ | ⟨row, g⟩
  · rw [g, hp]
  · rw [g.phase, rowStart_later (by omega), hp]

end Sys2Proof.Machine
end

