-- ==== Sys2Proof/Tests/Slice0.lean ====
section
/-! SUPPORT. Tests. Expected values come from spec/95_test_vectors.md ("V<n>", "S<n>"), from the encodings of
spec/30_encoding.md and from hand calculation; the last part shows, for every statement with hypotheses, that they can
be met together. -/

namespace Sys2Proof.Machine.Tests

open Sys2Proof Sys2Proof.Machine

/-! ### Well-formed terms, and a term each check refuses -/

theorem test_wf_image : Image.wf ⟨0, 0, 16, 2, ⟨0, 0, 0⟩, [⟨15, 1, ⟨9, 9, 9⟩⟩]⟩ = true := by decide
theorem test_wf_refuses_panel_code : Instr.wf Cfg.reference (.sendCommand 0x12) = false := by decide
theorem test_wf_refuses_dot_outside : Instr.wf Cfg.reference
    (.convert ⟨0, 0, 16, 2, ⟨0, 0, 0⟩, [⟨16, 1, ⟨9, 9, 9⟩⟩]⟩) = false := by decide
theorem test_wf_refuses_two_dots_in_one_place : Instr.wf Cfg.reference
    (.display none (some ⟨0, 0, 16, 2, ⟨0, 0, 0⟩, [⟨1, 1, ⟨9, 9, 9⟩⟩, ⟨1, 1, ⟨8, 8, 8⟩⟩]⟩)) = false := by decide
theorem test_wf_refuses_black_operand : Instr.wf Cfg.reference
    (.display (some ⟨0, 0, 16, 2, ⟨0, 0, 0⟩, [⟨-1, 0, ⟨9, 9, 9⟩⟩]⟩) none) = false := by decide

/-! ### Decoding (V85 to V95; R91, R100) -/

theorem test_decode_setup : decodeTableWord 8 0b00000 = some .setup := by decide
theorem test_decode_initialize : decodeTableWord 8 0b00100 = some .initPanel := by decide
theorem test_decode_initialize_ignores_presence : decodeTableWord 8 0b00111 = some .initPanel := by decide
theorem test_decode_clear : decodeTableWord 8 0b01000 = some .clear := by decide
theorem test_decode_display_none : decodeTableWord 8 0b01100 = some (.display none none) := by decide
theorem test_decode_display_red : decode Cfg.reference ⟨[0x0D], Image.zero, ⟨1, 2, 3, 4, ⟨5, 6, 7⟩, []⟩⟩ =
    .ok (.display none (some ⟨1, 2, 3, 4, ⟨5, 6, 7⟩, []⟩)) := by rfl
theorem test_decode_display_black : decode Cfg.reference ⟨[0x0E], ⟨1, 2, 3, 4, ⟨5, 6, 7⟩, []⟩, Image.zero⟩ =
    .ok (.display (some ⟨1, 2, 3, 4, ⟨5, 6, 7⟩, []⟩) none) := by rfl
theorem test_decode_sleep : decodeTableWord 8 0b10000 = some .sleep := by decide
theorem test_decode_teardown : decodeTableWord 8 0b10100 = some .teardown := by decide
theorem test_decode_reserved6 : decodeTableWord 8 0b11000 = some .reserved6 := by decide
theorem test_decode_reserved7 : decodeTableWord 8 0b11111 = some .reserved7 := by decide
theorem test_decode_sendCommand : decodeTableWord 16 0b000000010 = some (.sendCommand 0x02) := by decide
theorem test_decode_sendData : decodeTableWord 16 0b110101111 = some (.sendData 0xAF) := by decide
theorem test_decode_scanMux : decodeTableWord 16 0b000000001 = some .pcScanMux := by decide
theorem test_decode_softStart : decodeTableWord 16 0b000001100 = some .pcSoftStart := by decide
theorem test_decode_deepSleep : decodeTableWord 16 0b000010000 = some .pcDeepSleep := by decide
theorem test_decode_dataEntryMode : decodeTableWord 16 0b000010001 = some .pcDataEntryMode := by decide
theorem test_decode_swReset : decodeTableWord 16 0b000010010 = some .pcSwReset := by decide
theorem test_decode_displayOption : decodeTableWord 16 0b000011000 = some .pcDisplayOption := by decide
theorem test_decode_activate : decodeTableWord 16 0b000100000 = some .pcActivate := by decide
theorem test_decode_displayUpdateControl :
    decodeTableWord 16 0b000100010 = some (.pcDisplayUpdateControl .turnOn) := by decide
theorem test_decode_writeBlack : decodeTableWord 16 0b000100100 = some (.pcWriteBlackPlane .buffer) := by decide
theorem test_decode_writeRed : decodeTableWord 16 0b000100110 = some (.pcWriteRedPlane .buffer) := by decide
theorem test_decode_border : decodeTableWord 16 0b000111100 = some .pcBorderVbd := by decide
theorem test_decode_xWindow : decodeTableWord 16 0b001000100 = some .pcRamXWindow := by decide
theorem test_decode_yWindow : decodeTableWord 16 0b001000101 = some .pcRamYWindow := by decide
theorem test_decode_autoWrite1 : decodeTableWord 16 0b001000110 = some .pcAutoWrite1 := by decide
theorem test_decode_autoWrite2 : decodeTableWord 16 0b001000111 = some .pcAutoWrite2 := by decide
theorem test_decode_finalPair : decodeTableWord 16 0b001001110 = some .pcFinalPair := by decide
theorem test_decode_addressCounter : decodeTableWord 16 0b001001111 = some .pcRamAddressCounter := by decide
/-- The container's bit 9 (log 9). -/
theorem test_decode_second_uses :
    decodeTableWord 16 0b1000100010 = some (.pcDisplayUpdateControl .lutSource) ∧
    decodeTableWord 16 0b1000100100 = some (.pcWriteBlackPlane .fill) ∧
    decodeTableWord 16 0b1000100110 = some (.pcWriteRedPlane .fill) := by decide
/-- A code given another role in `Cfg` decodes to that role (R10). -/
theorem test_decode_follows_cfg :
    decode { Cfg.reference with cmdAct := 0x22, cmdDuc := 0x20 } (plainRequest [0x22, 0x00]) = .ok .pcActivate := by rfl
theorem test_decode_rejects :
    decode Cfg.reference (plainRequest [0x20]) = .error (.hostBits 0x20) ∧
    decode Cfg.reference (plainRequest [0x00, 0x04]) = .error (.frameBits 0x400) ∧
    decode Cfg.reference (plainRequest [0x12, 0x02]) = .error (.frameBits 0x212) ∧
    decode Cfg.reference (plainRequest [0x12, 0x03]) = .error (.frameBits 0x312) ∧
    decode Cfg.reference (plainRequest []) = .error (.length 0) ∧
    decode Cfg.reference (plainRequest [1, 2, 3]) = .error (.length 3) := by refine ⟨?_, ?_, ?_, ?_, ?_, ?_⟩ <;> rfl

/-! ### Small states -/

/-- After power-on, at the small geometry of spec/95_test_vectors.md. -/
def small : State := { State.reset with cfg := Cfg.ofGeometry 16 2 }

/-- The same with the bus open and the panel initialized. -/
def live : State := { small with opened := true, phase := .initialized }

/-- The same with a transport that fails its answer `n`, counting from 0. -/
def failAt (n : Nat) (s : State) : State := { s with link := ⟨List.replicate n .ok ++ [.fail], .ok⟩ }

/-- The same with a panel busy for its next `n` polls. -/
def busyFor (n : Nat) (s : State) : State := { s with busy := ⟨List.replicate n .high, .low⟩ }

/-- The same with a panel that reads busy for ever. -/
def stuck (s : State) : State := { s with busy := ⟨[], .high⟩ }

/-- The next state of an instruction; `s` itself where there is none. -/
def after (i : Instr) (s : State) : State :=
  match exec i s with
  | .next t => t
  | .fault _ => s
  | .refused _ => s

/-- Rows that are white but for the listed dots. -/
def imgA : Image :=
  ⟨0, 0, 16, 2, ⟨255, 255, 255⟩, [⟨0, 0, ⟨0, 0, 0⟩⟩, ⟨1, 0, ⟨0, 0, 0⟩⟩, ⟨9, 0, ⟨0, 0, 0⟩⟩, ⟨3, 1, ⟨0, 0, 0⟩⟩,
    ⟨8, 1, ⟨0, 0, 0⟩⟩, ⟨15, 1, ⟨0, 0, 0⟩⟩]⟩

def imgC : Image := ⟨8, 0, 12, 2, ⟨200, 0, 0⟩, []⟩

/-- One row, `BBWBBBBB WBBBBBBB`; the row below is outside. -/
def imgRow : Image := ⟨0, 0, 16, 1, ⟨0, 0, 0⟩, [⟨2, 0, ⟨255, 255, 255⟩⟩, ⟨8, 0, ⟨255, 255, 255⟩⟩]⟩

def plane4 (s : State) : List Byte := [s.pb.byteAt 0, s.pb.byteAt 1, s.pb.byteAt 2, s.pb.byteAt 3]

/-! ### One instruction at a time -/

/-- V1. -/
theorem test_sendCommand : (after (.sendCommand 0x12) small).T =
    [.setLine .dc .low, .setLine .cs .low, .transmit 0x12 .ok, .setLine .cs .high] := by decide
/-- V5. -/
theorem test_sendCommand_fails :
    let t := after (.sendCommand 0x24) (failAt 0 small)
    t.T = [.setLine .dc .low, .setLine .cs .low, .transmit 0x24 .fail] ∧ t.cs = .driven .low ∧ t.fatal = true ∧
      t.err.toNat = 2 ∧ t.seq = .halted := by decide
/-- V3: a level already in force is driven again. -/
theorem test_sendData : (after (.sendData 0x00) { small with dc := .driven .high, cs := .driven .high }).T =
    [.setLine .dc .high, .setLine .cs .low, .transmit 0x00 .ok, .setLine .cs .high] := by decide

/-- The bytes transmitted. -/
def sent (s : State) : List Byte := s.T.filterMap fun e =>
  match e with
  | .transmit v _ => some v
  | _ => none

theorem test_scanMux : sent (after .pcScanMux small) = [0x01, 0xAF, 0x02, 0x01] := by decide
theorem test_softStart : sent (after .pcSoftStart small) = [0x0C, 0xAE, 0xC7, 0xC3, 0xC0, 0x40] := by decide
theorem test_deepSleep : sent (after .pcDeepSleep small) = [0x10, 0x01] := by decide
theorem test_dataEntryMode : sent (after .pcDataEntryMode small) = [0x11, 0x01] := by decide
theorem test_swReset : sent (after .pcSwReset small) = [0x12] := by decide
theorem test_displayOption : sent (after .pcDisplayOption small) = [0x18, 0x80] := by decide
theorem test_activate : sent (after .pcActivate small) = [0x20] := by decide
theorem test_displayUpdateControl : sent (after (.pcDisplayUpdateControl .turnOn) small) = [0x22, 0xC7] ∧
    sent (after (.pcDisplayUpdateControl .lutSource) small) = [0x22, 0xB1] := by decide
theorem test_writeBlack_fill : sent (after (.pcWriteBlackPlane .fill) small) = [0x24, 0xFF, 0xFF, 0xFF, 0xFF] := by decide
theorem test_writeRed_buffer : sent (after (.pcWriteRedPlane .buffer)
    { small with pb := [(0, 0x3F), (1, 0xFF), (2, 0xFF), (3, 0x7F)] }) = [0x26, 0xC0, 0x00, 0x00, 0x80] := by decide
theorem test_border : sent (after .pcBorderVbd small) = [0x3C, 0x01] := by decide
/-- V25, V26 and V27, V28. -/
theorem test_xWindow : sent (after .pcRamXWindow State.reset) = [0x44, 0x00, 0x00, 0x6D, 0x00] ∧
    sent (after .pcRamXWindow { State.reset with cfg := { Cfg.reference with xend16 := 0x036F } }) =
      [0x44, 0x00, 0x00, 0x6F, 0x03] := by decide
theorem test_yWindow : sent (after .pcRamYWindow State.reset) = [0x45, 0x0F, 0x02, 0x00, 0x00] := by decide
theorem test_autoWrite : sent (after .pcAutoWrite1 small) = [0x46, 0xF7] ∧
    sent (after .pcAutoWrite2 small) = [0x47, 0xF7] := by decide
theorem test_finalPair : sent (after .pcFinalPair small) = [0x4E, 0x00, 0x00] := by decide
theorem test_addressCounter : sent (after .pcRamAddressCounter State.reset) = [0x4F, 0x0F, 0x02] := by decide

/-- V15. -/
theorem test_reset : (after .reset small).T =
    [.setLine .rst .high, .sleepFor 200, .setLine .rst .low, .sleepFor 2, .setLine .rst .high, .sleepFor 200] ∧
    (after .reset small).rst = .driven .high ∧ (after .reset small).dc = .undriven := by decide
/-- V12. -/
theorem test_waitIdle : (after .waitIdle (busyFor 3 small)).T =
    [.readBusy .high, .sleepFor 10, .readBusy .high, .sleepFor 10, .readBusy .high, .sleepFor 10, .readBusy .low,
      .sleepFor 200] ∧ (after .waitIdle (busyFor 3 small)).polls = 4 := by decide
/-- V13: the busy level is LOW. -/
theorem test_waitIdle_busy_low :
    (after .waitIdle { small with cfg := { small.cfg with busyActive := .low }, busy := ⟨[.low, .low], .high⟩ }).T =
    [.readBusy .low, .sleepFor 10, .readBusy .low, .sleepFor 10, .readBusy .high, .sleepFor 200] := by decide
theorem test_prepareDraw : sent (after .prepareDraw small) = [0x4F, 0x01, 0x00] := by decide
theorem test_streamFill : sent (after (.streamFill 0xA5) small) = [0xA5, 0xA5, 0xA5, 0xA5] ∧
    (after (.streamFill 0xA5) small).k = 4 := by decide
/-- V115 at the small geometry: the third frame fails. -/
theorem test_streamFill_fails : (after (.streamFill 0xFF) (failAt 2 small)).k = 2 ∧
    (after (.streamFill 0xFF) (failAt 2 small)).cs = .driven .low := by decide
theorem test_streamPlane : sent (after (.streamPlane .complement)
    { small with pb := [(0, 0xFF), (1, 0x0F), (2, 0xFF), (3, 0x0F)] }) = [0x00, 0xF0, 0x00, 0xF0] := by decide
/-- V77, V78. -/
theorem test_convert : plane4 (after (.convert imgA) small) = [0x3F, 0xFF, 0xFF, 0x7F] ∧
    plane4 (after (.convert imgC) small) = [0xFF, 0x0F, 0xFF, 0x0F] := by decide
/-- V44, V42 in one row, and V80: an image that begins left of and above the panel. -/
theorem test_convert_clips : plane4 (after (.convert imgRow) small) = [0x3F, 0xFF, 0xFF, 0xFF] ∧
    plane4 (after (.convert ⟨-3, -1, 4, 1, ⟨0, 0, 0⟩, []⟩) small) = [0x0F, 0xFF, 0xFF, 0xFF] := by decide
/-- V37. -/
theorem test_turnOnDisplay : (after .turnOnDisplay (busyFor 2 small)).T.length = 19 ∧
    sleepMs (after .turnOnDisplay (busyFor 2 small)).T = 420 ∧ sent (after .turnOnDisplay small) = [0x22, 0xC7, 0x20] := by
  decide

/-- V55 to V62. -/
theorem test_classifier : [Colour.mk 0 0 0, ⟨255, 255, 255⟩, ⟨255, 0, 0⟩, ⟨127, 128, 127⟩, ⟨128, 128, 127⟩,
    ⟨0, 255, 128⟩, ⟨255, 127, 0⟩, ⟨255, 255, 0⟩].map Classifier.nearest.classify =
    [.black, .white, .black, .black, .white, .white, .black, .white] := by decide

/-! ### Host operations -/

/-- V16, V100. -/
theorem test_setup : (after .setup small).T = [.openBus .ok] ∧ (after .setup small).opened = true ∧
    (after .setup small).rst = .undriven := by decide
theorem test_setup_fails : (after .setup (failAt 0 small)).T = [.openBus .fail] ∧
    (after .setup (failAt 0 small)).err.toNat = 1 ∧ (after .setup (failAt 0 small)).opened = false ∧
    (after .setup (failAt 0 small)).seq = .halted := by decide
/-- V21. -/
theorem test_initialize : sent (after .initPanel live) =
    [0x12, 0x46, 0xF7, 0x47, 0xF7, 0x0C, 0xAE, 0xC7, 0xC3, 0xC0, 0x40, 0x01, 0xAF, 0x02, 0x01, 0x11, 0x01,
      0x44, 0x00, 0x00, 0x01, 0x00, 0x45, 0x01, 0x00, 0x00, 0x00, 0x3C, 0x01, 0x18, 0x80, 0x22, 0xB1, 0x20, 0x4E, 0x00,
      0x00, 0x4F, 0x01, 0x00] := by rfl
theorem test_initialize_budget : budget (after .initPanel live).T = ⟨1202, 14, 26, 4, 174⟩ := by decide +kernel
/-- V111. -/
theorem test_initialize_fails :
    let t := after .initPanel (failAt 4 live)
    t.T.length = 29 ∧ t.haltedAt = some (.initPanel, 3) ∧ t.phase = .inReset ∧ t.rst = .driven .high ∧
      t.dc = .driven .high ∧ t.cs = .driven .low ∧ t.err.toNat = 2 := by decide
/-- V29. -/
theorem test_clear : sent (after .clear live) =
    [0x4F, 0x01, 0x00, 0x24, 0xFF, 0xFF, 0xFF, 0xFF, 0x26, 0x00, 0x00, 0x00, 0x00, 0x22, 0xC7, 0x20] ∧
    (after .clear live).T.length = 67 ∧ (after .clear live).phase = .cleared ∧ (after .clear live).pb = [] := by decide
/-- V106. -/
theorem test_clear_strict :
    let s := { live with phase := .uninitialized, cfg := { live.cfg with strict := true } }
    (after .clear s).T = [] ∧ (after .clear s).violation = true ∧ (after .clear s).err.toNat = 3 ∧
      (after .clear s).phase = .uninitialized := by decide
/-- V31. -/
theorem test_display : sent (after (.display (some imgA) (some imgC)) live) =
    [0x4F, 0x01, 0x00, 0x24, 0x3F, 0xFF, 0xFF, 0x7F, 0x26, 0x00, 0xF0, 0x00, 0xF0, 0x22, 0xC7, 0x20] ∧
    plane4 (after (.display (some imgA) (some imgC)) live) = [0xFF, 0x0F, 0xFF, 0x0F] ∧
    (after (.display (some imgA) (some imgC)) live).phase = .displaying := by decide
/-- V33, V34. -/
theorem test_display_absent : sent (after (.display none (some imgC)) live) =
    [0x4F, 0x01, 0x00, 0x26, 0x00, 0xF0, 0x00, 0xF0, 0x22, 0xC7, 0x20] ∧
    (after (.display none none) live).T.length = 27 := by decide
/-- V38, V109. -/
theorem test_sleep : sent (after .sleep live) = [0x10, 0x01] ∧ (after .sleep live).phase = .sleeping ∧
    (after .sleep { live with phase := .sleeping }).violation = true := by decide
/-- V39, V113. -/
theorem test_teardown : (after .teardown live).T =
    [.endTransaction, .setLine .rst .low, .setLine .dc .low, .setLine .cs .low, .closeBus] ∧
    (after .teardown live).torn = true ∧ (after .teardown live).opened = false := by decide
theorem test_teardown_halted :
    let t := after .teardown { live with seq := .halted, fatal := true, err := .transmitFailure }
    t.seq = .halted ∧ t.fatal = true ∧ t.torn = true ∧ t.err.toNat = 2 := by decide
/-- V95; V102 to V104. -/
theorem test_reserved : (after .reserved6 small).err.toNat = 4 ∧ (after .reserved7 live).err.toNat = 4 ∧
    (after .reserved6 small).T = [] := by decide
theorem test_refused : after .initPanel small = { small with err := .refused } ∧
    after .setup live = { live with err := .refused } ∧
    after .setup { live with opened := false, torn := true } =
      { live with opened := false, torn := true, err := .refused } := by decide

/-- The panel's planes as functions of the trace (R44), V31. -/
theorem test_lastPlane : (after (.display (some imgA) (some imgC)) live).lastPlane 0x24 = some [0x3F, 0xFF, 0xFF, 0x7F] ∧
    (after (.display (some imgA) (some imgC)) live).lastPlane 0x26 = some [0x00, 0xF0, 0x00, 0xF0] ∧
    live.lastPlane 0x24 = none := by decide
/-- The budget of ClearDisplay, R193. -/
theorem test_budget_clear : budget (after .clear live).T = ⟨400, 5, 11, 1, 67⟩ := by decide

/-! ### Steps -/

theorem test_withFetchWord : step (State.reset.withFetchWord 8 0b00000) = exec .setup State.reset := by rfl
theorem test_withFetchWord_frame : step (State.reset.withFetchWord 16 0b000010010) = exec .pcSwReset State.reset := by rfl
theorem test_step_refuses_bytes : step { State.reset with inbox := [plainRequest [0x20]] } =
    .refused (.undecodable (.hostBits 0x20)) := by rfl
theorem test_memory_write : Memory.write 2 7 [(1, 5), (4, 6)] = [(1, 5), (2, 7), (4, 6)] ∧
    Memory.write 4 7 [(1, 5), (4, 6)] = [(1, 5), (4, 7)] := by decide

/-! ### The hypotheses of the statements can be met

`w_<Name>`: a concrete state and operands that meet the hypotheses of `Obligations.<Name>`, clause by clause. -/

theorem ok_get (n : Nat) : (⟨[], .ok⟩ : Oracle Answer).get n = .ok := by simp [Oracle.get, Oracle.skip, Oracle.head]
theorem stuck_get (n : Nat) : (⟨[], .high⟩ : Oracle Level).get n = .high := by
  simp [Oracle.get, Oracle.skip, Oracle.head]

theorem w_DecodeInvertsEncode :
    (Cfg.reference.ok = true ∧ Instr.wf Cfg.reference (.display (some imgA) none) = true ∧
      encode Cfg.reference (.display (some imgA) none) = some ⟨[0x0E], imgA, Image.zero⟩) ∧
    (Instr.wf Cfg.reference (.sendCommand 0xFF) = true ∧
      encode Cfg.reference (.sendCommand 0xFF) = some (plainRequest [0xFF, 0x00])) ∧
    encode Cfg.reference .turnOnDisplay = none := by decide

theorem w_HostRequestWordsDecode : (7, Instr.reserved7) ∈ [(0, Instr.setup), (1, .initPanel), (2, .clear),
    (3, .display (some imgA) none), (4, .sleep), (5, .teardown), (6, .reserved6), (7, .reserved7)] := by decide

theorem w_StepRunsTheDecodedInstruction :
    let s := { small with inbox := [plainRequest [0x00]] }
    s.cfg.ok = true ∧ s.running = false ∧ s.inbox = [plainRequest [0x00]] ∧
      decode s.cfg (plainRequest [0x00]) = .ok .setup := ⟨by decide, rfl, rfl, rfl⟩

/-- Suspended in the last row of ClearDisplay. -/
def hanging : State := { stuck live with seq := .run .clear 5, waiting := true }

theorem w_RunningBlockAcceptsNoRequest : hanging.running = true ∧ ∃ t, step hanging = .next t := ⟨rfl, _, rfl⟩

theorem w_IdleBlockWaits : small.cfg.ok = true ∧ small.running = false ∧ small.inbox = [] := ⟨by decide, rfl, rfl⟩

/-- Each part of the side condition broken at its edge, and the largest geometry that meets it all. -/
theorem w_BadGeometryIsRefused :
    ([(0, 2), (12, 2), (16, 0), (8, 65537), (65544, 1), (24, 21846)].map fun g => (Cfg.ofGeometry g.1 g.2).geometryOk) =
      [false, false, false, false, false, false] ∧
    (Cfg.ofGeometry 65536 8).geometryOk = true ∧ (Cfg.ofGeometry 8 65536).geometryOk = true := by decide

theorem w_SendCommandIsACommandFrame : small.link.get 0 = .ok ∧ (failAt 0 small).link.get 0 = .fail ∧
    (0x02 : Byte) ∉ Script.codes Cfg.reference := by decide

theorem w_SendDataIsADataFrame : small.link.get 0 = .ok ∧ (failAt 0 small).link.get 0 = .fail := by decide

theorem w_PanelCommandsSendTheirFrames :
    (Instr.pcRamYWindow, (0x45 : Byte), [0x01, 0x00, 0x00, 0x00]) ∈ Script.commandTable small.cfg ∧
      small.linkOk (1 + 4) := ⟨by decide, fun m _ => ok_get m⟩

theorem w_PlaneWriteCommandsSendAPlane : small.linkOk (1 + small.cfg.planeBytes) := fun m _ => ok_get m

theorem w_WaitIdlePollsUntilNotBusy : small.holdsBusy 0 0 ∧ (busyFor 3 small).holdsBusy 0 3 := by
  unfold State.holdsBusy; decide

theorem w_UnresponsivePanelHangs : (stuck small).busyForEver ∧ hanging.cfg.ok = true ∧ hanging.seq = .run .clear 5 ∧
    hanging.waiting = true ∧ hanging.busyForEver := ⟨stuck_get, by decide, rfl, rfl, stuck_get⟩

theorem w_PrepareDrawSetsTheCounter : small.linkOk 3 := fun m _ => ok_get m

/-- Every frame sent; the first one fails; the last one fails. -/
theorem w_StreamFillSendsTheByte : small.linkOk small.cfg.planeBytes ∧
    (0 < small.cfg.planeBytes ∧ (failAt 0 small).linkOk 0 ∧ (failAt 0 small).link.get 0 = .fail) ∧
    (3 < small.cfg.planeBytes ∧ (failAt 3 small).linkOk 3 ∧ (failAt 3 small).link.get 3 = .fail) := by
  unfold State.linkOk; decide

theorem w_StreamPlaneSendsTheBuffer : small.linkOk small.cfg.planeBytes ∧
    (0 < small.cfg.planeBytes ∧ (failAt 0 small).linkOk 0 ∧ (failAt 0 small).link.get 0 = .fail) ∧
    (3 < small.cfg.planeBytes ∧ (failAt 3 small).linkOk 3 ∧ (failAt 3 small).link.get 3 = .fail) := by
  unfold State.linkOk; decide

theorem w_TurnOnDisplayActivatesAndWaits : small.linkOk 3 ∧ small.holdsBusy 0 0 ∧ (busyFor 2 small).holdsBusy 0 2 := by
  unfold State.linkOk State.holdsBusy; decide

theorem w_ConvertFillsThePlane : small.cfg.geometryOk = true ∧ 3 < small.cfg.planeBytes ∧ small.cfg.planeBytes ≤ 4 := by
  decide

/-- The first and the last lane of the last group. -/
theorem w_ConvertedLanesArePrefixOrs : small.cfg.geometryOk = true ∧ (∃ t, exec (.convert imgRow) small = .next t) ∧
    1 < small.cfg.stride ∧ 1 < small.cfg.height ∧
    pixelClass small.cfg imgRow (8 * 0 + 2) 0 = .white ∧ pixelClass small.cfg imgRow (8 * 0 + 0) 0 = .black :=
  ⟨by decide, ⟨_, rfl⟩, by decide, by decide, by decide, by decide⟩

/-- All white; out of bounds by each edge; black all over. -/
theorem w_UniformImagesConvertUniformly : small.cfg.geometryOk = true ∧
    (∃ t, exec (.convert ⟨0, 0, 16, 2, ⟨0, 0, 0⟩, []⟩) small = .next t) ∧
    (∀ i < small.cfg.width, ∀ j < small.cfg.height, imgIn ⟨0, 0, 16, 2, ⟨255, 255, 255⟩, []⟩ i j = true →
      small.cfg.classifier.classify (imgPx ⟨0, 0, 16, 2, ⟨255, 255, 255⟩, []⟩ i j) = .white) ∧
    (∀ i < small.cfg.width, ∀ j < small.cfg.height, imgIn ⟨0, 0, 16, 2, ⟨0, 0, 0⟩, []⟩ i j = true ∧
      small.cfg.classifier.classify (imgPx ⟨0, 0, 16, 2, ⟨0, 0, 0⟩, []⟩ i j) = .black) ∧
    (small.cfg.width : Int) ≤ (⟨16, 0, 20, 2, ⟨0, 0, 0⟩, []⟩ : Image).x0 ∧
    (⟨-4, 0, 0, 2, ⟨0, 0, 0⟩, []⟩ : Image).x1 ≤ 0 ∧
    (⟨5, 5, 5, 9, ⟨0, 0, 0⟩, []⟩ : Image).x1 ≤ (⟨5, 5, 5, 9, ⟨0, 0, 0⟩, []⟩ : Image).x0 :=
  ⟨by decide, ⟨_, rfl⟩, by decide, by decide, by decide, by decide, by decide⟩

theorem w_SetupOpensTheBus : (small.seq = .idle ∧ small.waiting = false ∧ small.opened = false ∧ small.torn = false ∧
    small.fatal = false ∧ small.phase = .uninitialized ∧ small.link.get 0 = .ok) ∧
    (failAt 0 small).link.get 0 = .fail ∧ live.running = false ∧ live.opened = true := by decide

theorem live_ready : live.ready := ⟨rfl, rfl, rfl, rfl, rfl⟩

/-- V22: the panel holds busy 2, 0, 1 and 0 polls. -/
theorem w_InitializeEmitsTheScript :
    let s := { live with busy := ⟨[.high, .high, .low, .low, .high, .low, .low], .low⟩ }
    s.ready ∧ s.linkOk 40 ∧ s.holdsBusy 0 2 ∧ s.holdsBusy (2 + 1) 0 ∧ s.holdsBusy (2 + 0 + 2) 1 ∧
      s.holdsBusy (2 + 0 + 1 + 3) 0 := by
  refine ⟨live_ready, fun m _ => ok_get m, ?_⟩
  unfold State.holdsBusy; decide

/-- From a legal phase, and from an illegal one of a block that runs all the same. -/
theorem w_ClearFillsBothPlanes : live.ready ∧ live.mayRun .clear ∧
    { live with phase := .sleeping }.mayRun .clear ∧ live.linkOk (2 * live.cfg.planeBytes + 8) ∧ live.holdsBusy 0 0 := by
  refine ⟨live_ready, .inl rfl, .inr rfl, fun m _ => ok_get m, ?_⟩
  unfold State.holdsBusy; decide

/-- Each of the four forms of the operands. -/
theorem w_DisplaySendsTheConvertedPlanes :
    ∀ o ∈ [(none, none), (some imgA, none), (none, some imgC), (some imgA, some imgC)],
      live.ready ∧ live.cfg.geometryOk = true ∧ live.mayRun (.display o.1 o.2) ∧
      live.linkOk (6 + Script.planeFrames live.cfg o.1 + Script.planeFrames live.cfg o.2) ∧ live.holdsBusy 0 0 := by
  refine fun o _ => ⟨live_ready, by decide, .inl rfl, fun m _ => ok_get m, ?_⟩
  unfold State.holdsBusy; decide

theorem w_SleepSendsDeepSleep : live.ready ∧ live.mayRun .sleep ∧ live.linkOk 2 :=
  ⟨live_ready, .inl rfl, fun m _ => ok_get m⟩

/-- Idle, and halted. -/
theorem w_TeardownReleasesTheLines : (live.waiting = false ∧ live.opened = true ∧ live.torn = false ∧
    live.seq = .idle ∧ live.fatal = false) ∧
    (after .initPanel (failAt 4 live)).waiting = false ∧ (after .initPanel (failAt 4 live)).opened = true ∧
    (after .initPanel (failAt 4 live)).seq = .halted ∧ (after .initPanel (failAt 4 live)).fatal = true := by decide

theorem w_ReservedCodesAreRefused : live.running = false ∧ 7 < 8 ∧ 7 ≠ 3 := by decide

/-- Each of the four cases over operations. -/
theorem w_RefusedRequestsOnlyRecordTheCode : live.running = false ∧ { live with torn := true }.running = false ∧
    small.opened = false ∧ HostOp.clear ≠ .setup ∧ live.opened = true ∧
    ({ live with seq := .halted }.seq = .halted ∧ { live with seq := .halted }.running = false ∧
      HostOp.clear ≠ .teardown) := by decide

theorem w_StrictBlockStopsSequenceViolations :
    let s := { live with phase := .uninitialized, cfg := { live.cfg with strict := true } }
    s.ready ∧ HostOp.clear ≠ .setup ∧ s.cfg.strict = true ∧ legalIn .clear s.phase = false :=
  ⟨⟨rfl, rfl, rfl, rfl, rfl⟩, by decide, rfl, rfl⟩

/-- Suspended in each operation and row that waits, and released; the panel holds busy 1 poll in the wait after it. -/
theorem w_SuspendedOperationsFinish :
    let s := { live with waiting := true, busy := ⟨[.low, .high], .low⟩ }
    s.cfg.ok = true ∧ s.fatal = false ∧ s.holdsBusy 0 0 ∧ s.holdsBusy (0 + 1) 1 ∧ s.holdsBusy (0 + 1 + 2) 0 ∧
    s.holdsBusy (0 + 1 + 0 + 3) 0 ∧
    { s with seq := .run .clear 5 }.seq = .run .clear 5 ∧
    { s with seq := .run (.display none none) 5 }.seq = .run (.display none none) 5 ∧
    (∀ row ∈ [1, 2, 3, 13], { s with seq := .run .initPanel row }.seq = .run .initPanel row) ∧ s.linkOk 39 := by
  refine ⟨by decide, rfl, ?_, ?_, ?_, ?_, rfl, rfl, fun _ _ => rfl, fun m _ => ok_get m⟩ <;>
    (unfold State.holdsBusy; decide)

theorem w_BudgetsPerOperation : live.ready ∧ live.cfg.geometryOk = true ∧ live.mayRun (.display none none) ∧
    live.linkAlwaysOk ∧ (∀ m < 4, live.busy.get m ≠ live.cfg.busyActive) ∧
    ∃ t, exec (hostInstr (.display none none)) live = .next t :=
  ⟨live_ready, by decide, .inl rfl, ok_get, by decide, _, rfl⟩

/-- Initialize suspended in its row 1, the panel released, the transport to fail the next frame. -/
def resuming : State := { failAt 0 live with seq := .run .initPanel 1, waiting := true, phase := .inReset }

/-- An instruction, an operation, and a step that goes on with one: each fails. -/
theorem w_FatalEntryIsPrecise :
    (∃ t, exec (.sendData 0x55) (failAt 0 live) = .next t ∧ (failAt 0 live).fatal = false ∧ t.fatal = true) ∧
    (∃ t, exec (hostInstr .initPanel) (failAt 4 live) = .next t ∧ (failAt 4 live).fatal = false ∧ t.fatal = true) ∧
    resuming.Lifecycle ∧ resuming.seq = .run .initPanel 1 ∧
    ∃ t, step resuming = .next t ∧ resuming.fatal = false ∧ t.fatal = true :=
  ⟨⟨_, rfl, rfl, rfl⟩, ⟨_, rfl, rfl, rfl⟩,
    ⟨by decide, by decide, fun op n h => (by cases h; exact ⟨rfl, rfl, rfl⟩), fun _ => ⟨_, _, rfl⟩,
      fun _ => .inr ⟨_, rfl⟩, fun _ _ => rfl, by decide⟩, rfl, _, rfl, rfl, rfl⟩

/-- R250: the frame that fails is the first of row 2, and Initialize leaves `InReset`. -/
theorem test_resumed_failure : ∃ t, step resuming = .next t ∧ t.haltedAt = some (.initPanel, 2) ∧ t.phase = .inReset ∧
    t.T = [.readBusy .low, .sleepFor 200, .setLine .dc .low, .setLine .cs .low, .transmit 0x46 .fail] :=
  ⟨_, rfl, rfl, rfl, rfl⟩

theorem lifecycle_at_rest {s : State} (h1 : s.fatal = true ↔ s.seq = .halted) (h2 : s.opened = true → s.torn = false)
    (h3 : ∀ op n, s.seq ≠ .run op n) (h4 : s.waiting = false) (h5 : s.phase ≠ .inReset)
    (h6 : s.opened = false → s.torn = false → s.phase = .uninitialized) : s.Lifecycle :=
  ⟨h1, h2, fun op n h => absurd h (h3 op n), fun h => by simp [h4] at h, fun h => absurd h h5,
    fun n h => absurd h (h3 _ n), h6⟩

theorem w_OnlyPowerOnLeavesHalted :
    let s := { small with seq := .halted, fatal := true, err := .setupFailure, inbox := [plainRequest [0x00]] }
    s.Lifecycle ∧ s.seq = .halted ∧ ∃ t, step s = .next t := by
  exact ⟨lifecycle_at_rest (by decide) (by decide) (fun _ _ => nofun) rfl (by decide) (by decide), rfl, _, rfl⟩

/-- One form of each group that runs to its end. -/
theorem w_FramedInstructionsFrame :
    (∃ t, exec .pcSwReset small = .next t ∧ t.fatal = false ∧
      (Instr.pcSwReset, (0x12 : Byte), ([] : List Byte)) ∈ Script.commandTable small.cfg) ∧
    (∃ t, exec (.pcWriteRedPlane .fill) small = .next t ∧ t.fatal = false) ∧
    (∃ t, exec .waitIdle small = .next t) ∧ ∃ t, exec .turnOnDisplay small = .next t ∧ t.fatal = false :=
  ⟨⟨_, rfl, rfl, by decide⟩, ⟨_, rfl, rfl⟩, ⟨_, rfl⟩, _, rfl, rfl⟩

theorem w_HostOperationsFrame : (∃ t, exec (hostInstr .clear) live = .next t ∧ t.fatal = false) ∧
    (∃ t, exec (hostInstr (.display (some imgA) none)) live = .next t) ∧
    live.cfg.planeBytes ≤ 4 ∧ { live with fatal := true }.fatal = true := ⟨⟨_, rfl, rfl⟩, ⟨_, rfl⟩, by decide, rfl⟩

/-- A step that performs a frame keeps a trace of no events. -/
theorem w_StepKeepsTheTraceWellFramed :
    let s := { small with inbox := [plainRequest [0x12, 0x00]] }
    WellFramed s.T ∧ ∃ t, step s = .next t := by
  refine ⟨fun before v a after h => ?_, _, rfl⟩
  cases before <;> cases h

theorem w_StepSendsOnlyPanelCodes :
    let s := { live with inbox := [plainRequest [0x10]] }
    (s.hostOnly ∧ OnlyPanelCodes s.cfg s.T) ∧ ∃ t, step s = .next t := by
  refine ⟨⟨by unfold State.hostOnly; decide, fun before v a after h => ?_⟩, _, rfl⟩
  cases before <;> cases h

theorem w_StepKeepsLatchesAtTheLastLevels :
    let s := { small with inbox := [plainRequest [0x00]] }
    s.latchesFollow ∧ ∃ t, step s = .next t := ⟨⟨rfl, rfl, rfl⟩, _, rfl⟩

theorem w_StepKeepsTheLifecycle :
    let s := { small with inbox := [plainRequest [0x00]] }
    s.Lifecycle ∧ ∃ t, step s = .next t := 
  ⟨lifecycle_at_rest (by decide) (by decide) (fun _ _ => nofun) rfl (by decide) (by decide), _, rfl⟩

theorem w_StepKeepsThePlaneBuffer :
    let s := { live with inbox := [⟨[0x0E], imgA, Image.zero⟩], pb := [(3, 0x55)] }
    s.planeOk ∧ ∃ t, step s = .next t := ⟨⟨by decide, by decide⟩, _, rfl⟩

theorem w_StepOnlyAppendsAndKeepsStickyFlags :
    let s := { live with inbox := [plainRequest [0x14]], fatal := true, violation := true, seq := .halted }
    ∃ t, step s = .next t ∧ s.fatal = true ∧ s.violation = true ∧ t.torn = true := ⟨_, rfl, rfl, rfl, rfl⟩

theorem w_StepOpensAndClosesOnce :
    let s := { small with inbox := [plainRequest [0x00]] }
    (s.Lifecycle ∧ s.onceEach) ∧ ∃ t, step s = .next t := 
  ⟨⟨lifecycle_at_rest (by decide) (by decide) (fun _ _ => nofun) rfl (by decide) (by decide), rfl, rfl⟩, _, rfl⟩

/-- An accepted illegal request, run and stopped, and a step that raises the flag. -/
theorem w_ViolationOnlyByAnIllegalRequest :
    let s := { live with phase := .sleeping, inbox := [plainRequest [0x10]] }
    (s.running = false ∧ s.torn = false ∧ (s.opened = true ↔ HostOp.sleep ≠ .setup) ∧
      (s.seq = .halted → HostOp.sleep = .teardown) ∧ legalIn .sleep s.phase = false ∧
      (∃ t, exec (hostInstr .sleep) s = .next t) ∧
      ∃ t, exec (hostInstr .sleep) { s with cfg := { s.cfg with strict := true } } = .next t) ∧
    ∃ t, step s = .next t ∧ s.violation = false ∧ t.violation = true :=
  ⟨⟨rfl, rfl, by decide, by decide, rfl, ⟨_, rfl⟩, _, rfl⟩, _, rfl, rfl, rfl⟩

/-- Two blocks that differ in buffer, counters, latches and phase; two with STRICT = 1 in different legal phases. -/
theorem w_ScriptDependsOnlyOnRequestAndAnswers :
    let t := { live with pb := [(0, 0x12)], acc := 5, k := 3, cs := .driven .low, phase := .sleeping }
    live.cfg.ok = true ∧ live.cfg.strict = false ∧ t.cfg = live.cfg ∧ t.link = live.link ∧ t.busy = live.busy ∧
      t.opened = live.opened ∧ t.torn = live.torn ∧ t.seq = live.seq ∧ t.waiting = live.waiting ∧
      (∃ u, exec (hostInstr .clear) live = .next u) ∧ (∃ v, exec (hostInstr .clear) t = .next v) ∧
      { live.cfg with strict := true }.ok = true ∧ legalIn .clear .cleared = legalIn .clear live.phase :=
  ⟨by decide, rfl, rfl, rfl, rfl, rfl, rfl, rfl, rfl, ⟨_, rfl⟩, ⟨_, rfl⟩, by decide, rfl⟩

/-- The program P2 of spec/95_test_vectors.md. -/
theorem w_RequiredOrderGivesAFinishedRun :
    let ops : List HostOp := [.setup, .initPanel, .display (some imgA) (some imgC), .teardown]
    let s := { small with
      inbox := [plainRequest [0x00], plainRequest [0x04], ⟨[0x0F], imgA, imgC⟩, plainRequest [0x14]] }
    bootOrder .closed ops = true ∧ s.cfg.ok = true ∧ s.seq = .idle ∧ s.waiting = false ∧ s.opened = false ∧
      s.torn = false ∧ s.fatal = false ∧ s.err = .none ∧ s.violation = false ∧ s.phase = .uninitialized ∧
      s.linkAlwaysOk ∧ s.busy.rest ≠ s.cfg.busyActive ∧
      s.inbox = ops.filterMap (fun op => encode s.cfg (hostInstr op)) :=
  ⟨by decide, by decide, rfl, rfl, rfl, rfl, rfl, rfl, rfl, rfl, ok_get, by decide, by decide⟩

end Sys2Proof.Machine.Tests
end

section
/-! Which configurations a step accepts: the side condition on the geometry (R7). -/

namespace Sys2Proof.Machine

/-- The geometry check is R7's side condition. -/
theorem geometryOk_iff {c : Cfg} :
    c.geometryOk = true ↔ c.width % 8 = 0 ∧ 8 ≤ c.width ∧ 1 ≤ c.height ∧ c.width ≤ 65536 ∧ c.height ≤ 65536 ∧
      c.planeBytes ≤ 65536 := by
  simp only [Cfg.geometryOk, Bool.and_eq_true, decide_eq_true_eq, and_assoc]

theorem geometryOk_of_ok {c : Cfg} (h : c.ok = true) : c.geometryOk = true := by
  simp only [Cfg.ok, Bool.and_eq_true, and_assoc] at h
  obtain ⟨hgeometry, -, -⟩ := h
  exact hgeometry

/-- The check of the configuration comes before all else a step does (log 22). -/
theorem step_eq_refused_of_not_ok {s : State} (h : ¬ s.cfg.ok = true) : step s = .refused .configuration :=
  if_neg h

/-- Settles O7: an accepted configuration would meet R7's side condition (`planeBytes` is what the statement
writes out, by R6), so one that breaks it is not accepted. -/
theorem badGeometryIsRefused : Obligations.BadGeometryIsRefused := by
  intro s hbad
  have hnot : ¬ s.cfg.ok = true := fun hok => hbad (geometryOk_iff.mp (geometryOk_of_ok hok))
  exact step_eq_refused_of_not_ok hnot

end Sys2Proof.Machine
end

section
/-! What the checks of a request answer (R244, R245, R246, R249), what its bytes can stand for, and what a step does at
most. -/

namespace Sys2Proof.Machine

/-! ### The checks of a request -/

theorem running_eq_false_iff {s : State} :
    s.running = false ↔ s.waiting = false ∧ ∀ op n, s.seq ≠ .run op n := by
  cases hq : s.seq <;> simp [State.running, hq]

/-- A request passes R244 when the bus was not closed, Setup is asked of a closed bus and nothing else is, and a halted
block is asked for Teardown alone. -/
theorem refusedHere_eq_false_iff {op : HostOp} {s : State} :
    refusedHere op s = false ↔
      s.torn = false ∧ (s.opened = true ↔ op ≠ .setup) ∧ (s.seq = .halted → op = .teardown) := by
  simp only [refusedHere, Bool.or_eq_false_iff, Bool.and_eq_false_iff, Bool.not_eq_false', decide_eq_false_iff_not,
    not_not]
  cases s.opened <;> by_cases hq : s.seq = .halted <;> simp [hq, and_assoc]

theorem dispatch_of_running {op : HostOp} {s : State} (hrun : s.running = true) : dispatch op s = .next s :=
  if_pos hrun

theorem dispatch_of_refused {op : HostOp} {s : State} (hrun : s.running = false) (hno : refusedHere op s = true) :
    dispatch op s = .next (recordErr .refused s) := by
  rw [dispatch, if_neg (by simp [hrun]), if_pos hno]

/-- What the dispatch of an accepted request answers (R244, R246, R249). -/
theorem dispatch_of_accepted {op : HostOp} {s : State} (hrun : s.running = false) (hok : refusedHere op s = false) :
    dispatch op s = if legalIn op s.phase || !s.cfg.strict then
      (runOp op { s with violation := s.violationAfter op }).outcome
      else .next (recordErr .sequenceViolation { s with violation := true }) := by
  rw [dispatch, if_neg (by simp [hrun]), if_neg (by simp [hok])]
  cases hl : legalIn op s.phase <;> cases hs : s.cfg.strict <;> simp [State.violationAfter, hl]

/-- The ways through the checks of R249: not accepted, refused, stopped by STRICT, or run. -/
inductive DispatchCases (op : HostOp) (s t : State) : Prop
  | notAccepted : s.running = true → t = s → DispatchCases op s t
  | refused : t = recordErr .refused s → DispatchCases op s t
  | stopped : legalIn op s.phase = false → t = recordErr .sequenceViolation { s with violation := true } →
      DispatchCases op s t
  | starts : s.running = false → refusedHere op s = false →
      (runOp op { s with violation := s.violationAfter op }).outcome = .next t → DispatchCases op s t

theorem dispatch_inversion {op : HostOp} {s t : State} (h : dispatch op s = .next t) : DispatchCases op s t := by
  cases hrun : s.running with
  | true =>
    rw [dispatch_of_running hrun] at h
    cases h
    exact .notAccepted hrun rfl
  | false =>
    cases hok : refusedHere op s with
    | true =>
      rw [dispatch_of_refused hrun hok] at h
      cases h
      exact .refused rfl
    | false =>
      rw [dispatch_of_accepted hrun hok] at h
      split at h
      · exact .starts hrun hok h
      · next hno =>
        cases h
        exact .stopped (Bool.eq_false_iff.mpr fun hl => hno (by simp [hl])) rfl

/-! ### What a request stands for -/

theorem decodeCommand_cases {c : Cfg} {second : Bool} {v : Byte} {i : Instr} (h : decodeCommand c second v = some i) :
    (∃ v, i = .sendCommand v) ∨ ∃ p : PanelCommand, i = p.instr := by
  unfold decodeCommand at h
  split at h
  · next p _ => exact .inr ⟨p, (Option.some.inj h).symm⟩
  · split at h
    · cases h
    · exact .inl ⟨v, (Option.some.inj h).symm⟩

theorem decodeFrame_cases {c : Cfg} {w : BitVec 16} {i : Instr} (h : decodeFrame c w = .ok i) :
    (∃ v, i = .sendCommand v) ∨ (∃ v, i = .sendData v) ∨ ∃ p : PanelCommand, i = p.instr := by
  unfold decodeFrame at h
  split at h
  · split at h
    · split at h
      · cases h
      · exact .inr (.inl ⟨_, (Except.ok.inj h).symm⟩)
    · split at h
      · next hj =>
        cases h
        exact (decodeCommand_cases hj).imp_right .inr
      · cases h
  · cases h

/-- What a request can stand for: a host operation, a reserved code, a frame or a panel command (R90). -/
theorem decode_cases {c : Cfg} {r : Request} {i : Instr} (h : decode c r = .ok i) :
    (∃ op, i = hostInstr op) ∨ (i = .reserved6 ∨ i = .reserved7) ∨
      (∃ v, i = .sendCommand v) ∨ (∃ v, i = .sendData v) ∨ ∃ p : PanelCommand, i = p.instr := by
  by_cases hr : r.bytes.length = 1
  · exact (decode_length_one hr h).imp_right .inl
  refine .inr (.inr ?_)
  unfold decode at h
  split at h
  · next w hb => simp [hb] at hr
  · exact decodeFrame_cases h
  · cases h

theorem exec_panelInstr (p : PanelCommand) (s : State) : exec p.instr s = (panelCommand p s).outcome := by
  cases p <;> rfl

/-! ### What a state answered says of its instruction -/

theorem outcomes_of_runOp {op : HostOp} {s t : State} (h : (runOp op s).outcome = .next t) :
    Outcomes (fun _ => True) op s t := by
  obtain ⟨t', ht', ho⟩ := runOp_outcomes (P := fun _ => True) op s fun _ _ => trivial
  cases ht'.symm.trans h
  exact ho

theorem execCases_of_exec {i : Instr} {s t : State} (h : exec i s = .next t) : ExecCases (fun _ => True) i s t := by
  obtain ⟨t', ht', hc⟩ := exec_cases (P := fun _ => True) i s (fun _ _ => trivial) fun _ _ => trivial
  cases ht'.symm.trans h
  exact hc

theorem went_of_resume {s t : State} (h : (resume s).outcome = .next t) :
    Went (fun _ => True) s t ∧ t.violation = s.violation := by
  obtain ⟨t', ht', hw⟩ := resume_went (P := fun _ => True) (s := s) fun _ _ => trivial
  cases ht'.symm.trans h
  exact hw

/-- A step does at most what every instruction does, once the host's requests are set aside: it may take one. -/
theorem step_went {s t : State} (h : step s = .next t) : ∃ rs, Went (fun _ => True) { s with inbox := rs } t := by
  obtain ⟨-, hc⟩ := step_cases h
  cases hc with
  | goesOn _ hr => exact ⟨s.inbox, (went_of_resume hr).1⟩
  | idles _ _ ht =>
    subst ht
    exact ⟨t.inbox, (.rfl _ t : Went _ t t)⟩
  | runs r rs i _ _ _ he => exact ⟨rs, (execCases_of_exec he).went⟩

end Sys2Proof.Machine
end

section
/-! The lifecycle invariant over a step (R27 to R30, R251): what it says of an operation that is begun or gone on with,
and what each way an operation ends leaves of it. -/

namespace Sys2Proof.Machine

/-! ### The invariant -/

/-- The invariant reads six fields. -/
theorem State.Lifecycle.congr {s t : State} (h : s.Lifecycle) (hfatal : t.fatal = s.fatal) (hseq : t.seq = s.seq)
    (hopened : t.opened = s.opened) (htorn : t.torn = s.torn) (hwaiting : t.waiting = s.waiting)
    (hphase : t.phase = s.phase) : t.Lifecycle := by
  obtain ⟨h1, h2, h3, h4, h5, h6, h7⟩ := h
  constructor <;> simpa only [hfatal, hseq, hopened, htorn, hwaiting, hphase]

/-- The invariant of a block that runs nothing. -/
theorem State.Lifecycle.of_not_running {t : State} (hrun : t.running = false)
    (hfatal : t.fatal = true ↔ t.seq = .halted) (hopen : t.opened = true → t.torn = false)
    (hphase : t.phase = .inReset → t.fatal = true)
    (hclosed : t.opened = false → t.torn = false → t.phase = .uninitialized) : t.Lifecycle := by
  obtain ⟨hwaiting, hseq⟩ := running_eq_false_iff.mp hrun
  exact ⟨hfatal, hopen, fun op n h => absurd h (hseq op n), fun h => by simp [hwaiting] at h, fun h => .inl (hphase h),
    fun n h => absurd h (hseq _ n), hclosed⟩

/-- The invariant of a block with an operation suspended in a WaitIdle. -/
theorem State.Lifecycle.of_suspended {t : State} {op : HostOp} {row : Nat} (hseq : t.seq = .run op row)
    (hwaiting : t.waiting = true) (hrow : waitRow op row = true) (hfatal : t.fatal = false) (hopened : t.opened = true)
    (htorn : t.torn = false) (hphase : t.phase = .inReset ↔ op = .initPanel) : t.Lifecycle where
  fatal_iff_halted := by simp [hfatal, hseq]
  open_not_torn _ := htorn
  running_is_waiting op' n h := by
    rw [hseq] at h
    cases h
    exact ⟨hwaiting, hopened, hrow⟩
  waiting_is_running _ := ⟨op, row, hseq⟩
  inReset_is_inInit h := .inr ⟨row, by rw [hseq, hphase.mp h]⟩
  inInit_is_inReset n h := by
    rw [hseq] at h
    cases h
    exact hphase.mpr rfl
  closed_is_fresh h := by simp [hopened] at h

/-- Under the invariant what runs is an operation. -/
theorem State.Lifecycle.run_of_running {s : State} (h : s.Lifecycle) (hrun : s.running = true) :
    ∃ op n, s.seq = .run op n := by
  by_contra hno
  have hseq : ∀ op n, s.seq ≠ .run op n := fun op n hq => hno ⟨op, n, hq⟩
  have hw : s.waiting = false := Bool.eq_false_iff.mpr fun hw => hno (h.waiting_is_running hw)
  simp [running_eq_false_iff.mpr ⟨hw, hseq⟩] at hrun

/-! ### Operations under way -/

/-- What the invariant and the checks of R244 leave of a block in which `op` begins or goes on. -/
structure Underway (op : HostOp) (s : State) : Prop where
  torn : s.torn = false
  opened : s.opened = true ∨ op = .setup ∧ s.phase = .uninitialized
  fatal : s.fatal = true → op = .teardown
  inReset : s.phase = .inReset → s.fatal = true ∨ op = .initPanel

/-- An operation that is not refused (R244) begins in such a block. -/
theorem State.Lifecycle.underway {s : State} {op : HostOp} (h : s.Lifecycle) (hrun : s.running = false)
    (hok : refusedHere op s = false) : Underway op s := by
  obtain ⟨-, hseq⟩ := running_eq_false_iff.mp hrun
  obtain ⟨htorn, hopened, hhalted⟩ := refusedHere_eq_false_iff.mp hok
  refine ⟨htorn, ?_, fun hf => hhalted (h.fatal_iff_halted.mp hf), fun hp => ?_⟩
  · cases ho : s.opened with
    | true => exact .inl rfl
    | false => exact .inr ⟨not_not.mp fun hop => by simp [hopened.mpr hop] at ho, h.closed_is_fresh ho htorn⟩
  · obtain hf | ⟨n, hn⟩ := h.inReset_is_inInit hp
    · exact .inl hf
    · exact absurd hn (hseq _ n)

/-- A suspended operation goes on in such a block. -/
theorem State.Lifecycle.underway_of_seq {s : State} {op : HostOp} {n : Nat} (h : s.Lifecycle)
    (hseq : s.seq = .run op n) : Underway op s := by
  obtain ⟨-, hopened, -⟩ := h.running_is_waiting op n hseq
  refine ⟨h.open_not_torn hopened, .inl hopened, fun hf => ?_, fun hp => ?_⟩
  · have hhalted := h.fatal_iff_halted.mp hf
    rw [hseq] at hhalted
    cases hhalted
  · refine (h.inReset_is_inInit hp).imp_right fun ⟨m, hm⟩ => ?_
    rw [hseq] at hm
    cases hm
    rfl

/-! ### What an operation records at its end -/

theorem torn_of_finish_opened {op : HostOp} {s : State} (h : (finish op s).opened = true) :
    (finish op s).torn = s.torn := by
  cases op with
  | teardown => cases h
  | _ => rfl

theorem of_finish_inReset {op : HostOp} {s : State} (h : (finish op s).phase = .inReset) :
    s.phase = .inReset ∧ op ≠ .initPanel := by
  cases op with
  | setup => exact ⟨h, nofun⟩
  | teardown => exact ⟨h, nofun⟩
  | _ => cases h

theorem of_finish_closed {op : HostOp} {s : State} (hopened : (finish op s).opened = false)
    (htorn : (finish op s).torn = false) : s.opened = false ∧ op ≠ .setup := by
  cases op with
  | setup => cases hopened
  | teardown => cases htorn
  | _ => exact ⟨hopened, nofun⟩

theorem finish_waiting (op : HostOp) (s : State) : (finish op s).waiting = s.waiting := by cases op <;> rfl

/-! ### How an operation ends -/

/-- How an operation ends, which waits only where it is suspended. -/
def Settles (P : Byte → Prop) (op : HostOp) (s t : State) : Prop :=
  Ended P op s t ∧ t.waiting = false ∨ Halted P op s t ∧ t.waiting = false ∨ Suspended P op s t

/-- An operation begun in a block that does not wait. -/
theorem Outcomes.settles {P : Byte → Prop} {op : HostOp} {s t : State} (h : Outcomes P op s t)
    (hw : s.waiting = false) : Settles P op s t := by
  obtain ⟨u, hu, rfl⟩ | h | h := h
  · exact .inl ⟨⟨u, hu, rfl⟩, (finish_waiting op u).trans (hu.waiting.elim (·.trans hw) id)⟩
  · exact .inr (.inl ⟨h, h.waiting.elim (·.trans hw) id⟩)
  · exact .inr (.inr h)

theorem Ended.lifecycle {P : Byte → Prop} {op : HostOp} {s t : State} (h : Ended P op s t) (hs : Underway op s)
    (hw : t.waiting = false) : t.Lifecycle := by
  obtain ⟨u, hu, rfl⟩ := h
  refine .of_not_running (running_eq_false_iff.mpr ⟨hw, fun op' n hq => ?_⟩) ?_ (fun ho => ?_) (fun hp => ?_)
    fun ho ht => ?_
  · obtain ⟨-, h⟩ | ⟨-, h⟩ := endOp_seq_cases (finish op u) <;> rw [h] at hq <;> cases hq
  · cases hf : (finish op u).fatal <;> simp [endOp, hf]
  · exact (torn_of_finish_opened ho).trans (hu.torn.trans hs.torn)
  · obtain ⟨hp, hop⟩ := of_finish_inReset hp
    have hps : s.phase = .inReset := hu.phase.elim (fun h => h ▸ hp) fun h => absurd h.1 hop
    exact (finish_fatal op u).trans (hu.fatal.trans ((hs.inReset hps).resolve_right hop))
  · obtain ⟨ho, hop⟩ := of_finish_closed ho ht
    rw [hu.opened] at ho
    exact absurd (hs.opened.resolve_right fun h => hop h.1) (by simp [ho])

theorem Halted.lifecycle {P : Byte → Prop} {op : HostOp} {s t : State} (h : Halted P op s t) (hs : Underway op s)
    (hw : t.waiting = false) : t.Lifecycle := by
  refine .of_not_running (running_eq_false_iff.mpr ⟨hw, by simp [h.seq]⟩) (by simp [h.fatal, h.seq])
    (fun _ => h.torn.trans hs.torn) (fun _ => h.fatal) fun ho _ => ?_
  rw [h.opened] at ho
  obtain hos | ⟨hop, hps⟩ := hs.opened
  · simp [ho] at hos
  · exact h.phase.elim (·.trans hps) fun hp => by simp [hop] at hp

theorem Suspended.lifecycle {P : Byte → Prop} {op : HostOp} {s t : State} (h : Suspended P op s t) (hs : Underway op s)
    (hinit : op = .initPanel → t.phase = .inReset) : t.Lifecycle := by
  obtain ⟨u, row, hu, hrow, rfl⟩ := h
  have hset : op ≠ .setup := by rintro rfl; cases hrow
  have htear : op ≠ .teardown := by rintro rfl; cases hrow
  have hfatal : s.fatal = false := Bool.eq_false_iff.mpr fun hf => htear (hs.fatal hf)
  refine .of_suspended rfl rfl hrow (hu.fatal.trans hfatal)
    (hu.opened.trans (hs.opened.resolve_right fun h => hset h.1)) (hu.torn.trans hs.torn) ⟨fun hp => ?_, hinit⟩
  obtain hp' | ⟨hop, -⟩ := hu.phase
  · exact (hs.inReset (hp'.symm.trans hp)).resolve_left (by simp [hfatal])
  · exact hop

theorem Settles.lifecycle {P : Byte → Prop} {op : HostOp} {s t : State} (h : Settles P op s t) (hs : Underway op s)
    (hinit : ∀ n, op = .initPanel → t.seq = .run .initPanel n → t.phase = .inReset) : t.Lifecycle := by
  obtain ⟨h, hw⟩ | ⟨h, hw⟩ | h := h
  · exact h.lifecycle hs hw
  · exact h.lifecycle hs hw
  · refine h.lifecycle hs fun hop => ?_
    obtain ⟨u, row, -, -, rfl⟩ := h
    exact hinit row hop (by rw [hop])

/-! ### Steps -/

theorem runOp_keeps_lifecycle {op : HostOp} {s t : State} (hs : s.Lifecycle) (hrun : s.running = false)
    (hok : refusedHere op s = false) (h : (runOp op s).outcome = .next t) : t.Lifecycle := by
  obtain ⟨hw, -⟩ := running_eq_false_iff.mp hrun
  refine ((outcomes_of_runOp h).settles hw).lifecycle (hs.underway hrun hok) fun n hop hq => ?_
  subst hop
  exact runOp_inReset h hq

theorem resume_keeps_lifecycle {s t : State} (hs : s.Lifecycle) (hrun : s.running = true)
    (h : (resume s).outcome = .next t) : t.Lifecycle := by
  obtain ⟨op, n, hq⟩ := hs.run_of_running hrun
  obtain ⟨hw, -, hn⟩ := hs.running_is_waiting op n hq
  obtain ⟨t', ht', ho⟩ := resume_waiting (P := fun _ => True) (fun _ _ => trivial) hq hw hn
  cases ht'.symm.trans h
  refine Settles.lifecycle ho (hs.underway_of_seq hq) fun m hop hqt => ?_
  subst hop
  exact resume_inReset hq hw (hs.inInit_is_inReset n hq) h hqt

theorem dispatch_keeps_lifecycle {op : HostOp} {s t : State} (hs : s.Lifecycle) (h : dispatch op s = .next t) :
    t.Lifecycle := by
  cases dispatch_inversion h with
  | notAccepted _ ht => exact ht ▸ hs
  | refused ht => exact ht ▸ hs.congr rfl rfl rfl rfl rfl rfl
  | stopped _ ht => exact ht ▸ hs.congr rfl rfl rfl rfl rfl rfl
  | starts hrun hok ho =>
    exact runOp_keeps_lifecycle (s := { s with violation := s.violationAfter op })
      (hs.congr rfl rfl rfl rfl rfl rfl) hrun hok ho

theorem Ran.lifecycle {P : Byte → Prop} {s t : State} (h : Ran P s t) (hs : s.Lifecycle) (hrun : s.running = false) :
    t.Lifecycle := by
  obtain ⟨hout, -, hseq, -, hfatal, -, hwaiting⟩ := h
  obtain ⟨hw, -⟩ := running_eq_false_iff.mp hrun
  exact hs.congr hfatal hseq hout.opened hout.torn (hwaiting.elim id (·.trans hw.symm)) hout.phase

theorem Broke.lifecycle {P : Byte → Prop} {s t : State} (h : Broke P s t) (hs : s.Lifecycle)
    (hrun : s.running = false) : t.Lifecycle := by
  obtain ⟨hout, -, hseq, -, hfatal, hwaiting⟩ := h
  obtain ⟨hw, -⟩ := running_eq_false_iff.mp hrun
  refine .of_not_running (running_eq_false_iff.mpr ⟨hwaiting.elim (·.trans hw) id, by simp [hseq]⟩)
    (by simp [hfatal, hseq]) ?_ (fun _ => hfatal) ?_
  · rw [hout.opened, hout.torn]
    exact hs.open_not_torn
  · rw [hout.opened, hout.torn, hout.phase]
    exact hs.closed_is_fresh

/-- Neither WaitIdle nor TurnOnDisplay stands for a request, so that only a host operation is ever left waiting. -/
theorem exec_keeps_lifecycle {i : Instr} {s t : State} (hs : s.Lifecycle) (hrun : s.running = false)
    (hi : i ≠ .waitIdle ∧ i ≠ .turnOnDisplay) (h : exec i s = .next t) : t.Lifecycle := by
  cases execCases_of_exec h with
  | host op hop _ =>
    rw [hop, exec_hostInstr] at h
    exact dispatch_keeps_lifecycle hs h
  | reserved _ hr =>
    obtain ⟨-, rfl⟩ | ⟨-, rfl⟩ := hr
    · exact hs
    · exact hs.congr rfl rfl rfl rfl rfl rfl
  | piece _ hp =>
    obtain hp | hp | ⟨hw, -⟩ := hp
    · exact hp.lifecycle hs hrun
    · exact hp.lifecycle hs hrun
    · exact (hw.elim hi.1 hi.2).elim

/-- Settles O44: by the cases of a step; what goes on is suspended, what is begun was not refused, and the ways an
operation ends each leave the invariant. -/
theorem stepKeepsTheLifecycle : Obligations.StepKeepsTheLifecycle := by
  intro s t hs h
  obtain ⟨-, hc⟩ := step_cases h
  cases hc with
  | goesOn hrun hr => exact resume_keeps_lifecycle hs hrun hr
  | idles _ _ ht => exact ht ▸ hs
  | runs r rs i hrun _ hd he =>
    exact exec_keeps_lifecycle (s := { s with inbox := rs }) (hs.congr rfl rfl rfl rfl rfl rfl) hrun
      (decode_no_wait hd) he

end Sys2Proof.Machine
end

section
/-! The invariants that follow from the events and the frame of a step alone: the latches (R21), the trace, the
configuration and the sticky flags (R29 to R32, R252). -/

namespace Sys2Proof.Machine

/-- Latches that hold the last levels of `T` do so after any events that set them. -/
theorem Logged.latchesFollow {s t : State} {es : List Event} (h : Logged s t es) (hs : s.latchesFollow) :
    t.latchesFollow := by
  obtain ⟨hrst, hdc, hcs⟩ := hs
  refine ⟨?_, ?_, ?_⟩
  · rw [h.rst, h.T, latchAfter_append, ← hrst]
  · rw [h.dc, h.T, latchAfter_append, ← hdc]
  · rw [h.cs, h.T, latchAfter_append, ← hcs]

/-- Settles O43: the latches move with the events a step appends. -/
theorem stepKeepsLatchesAtTheLastLevels : Obligations.StepKeepsLatchesAtTheLastLevels := by
  intro s t hs h
  obtain ⟨rs, hw⟩ := step_went h
  obtain ⟨es, -, hl⟩ := hw.logged
  exact hl.latchesFollow hs

/-- Settles O46: a step appends its events, and what every instruction does at most keeps the rest. -/
theorem stepOnlyAppendsAndKeepsStickyFlags : Obligations.StepOnlyAppendsAndKeepsStickyFlags := by
  intro s t h
  obtain ⟨rs, hw⟩ := step_went h
  obtain ⟨es, -, hl⟩ := hw.logged
  exact ⟨⟨es, hl.T⟩, hw.cfg, hw.fatal, hw.violation, hw.torn⟩

end Sys2Proof.Machine
end

section
/-! The bus is opened once and closed once (R29, R192): only Setup and Teardown perform the events that count, and each
passes the checks of R244 once. -/

namespace Sys2Proof.Machine

/-! ### What touches neither the bus nor its flags -/

/-- What `onceEach` reads: how often the bus was opened and closed, and the flags that say so. -/
def State.busUse (s : State) : Nat × Nat × Bool × Bool :=
  (s.T.count (.openBus .ok), s.T.count .closeBus, s.opened, s.torn)

theorem onceEach_of_busUse {s t : State} (h : t.busUse = s.busUse) (hs : s.onceEach) : t.onceEach := by
  simp only [State.busUse, Prod.mk.injEq] at h
  obtain ⟨hopen, hclose, hopened, htorn⟩ := h
  simpa only [State.onceEach, hopen, hclose, hopened, htorn] using hs

theorem busUse_performed {es : List Event} (s : State) (hopen : .openBus .ok ∉ es) (hclose : .closeBus ∉ es) :
    (s.performed es).busUse = s.busUse := by
  simp [State.busUse, List.count_eq_zero.mpr hopen, List.count_eq_zero.mpr hclose]

theorem frames_fix_busUse : FramesFix State.busUse := by
  intro mode v s t ht
  obtain e | e := frame_cases mode v s
  · rw [e] at ht
    cases ht
    exact busUse_performed s (by simp [Script.frame]) (by simp [Script.frame])
  · rw [e] at ht
    cases ht
    exact busUse_performed s (by simp) (by simp)

theorem waits_fix_busUse : WaitsFix State.busUse where
  poll s := by
    rw [pollBusy_eq_performed]
    exact busUse_performed s (by simp) (by simp)
  sleep ms s := by
    rw [sleepFor_eq_performed]
    exact busUse_performed s (by simp) (by simp)
  polls _ _ := rfl
  waiting _ _ := rfl

theorem converts_fix_busUse : ConvertsFix State.busUse := ⟨fun _ _ _ _ _ => rfl, fun _ _ _ _ => rfl⟩

theorem panelCommand_fixes_busUse (p : PanelCommand) (s : State) : (panelCommand p s).Fixes State.busUse s :=
  panelCommand_fixes frames_fix_busUse (fun _ _ => rfl) p s

/-! ### Rows of the operations in between -/

/-- A row fixes a key with what it performs and with what it records. -/
def Row.Fixes {α : Type} (key : State → α) (r : Row) : Prop :=
  (∀ t, (r.body t).Fixes key t) ∧ ∀ t, key (r.post t) = key t

theorem commandRow_fixes_busUse (p : PanelCommand) : (commandRow p).Fixes State.busUse :=
  ⟨panelCommand_fixes_busUse p, fun _ => rfl⟩

theorem commandWaitRow_fixes_busUse (p : PanelCommand) : (commandWaitRow p).Fixes State.busUse :=
  ⟨fun t => Fixes.andThen (panelCommand_fixes_busUse p t) fun u => waitIdle_fixes waits_fix_busUse u, fun _ => rfl⟩

theorem turnOnDisplay_fixes_busUse (t : State) : (turnOnDisplay t).Fixes State.busUse t :=
  turnOnDisplay_fixes frames_fix_busUse waits_fix_busUse t

theorem convertOperand_fixes_busUse (img : Option Image) (t : State) : (convertOperand img t).Fixes State.busUse t := by
  cases img with
  | none => exact Fixes.done rfl
  | some img => exact convert_fixes converts_fix_busUse img t

theorem streamOperand_fixes_busUse (code : Byte) (f : PlaneXform) (img : Option Image) (t : State) :
    (streamOperand code f img t).Fixes State.busUse t := by
  cases img with
  | none => exact Fixes.done rfl
  | some img =>
    exact Fixes.andThen (frames_fix_busUse .low code t) fun u =>
      streamPlane_fixes frames_fix_busUse (fun _ _ => rfl) f u

theorem initRows_fix_busUse : ∀ r ∈ initRows, r.Fixes State.busUse := by
  have hreset : ∀ t, (resetPulse (setPhase .inReset t)).busUse = t.busUse := fun t => by
    rw [resetPulse_eq_performed]
    exact busUse_performed (setPhase .inReset t) (by simp [Script.reset]) (by simp [Script.reset])
  simp only [initRows, List.forall_mem_cons, List.not_mem_nil, false_implies, implies_true, and_true]
  refine ⟨⟨fun t => Fixes.done (hreset t), fun _ => rfl⟩, ?_⟩
  exact ⟨commandWaitRow_fixes_busUse _, commandWaitRow_fixes_busUse _, commandWaitRow_fixes_busUse _,
    commandRow_fixes_busUse _, commandRow_fixes_busUse _, commandRow_fixes_busUse _, commandRow_fixes_busUse _,
    commandRow_fixes_busUse _, commandRow_fixes_busUse _, commandRow_fixes_busUse _, commandRow_fixes_busUse _,
    commandRow_fixes_busUse _, ⟨waitIdle_fixes waits_fix_busUse, fun _ => rfl⟩, commandRow_fixes_busUse _,
    ⟨prepareDraw_fixes frames_fix_busUse, fun _ => rfl⟩⟩

theorem clearRows_fix_busUse : ∀ r ∈ clearRows, r.Fixes State.busUse := by
  have hfill : ∀ v t, (streamFill v t).Fixes State.busUse t := streamFill_fixes frames_fix_busUse fun _ _ => rfl
  simp only [clearRows, List.forall_mem_cons, List.not_mem_nil, false_implies, implies_true, and_true]
  exact ⟨⟨prepareDraw_fixes frames_fix_busUse, fun _ => rfl⟩, ⟨frames_fix_busUse _ _, fun _ => rfl⟩,
    ⟨hfill _, fun _ => rfl⟩, ⟨frames_fix_busUse _ _, fun _ => rfl⟩, ⟨hfill _, fun _ => rfl⟩,
    ⟨turnOnDisplay_fixes_busUse, fun _ => rfl⟩⟩

theorem displayRows_fix_busUse (b r : Option Image) : ∀ row ∈ displayRows b r, row.Fixes State.busUse := by
  simp only [displayRows, List.forall_mem_cons, List.not_mem_nil, false_implies, implies_true, and_true]
  exact ⟨⟨prepareDraw_fixes frames_fix_busUse, fun _ => rfl⟩, ⟨convertOperand_fixes_busUse _, fun _ => rfl⟩,
    ⟨streamOperand_fixes_busUse _ _ _, fun _ => rfl⟩, ⟨convertOperand_fixes_busUse _, fun _ => rfl⟩,
    ⟨streamOperand_fixes_busUse _ _ _, fun _ => rfl⟩, ⟨turnOnDisplay_fixes_busUse, fun _ => rfl⟩⟩

/-- Between Setup and Teardown no row touches the bus. -/
theorem rows_fix_busUse {op : HostOp} (hset : op ≠ .setup) (htear : op ≠ .teardown) :
    ∀ r ∈ rowsOf op, r.Fixes State.busUse := by
  cases op with
  | setup => exact absurd rfl hset
  | initPanel => exact initRows_fix_busUse
  | clear => exact clearRows_fix_busUse
  | display b r => exact displayRows_fix_busUse b r
  | sleep =>
    intro r hr
    cases List.mem_singleton.mp hr
    exact ⟨panelCommand_fixes_busUse _, fun _ => rfl⟩
  | teardown => exact absurd rfl htear

/-- Going on with an operation fixes what a wait and the rows of the operation fix. -/
theorem resume_fixes {α : Type} {key : State → α} {op : HostOp} {n : Nat} {s : State} (hq : s.seq = .run op n)
    (hw : WaitsFix key) (hseq : ∀ s q, key (setSeq q s) = key s) (hrows : ∀ r ∈ rowsOf op, r.Fixes key) :
    (resume s).Fixes key s := by
  unfold resume
  rw [hq]
  dsimp only
  split
  · refine Fixes.andThen (pollOn_fixes hw s) fun t => ?_
    split
    · exact Fixes.done (hseq t _)
    · next r rs hd =>
      have hmem : ∀ r' ∈ r :: rs, r' ∈ rowsOf op := fun r' h' => List.mem_of_mem_drop (hd ▸ h')
      exact Fixes.of_eq (runRows_fixes op hseq rs (n + 1) _ fun r' h' => hrows r' (hmem r' (by simp [h'])))
        ((hrows r (hmem r (by simp))).2 t)
  · exact runRows_fixes op hseq _ n s fun r hr => hrows r (List.mem_of_mem_drop hr)

/-! ### Setup and Teardown -/

/-- Setup is its one row (R151). -/
theorem runOp_setup (s : State) :
    runOp .setup s = (openBus (setSeq (.run .setup 0) s)).andThen fun u => .done (endOp (finish .setup u)) := rfl

theorem runOp_setup_onceEach {s t : State} (hs : s.onceEach) (hopened : s.opened = false) (htorn : s.torn = false)
    (h : (runOp .setup s).outcome = .next t) : t.onceEach := by
  rw [runOp_setup] at h
  cases hl : s.link.get 0 with
  | ok =>
    rw [openBus_of_ok (s := setSeq (.run .setup 0) s) hl] at h
    cases h
    simpa [State.onceEach, State.T, hopened, htorn, finish, List.count_cons] using hs
  | fail =>
    rw [openBus_of_fail (s := setSeq (.run .setup 0) s) hl] at h
    cases h
    simpa [State.onceEach, State.T, hopened, htorn, List.count_cons] using hs

theorem runOp_teardown_onceEach {s t : State} (hs : s.onceEach) (hopened : s.opened = true) (htorn : s.torn = false)
    (h : (runOp .teardown s).outcome = .next t) : t.onceEach := by
  cases h
  simpa [State.onceEach, State.T, hopened, htorn, List.count_cons] using hs

/-! ### Steps -/

theorem runOp_keeps_onceEach {op : HostOp} {s t : State} (hs : s.onceEach) (hok : refusedHere op s = false)
    (h : (runOp op s).outcome = .next t) : t.onceEach := by
  obtain ⟨htorn, hopened, -⟩ := refusedHere_eq_false_iff.mp hok
  by_cases hset : op = .setup
  · subst hset
    exact runOp_setup_onceEach hs (by simpa using hopened) htorn h
  by_cases htear : op = .teardown
  · subst htear
    exact runOp_teardown_onceEach hs (hopened.mpr hset) htorn h
  · have hfix := runRows_fixes op (fun _ _ => rfl) _ 0 s (rows_fix_busUse hset htear)
    exact onceEach_of_busUse (Fixes.outcome hfix h) hs

theorem resume_keeps_onceEach {s t : State} (hlife : s.Lifecycle) (hs : s.onceEach) (hrun : s.running = true)
    (h : (resume s).outcome = .next t) : t.onceEach := by
  obtain ⟨op, n, hq⟩ := hlife.run_of_running hrun
  obtain ⟨-, -, hn⟩ := hlife.running_is_waiting op n hq
  have hset : op ≠ .setup := by rintro rfl; cases hn
  have htear : op ≠ .teardown := by rintro rfl; cases hn
  have hfix := resume_fixes hq waits_fix_busUse (fun _ _ => rfl) (rows_fix_busUse hset htear)
  exact onceEach_of_busUse (Fixes.outcome hfix h) hs

theorem dispatch_keeps_onceEach {op : HostOp} {s t : State} (hs : s.onceEach) (h : dispatch op s = .next t) :
    t.onceEach := by
  cases dispatch_inversion h with
  | notAccepted _ ht => exact ht ▸ hs
  | refused ht => exact ht ▸ hs
  | stopped _ ht => exact ht ▸ hs
  | starts _ hok ho => exact runOp_keeps_onceEach (s := { s with violation := s.violationAfter op }) hs hok ho

/-- Settles O47: Setup runs only before the bus is opened and Teardown only while it is open; an operation gone on with
is neither, and what else a request stands for touches neither the bus nor its flags. -/
theorem stepOpensAndClosesOnce : Obligations.StepOpensAndClosesOnce := by
  intro s t ⟨hlife, hs⟩ h
  obtain ⟨-, hc⟩ := step_cases h
  cases hc with
  | goesOn hrun hr => exact resume_keeps_onceEach hlife hs hrun hr
  | idles _ _ ht => exact ht ▸ hs
  | runs r rs i hrun _ hd he =>
    have hs' : State.onceEach { s with inbox := rs } := hs
    obtain ⟨op, rfl⟩ | hi | ⟨v, rfl⟩ | ⟨v, rfl⟩ | ⟨p, rfl⟩ := decode_cases hd
    · rw [exec_hostInstr] at he
      exact dispatch_keeps_onceEach hs' he
    · have he' : refuseReserved { s with inbox := rs } = .next t := by obtain rfl | rfl := hi <;> exact he
      rw [refuseReserved, if_neg (by exact Bool.eq_false_iff.mp hrun)] at he'
      cases he'
      exact hs
    · exact onceEach_of_busUse (Fixes.outcome (frames_fix_busUse .low v _) he) hs'
    · exact onceEach_of_busUse (Fixes.outcome (frames_fix_busUse .high v _) he) hs'
    · rw [exec_panelInstr] at he
      exact onceEach_of_busUse (Fixes.outcome (panelCommand_fixes_busUse p _) he) hs'

end Sys2Proof.Machine
end

section
/-! What raises `violation` (R31, R245, R246). -/

namespace Sys2Proof.Machine

theorem runOp_violation {op : HostOp} {s t : State} (h : (runOp op s).outcome = .next t) :
    t.violation = s.violation := (outcomes_of_runOp h).violation

/-- An accepted request that is not refused leaves `violation` as R245 says, however its operation ends. -/
theorem dispatch_violation {op : HostOp} {s t : State} (hrun : s.running = false) (hok : refusedHere op s = false)
    (h : dispatch op s = .next t) : t.violation = s.violationAfter op := by
  rw [dispatch_of_accepted hrun hok] at h
  split at h
  · exact runOp_violation h
  · next hno =>
    cases h
    have hl : legalIn op s.phase = false := Bool.eq_false_iff.mpr fun hl => hno (by simp [hl])
    simp [State.violationAfter, hl]

/-- A dispatch that raises `violation` is of a request whose phase was not legal. -/
theorem illegal_of_dispatch {op : HostOp} {s t : State} (h : dispatch op s = .next t) (hs : s.violation = false)
    (ht : t.violation = true) : legalIn op s.phase = false := by
  cases dispatch_inversion h with
  | notAccepted _ he => simp [he, hs] at ht
  | refused he => simp [he, hs] at ht
  | stopped hl _ => exact hl
  | starts _ _ ho => simpa [runOp_violation ho, State.violationAfter, hs] using ht

/-- Below the host operations nothing writes `violation`. -/
theorem hostInstr_of_exec_violation {i : Instr} {s t : State} (h : exec i s = .next t) (hs : s.violation = false)
    (ht : t.violation = true) : ∃ op, i = hostInstr op := by
  have hkeep : t.violation = s.violation → ∃ op, i = hostInstr op := fun he => by simp [he, hs] at ht
  cases execCases_of_exec h with
  | host op hop _ => exact ⟨op, hop⟩
  | reserved _ hr =>
    obtain ⟨-, rfl⟩ | ⟨-, rfl⟩ := hr
    · exact hkeep rfl
    · exact hkeep rfl
  | piece _ hp =>
    obtain ⟨hout, -⟩ | ⟨hout, -⟩ | ⟨-, hout, -⟩ := hp
    · exact hkeep hout.violation
    · exact hkeep hout.violation
    · exact hkeep hout.violation

/-- Settles O49: an accepted request leaves `violation` as R245 says; a step that raises it cannot have gone on with
an operation, and the instruction it ran was a host operation. -/
theorem violationOnlyByAnIllegalRequest : Obligations.ViolationOnlyByAnIllegalRequest := by
  refine ⟨fun op s t hrun htorn hopened hhalted hl h => ?_, fun s t h hs ht => ?_⟩
  · rw [exec_hostInstr] at h
    rw [dispatch_violation hrun (refusedHere_eq_false_iff.mpr ⟨htorn, hopened, hhalted⟩) h]
    simp [State.violationAfter, hl]
  · obtain ⟨-, hc⟩ := step_cases h
    cases hc with
    | goesOn _ hr => simp [(went_of_resume hr).2, hs] at ht
    | idles _ _ he =>
      rw [he, hs] at ht
      cases ht
    | runs r rs i _ hi hd he =>
      obtain ⟨op, rfl⟩ := hostInstr_of_exec_violation he hs ht
      rw [exec_hostInstr] at he
      exact ⟨r, rs, op, hi, hd, illegal_of_dispatch (s := { s with inbox := rs }) he hs ht⟩

end Sys2Proof.Machine
end

section
/-! Two blocks asked for the same operation (R28, R76, R246). -/

namespace Sys2Proof.Machine

theorem SameEvents.T {s s' t t' : State} (h : SameEvents s s' t t') : ∃ es, s'.T = s.T ++ es ∧ t'.T = t.T ++ es := by
  obtain ⟨es, hs, ht⟩ := h
  exact ⟨es.reverse, by simp [State.T, hs], by simp [State.T, ht]⟩

/-- Flows in step leave states that the same events lead to. -/
theorem InStep.sameEvents {R : State → State → Prop} {s t s' t' : State} {x y : Flow} (h : InStep R s t x y)
    (hx : x.outcome = .next s') (hy : y.outcome = .next t') : SameEvents s s' t t' := by
  cases h with
  | done g _ => cases hx; cases hy; exact g
  | trapped g => cases hx; cases hy; exact g
  | waits g => cases hx; cases hy; exact g
  | fault e => cases hx

/-- The checks of R244 read two flags and the position. -/
theorem refusedHere_congr {op : HostOp} {s t : State} (hopened : t.opened = s.opened) (htorn : t.torn = s.torn)
    (hseq : t.seq = s.seq) : refusedHere op t = refusedHere op s := by
  simp only [refusedHere, hopened, htorn, hseq]

theorem running_congr {s t : State} (hseq : t.seq = s.seq) (hwaiting : t.waiting = s.waiting) :
    t.running = s.running := by
  simp only [State.running, hseq, hwaiting]

/-- Settles O50: both blocks take the same way through the checks of R249, and blocks alike in configuration and
answers run an operation in step. -/
theorem scriptDependsOnlyOnRequestAndAnswers : Obligations.ScriptDependsOnlyOnRequestAndAnswers := by
  intro op s1 s2 t1 t2 hok hstrict hcfg hlink hbusy hopened htorn hseq hwaiting h1 h2
  rw [exec_hostInstr] at h1 h2
  suffices SameEvents s1 t1 s2 t2 from this.T
  have hrun2 : s2.running = s1.running := running_congr hseq hwaiting
  have hno2 : refusedHere op s2 = refusedHere op s1 := refusedHere_congr hopened htorn hseq
  cases hrun : s1.running with
  | true =>
    rw [dispatch_of_running hrun] at h1
    rw [dispatch_of_running (hrun2.trans hrun)] at h2
    cases h1
    cases h2
    exact .rfl s1 s2
  | false =>
    cases hno : refusedHere op s1 with
    | true =>
      rw [dispatch_of_refused hrun hno] at h1
      rw [dispatch_of_refused (hrun2.trans hrun) (hno2.trans hno)] at h2
      cases h1
      cases h2
      exact .rfl s1 s2
    | false =>
      have hgo : (legalIn op s2.phase || !s2.cfg.strict) = (legalIn op s1.phase || !s1.cfg.strict) := by
        obtain h | h := hstrict <;> simp [hcfg, h]
      rw [dispatch_of_accepted hrun hno] at h1
      rw [dispatch_of_accepted (hrun2.trans hrun) (hno2.trans hno), hgo] at h2
      split at h1
      · next hc =>
        rw [if_pos hc] at h2
        have hstep := runOp_inStep op (s := { s1 with violation := s1.violationAfter op })
          (t := { s2 with violation := s2.violationAfter op }) (geometryOk_of_ok hok) ⟨hcfg, hlink, hbusy⟩
        exact hstep.sameEvents h1 h2
      · next hc =>
        rw [if_neg hc] at h2
        cases h1
        cases h2
        exact .rfl s1 s2

end Sys2Proof.Machine
end

section
/-! A suspended operation goes on when the panel releases BUSY (R27, R141): the rows after its WaitIdle, and the state
it ends in (R156, R183, R185). -/

namespace Sys2Proof.Machine

/-! ### Rows of Initialize -/

/-- Rows of one panel command each; the last of them is left in the position. -/
theorem runRows_commands {op : HostOp} {rs : List Row} {s : State} {ph : Phase} {po : Nat} :
    ∀ (ps : List PanelCommand) (n : Nat) (es : List Event) (q : Seq), (∀ p ∈ ps, hasParams p = true) →
      s.linkOk (es.countP Event.asksLink + (ps.map fun p => 1 + (panelParams s.cfg p).length).sum) →
      ∃ q', runRows op n (ps.map commandRow ++ rs) (s.at es ph po q) = runRows op (n + ps.length) rs
        (s.at (es ++ ps.flatMap fun p => Script.command (p.code s.cfg) (panelParams s.cfg p)) ph po q')
  | [], n, es, q, _, _ => ⟨q, by simp⟩
  | p :: ps, n, es, q, hps, h => by
    simp only [List.map_cons, List.sum_cons, ← Nat.add_assoc] at h
    obtain ⟨q', ih⟩ := runRows_commands (op := op) (rs := rs) (ph := ph) (po := po) ps (n + 1)
      (es ++ Script.command (p.code s.cfg) (panelParams s.cfg p)) (.run op n) (fun p' h' => hps p' (by simp [h']))
      (by simpa [List.countP_append, Nat.add_assoc] using h)
    refine ⟨q', ?_⟩
    rw [List.map_cons, List.cons_append,
      runRows_command (hps p (by simp)) (linkOk_mono h (by simp [Nat.add_assoc])), ih]
    simp [Nat.add_comm, Nat.add_left_comm]

/-- The commands of rows 4 to 12 (R156). -/
def setupCommands : List PanelCommand :=
  [.softStart, .scanMux, .dataEntryMode, .ramXWindow, .ramYWindow, .borderVbd, .displayOption,
    .displayUpdateControl .lutSource, .activate]

/-- What they send. -/
def setupScript (c : Cfg) : List Event :=
  setupCommands.flatMap fun p => Script.command (p.code c) (panelParams c p)

@[simp] theorem setupScript_asksLink (c : Cfg) : (setupScript c).countP Event.asksLink = 29 := by
  simp [setupScript, setupCommands, panelParams, pair, Params.scanMuxBytes, List.countP_append]

@[simp] theorem setupScript_isPoll (c : Cfg) : (setupScript c).countP Event.isPoll = 0 := by
  simp [setupScript, setupCommands, List.countP_append]

theorem initRows_drop_four :
    initRows.drop 4 = setupCommands.map commandRow ++ { body := waitIdle } :: initRows.drop 14 := rfl

/-- The script of rows 4 to 15 by its three parts. -/
theorem initSetup_eq (c : Cfg) (n : Nat) :
    Script.initSetup c n = setupScript c ++ Script.wait c n ++ Script.initEnd c := by
  simp only [Script.initSetup, setupScript, setupCommands, List.flatMap_cons, List.flatMap_nil, List.append_nil,
    List.append_assoc, panelParams, pair_eq_le]
  rfl

/-- The end of an operation of a block that is not halted. -/
theorem endOp_setPhase_at {s : State} (hf : s.fatal = false) (es : List Event) (ph p : Phase) (po : Nat) (q : Seq) :
    endOp (setPhase p (s.at es ph po q)) = s.at es p po .idle := by
  simp [endOp, setSeq, setPhase, State.at, State.performed, hf]

section

variable {s : State} {es : List Event} {ph : Phase} {po : Nat} {q : Seq}

/-- Rows 14 and 15: the final pair and PrepareDraw. -/
theorem runRows_initPanel_fourteen (hf : s.fatal = false) (h : s.linkOk (es.countP Event.asksLink + 6)) :
    runRows .initPanel 14 (initRows.drop 14) (s.at es ph po q) =
      .done (s.at (es ++ Script.initEnd s.cfg) .initialized po .idle) := by
  show runRows .initPanel 14 [commandRow .finalPair, { body := prepareDraw, post := setPhase .initialized }] _ = _
  rw [runRows_command rfl (linkOk_mono h (by simp [panelParams])),
    runRows_prepareDraw (linkOk_mono h (by simp [List.countP_append, panelParams])), runRows_nil, endOp_setPhase_at hf,
    List.append_assoc]
  rfl

/-- Rows 4 to 15. -/
theorem runRows_initPanel_four {n : Nat} (hf : s.fatal = false) (h : s.linkOk (es.countP Event.asksLink + 35))
    (hb : s.holdsBusy (es.countP Event.isPoll) n) :
    runRows .initPanel 4 (initRows.drop 4) (s.at es ph po q) =
      .done (s.at (es ++ Script.initSetup s.cfg n) .initialized (n + 1) .idle) := by
  obtain ⟨q', hq⟩ := runRows_commands (op := .initPanel) (rs := { body := waitIdle } :: initRows.drop 14) (ph := ph)
    (po := po) setupCommands 4 es q (by simp [setupCommands, hasParams])
    (linkOk_mono h (by simp [setupCommands, panelParams, pair, Params.scanMuxBytes]))
  rw [initRows_drop_four, hq]
  show runRows .initPanel 13 _ (s.at (es ++ setupScript s.cfg) ph po q') = _
  rw [runRows_wait (by simpa [List.countP_append] using hb),
    runRows_initPanel_fourteen hf (linkOk_mono h (by simp [List.countP_append])), initSetup_eq]
  simp only [List.append_assoc]

/-- Rows 3 to 15. -/
theorem runRows_initPanel_three {n3 n13 : Nat} (hf : s.fatal = false) (h : s.linkOk (es.countP Event.asksLink + 37))
    (hb3 : s.holdsBusy (es.countP Event.isPoll) n3) (hb13 : s.holdsBusy (es.countP Event.isPoll + n3 + 1) n13) :
    runRows .initPanel 3 (initRows.drop 3) (s.at es ph po q) =
      .done (s.at (es ++ (Script.command s.cfg.cmdAw2 [s.cfg.aw2P] ++ Script.wait s.cfg n3) ++
        Script.initSetup s.cfg n13) .initialized (n13 + 1) .idle) := by
  show runRows .initPanel 3 (commandWaitRow .autoWrite2 :: initRows.drop 4) _ = _
  rw [runRows_commandWait rfl (linkOk_mono h (by simp [panelParams])) hb3,
    runRows_initPanel_four hf (linkOk_mono h (by simp [List.countP_append, panelParams]))
      (by simpa [List.countP_append, Nat.add_assoc] using hb13)]
  rfl

/-- Rows 2 to 15. -/
theorem runRows_initPanel_two {n2 n3 n13 : Nat} (hf : s.fatal = false) (h : s.linkOk (es.countP Event.asksLink + 39))
    (hb2 : s.holdsBusy (es.countP Event.isPoll) n2) (hb3 : s.holdsBusy (es.countP Event.isPoll + n2 + 1) n3)
    (hb13 : s.holdsBusy (es.countP Event.isPoll + n2 + n3 + 2) n13) :
    runRows .initPanel 2 (initRows.drop 2) (s.at es ph po q) =
      .done (s.at (es ++ (Script.command s.cfg.cmdAw1 [s.cfg.aw1P] ++ Script.wait s.cfg n2) ++
        (Script.command s.cfg.cmdAw2 [s.cfg.aw2P] ++ Script.wait s.cfg n3) ++ Script.initSetup s.cfg n13)
        .initialized (n13 + 1) .idle) := by
  show runRows .initPanel 2 (commandWaitRow .autoWrite1 :: initRows.drop 3) _ = _
  rw [runRows_commandWait rfl (linkOk_mono h (by simp [panelParams])) hb2,
    runRows_initPanel_three hf (linkOk_mono h (by simp [List.countP_append, panelParams]))
      (by simpa [List.countP_append, Nat.add_assoc] using hb3)
      (by simpa [List.countP_append, Nat.add_assoc, Nat.add_left_comm, Nat.add_comm] using hb13)]
  rfl

end

/-! ### Going on -/

/-- A WaitIdle that returns: what its row records, and the rows after it. -/
theorem resume_of_release {op : HostOp} {n m : Nat} {s : State} {r : Row} {rs : List Row} (hq : s.seq = .run op n)
    (hw : s.waiting = true) (hb : s.holdsBusy 0 m) (hd : (rowsOf op).drop n = r :: rs) :
    resume s =
      runRows op (n + 1) rs (r.post (s.at (Script.wait s.cfg m) s.phase (s.polls + m + 1) (.run op n))) := by
  have hat : { s.performed (Script.wait s.cfg m) with polls := s.polls + m + 1, waiting := false } =
      s.at (Script.wait s.cfg m) s.phase (s.polls + m + 1) (.run op n) := by
    rw [← hq]
    rfl
  unfold resume
  simp only [hq, hw, if_true, pollOn_of_release hb, Flow.done_andThen, hd, hat]

theorem step_of_waiting {s t : State} (hok : s.cfg.ok = true) (hw : s.waiting = true) (h : resume s = .done t) :
    step s = .next t := by
  rw [step, if_pos hok, if_pos (by simp [State.running, hw]), h]
  rfl

/-- An operation suspended in its last row, which records the phase. -/
theorem step_of_last_row {op : HostOp} {n m : Nat} {s : State} {body : State → Flow} {p : Phase}
    (hok : s.cfg.ok = true) (hw : s.waiting = true) (hf : s.fatal = false) (hb : s.holdsBusy 0 m)
    (hq : s.seq = .run op n) (hd : (rowsOf op).drop n = [{ body := body, post := setPhase p }]) :
    step s = .next (s.at (Script.wait s.cfg m) p (s.polls + m + 1) .idle) :=
  step_of_waiting hok hw (by rw [resume_of_release hq hw hb hd, runRows_nil, endOp_setPhase_at hf])

/-- Settles O34: the wait returns, and the rows after it run on a transport that answers. -/
theorem suspendedOperationsFinish : Obligations.SuspendedOperationsFinish := by
  intro s n hok hw hf hb
  refine ⟨fun hq => ?_, fun b r hq => ?_, fun hq hl => ?_, fun n13 hq hl hb13 => ?_, fun n3 n13 hq hl hb3 hb13 => ?_,
    fun n2 n3 n13 hq hl hb2 hb3 hb13 => ?_⟩
  · exact step_of_last_row hok hw hf hb hq rfl
  · exact step_of_last_row hok hw hf hb hq rfl
  · refine step_of_waiting hok hw ((resume_of_release hq hw hb rfl).trans ?_)
    exact runRows_initPanel_fourteen hf (by simpa using hl)
  · refine step_of_waiting hok hw ((resume_of_release hq hw hb rfl).trans ?_)
    exact runRows_initPanel_four hf (by simpa using hl) (by simpa using hb13)
  · refine step_of_waiting hok hw ((resume_of_release hq hw hb rfl).trans ?_)
    exact runRows_initPanel_three hf (by simpa using hl) (by simpa using hb3)
      (by simpa [Nat.add_assoc, Nat.add_left_comm, Nat.add_comm] using hb13)
  · refine step_of_waiting hok hw ((resume_of_release hq hw hb rfl).trans ?_)
    exact runRows_initPanel_two hf (by simpa using hl) (by simpa using hb2)
      (by simpa [Nat.add_assoc, Nat.add_left_comm, Nat.add_comm] using hb3)
      (by simpa [Nat.add_assoc, Nat.add_left_comm, Nat.add_comm] using hb13)

end Sys2Proof.Machine
end

section
/-! The state at power-on (R50), and a block that has nothing to do (log 17). -/

namespace Sys2Proof.Machine

/-- Settles O6: with nothing running and no request, `step` answers the state it was given. -/
theorem idleBlockWaits : Obligations.IdleBlockWaits := by
  intro s hok hrun hinbox
  rw [step, if_pos hok, if_neg (by simp [hrun]), hinbox]

/-- Settles O8: the fields of `State.reset`, read one by one. -/
theorem powerOnState : Obligations.PowerOnState :=
  ⟨rfl, rfl, rfl, rfl, rfl, rfl, rfl, rfl, rfl, rfl, rfl, rfl⟩

theorem wellFramed_nil : WellFramed [] := by
  intro before v a after h
  simp at h

theorem onlyPanelCodes_nil (c : Cfg) : OnlyPanelCodes c [] := by
  intro before v a after h
  simp at h

/-- Nothing runs, the bus was never opened, and the phase is the fresh one. -/
theorem reset_lifecycle : State.reset.Lifecycle :=
  .of_not_running rfl (by simp [State.reset]) (fun h => by cases h) (fun h => by cases h) fun _ _ => rfl

/-- Settles O48: at power-on no event was performed, no request is listed and nothing runs. -/
theorem powerOnMeetsTheInvariants : Obligations.PowerOnMeetsTheInvariants :=
  ⟨wellFramed_nil, by simp [State.hostOnly, State.reset], onlyPanelCodes_nil _, ⟨rfl, rfl, rfl⟩, reset_lifecycle,
    ⟨reset_pb_wf, by simp [State.reset]⟩, rfl, rfl⟩

end Sys2Proof.Machine
end

section
/-! The plane buffer (R66, R69): no instruction leaves its range and every step keeps it; the plane writes (R71) send
it, or a constant, in whole. -/

namespace Sys2Proof.Machine

/-! ### The range of the buffer -/

/-- Settles O38: an instruction is a host operation, a reserved code or a piece of one (`exec_cases`), and each of
these ends without a fault. -/
theorem everyInstructionAnswers : Obligations.EveryInstructionAnswers := by
  intro i s
  obtain ⟨t, ht, -⟩ := exec_cases (P := fun _ => True) i s (fun _ _ => trivial) fun _ _ => trivial
  exact ⟨t, ht⟩

/-- Settles O45: taking a request from the inbox does not touch the buffer, and what every instruction does at most
keeps it. -/
theorem stepKeepsThePlaneBuffer : Obligations.StepKeepsThePlaneBuffer := by
  intro s t hs h
  obtain ⟨rs, hw⟩ := step_went h
  exact hw.plane hs

/-! ### The plane writes -/

theorem exec_pcWriteBlackPlane_fill (s : State) :
    exec (.pcWriteBlackPlane .fill) s = ((sendCommand 0x24 s).andThen (streamFill 0xFF)).outcome := rfl

theorem exec_pcWriteBlackPlane_buffer (s : State) :
    exec (.pcWriteBlackPlane .buffer) s = ((sendCommand 0x24 s).andThen (streamPlane .identity)).outcome := rfl

theorem exec_pcWriteRedPlane_fill (s : State) :
    exec (.pcWriteRedPlane .fill) s = ((sendCommand 0x26 s).andThen (streamFill 0x00)).outcome := rfl

theorem exec_pcWriteRedPlane_buffer (s : State) :
    exec (.pcWriteRedPlane .buffer) s = ((sendCommand 0x26 s).andThen (streamPlane .complement)).outcome := rfl

theorem map_sentByte_identity (bs : List Byte) : bs.map (Script.sentByte .identity) = bs := List.map_id bs

theorem map_sentByte_complement (bs : List Byte) :
    bs.map (Script.sentByte .complement) = bs.map fun b => 255 - b := rfl

/-- Settles O12: each plane write is a command frame and a stream of PLANE_BYTES bytes, the buffer's through the
transform of its plane. -/
theorem planeWriteCommandsSendAPlane : Obligations.PlaneWriteCommandsSendAPlane := by
  intro s h
  refine ⟨?blackFill, ?blackBuffer, ?redFill, ?redBuffer⟩
  case blackFill => rw [exec_pcWriteBlackPlane_fill, fillCommand_of_ok _ _ h, Flow.done_outcome]
  case blackBuffer =>
    rw [exec_pcWriteBlackPlane_buffer, bufferCommand_of_ok _ _ h, map_sentByte_identity, Flow.done_outcome]
  case redFill => rw [exec_pcWriteRedPlane_fill, fillCommand_of_ok _ _ h, Flow.done_outcome]
  case redBuffer =>
    rw [exec_pcWriteRedPlane_buffer, bufferCommand_of_ok _ _ h, map_sentByte_complement, Flow.done_outcome]

end Sys2Proof.Machine
end

section
/-! The encoding (spec/30_encoding.md): the words of the host's requests (R94, R95, R105) and of the frames (R91), the
seventeen codes of an accepted configuration (R10, R100), and the round trip. -/

namespace Sys2Proof.Machine

/-! ### Host request words -/

/-- The fields of a host request word are what it was made of, and the bits above it are clear (R94). -/
theorem hostByte_fields : ∀ op < 8, ∀ bp rp : Bool,
    (hostByte op bp rp).extractLsb' 5 3 = 0 ∧ (hostByte op bp rp).extractLsb' 2 3 = BitVec.ofNat 3 op ∧
      (hostByte op bp rp).getLsbD 1 = bp ∧ (hostByte op bp rp).getLsbD 0 = rp := by decide

theorem decode_hostByte (c : Cfg) {op : Nat} (hop : op < 8) (bp rp : Bool) (black red : Image) :
    decode c ⟨[hostByte op bp rp], black, red⟩ = .ok (decodeOp (BitVec.ofNat 3 op) bp rp black red) := by
  obtain ⟨hhigh, hcode, hbp, hrp⟩ := hostByte_fields op hop bp rp
  show decodeHost (hostByte op bp rp) black red = _
  rw [decodeHost, if_pos hhigh, hcode, hbp, hrp]

/-- An operand is read back from its presence bit and its image. -/
theorem operandImage_isSome_getD (b : Option Image) : operandImage b.isSome (b.getD Image.zero) = b := by
  cases b <;> rfl

/-- Settles O2: the word's fields are its operation and its presence bits, and each of the eight codes has its row. -/
theorem hostRequestWordsDecode : Obligations.HostRequestWordsDecode := by
  intro c bp rp black red op i hrow
  have hword : op < 8 → decodeOp (BitVec.ofNat 3 op) bp rp black red = i →
      decode c ⟨[hostByte op bp rp], black, red⟩ = .ok i := fun hop hi => hi ▸ decode_hostByte c hop bp rp black red
  simp only [List.mem_cons, List.not_mem_nil, or_false, Prod.mk.injEq] at hrow
  obtain ⟨rfl, rfl⟩ | ⟨rfl, rfl⟩ | ⟨rfl, rfl⟩ | ⟨rfl, rfl⟩ | ⟨rfl, rfl⟩ | ⟨rfl, rfl⟩ | ⟨rfl, rfl⟩ | ⟨rfl, rfl⟩ := hrow
  all_goals exact hword (by decide) rfl

/-- Only DISPLAY reads the presence bits and the images (R94, R95). -/
theorem decodeOp_of_ne_display {op : Nat} (hop : op < 8) (hne : op ≠ 3) (bp rp bp' rp' : Bool) (b r b' r' : Image) :
    decodeOp (BitVec.ofNat 3 op) bp rp b r = decodeOp (BitVec.ofNat 3 op) bp' rp' b' r' := by
  have hcode : op = 0 ∨ op = 1 ∨ op = 2 ∨ op = 4 ∨ op = 5 ∨ op = 6 ∨ op = 7 := by omega
  obtain rfl | rfl | rfl | rfl | rfl | rfl | rfl := hcode
  all_goals rfl

theorem refuseReserved_of_not_running {s : State} (hrun : s.running = false) :
    refuseReserved s = .next { s with err := .refused } := if_neg (by simp [hrun])

/-- Settles O30: codes 6 and 7 are read as the reserved instructions, whose refusal records the code alone; and no
operation but DISPLAY reads the rest of its word. -/
theorem reservedCodesAreRefused : Obligations.ReservedCodesAreRefused := by
  refine ⟨fun c bp rp black red => ⟨?_, ?_⟩, fun s hrun => ⟨?_, ?_⟩, fun c op bp rp bp' rp' b r b' r' hop hne => ?_⟩
  · exact decode_hostByte c (op := 6) (by decide) bp rp black red
  · exact decode_hostByte c (op := 7) (by decide) bp rp black red
  · exact refuseReserved_of_not_running hrun
  · exact refuseReserved_of_not_running hrun
  · show decode c ⟨[hostByte op bp rp], b, r⟩ = decode c ⟨[hostByte op bp' rp'], b', r'⟩
    rw [decode_hostByte c hop, decode_hostByte c hop, decodeOp_of_ne_display hop hne bp rp bp' rp' b r b' r']

/-- Settles O3: each of the twelve words is closed, and the decoder runs on it. -/
theorem tableWordsDecode : Obligations.TableWordsDecode := by
  refine ⟨?_, ?_, ?_, ?_, ?_, ?_, ?_, ?_, ?_, ?_, ?_, ?_⟩ <;> decide

/-! ### Frame words -/

/-- The second byte of a frame word holds its two flags and nothing else. -/
theorem frameFlags_fields : ∀ second dc : Bool,
    (BitVec.ofNat 8 (2 * second.toNat + dc.toNat)).extractLsb' 2 6 = 0 ∧
      (BitVec.ofNat 8 (2 * second.toNat + dc.toNat)).getLsbD 0 = dc ∧
      (BitVec.ofNat 8 (2 * second.toNat + dc.toNat)).getLsbD 1 = second := by decide

/-- The fields of a frame word are what it was made of, and the bits above them are clear (R91). -/
theorem frameBytes_fields (second dc : Bool) (v : Byte) : ∃ hi : Byte, frameBytes second dc v = [v, hi] ∧
    (hi ++ v).extractLsb' 10 6 = 0 ∧ (hi ++ v).getLsbD 8 = dc ∧ (hi ++ v).getLsbD 9 = second ∧
      (hi ++ v).extractLsb' 0 8 = v := by
  obtain ⟨hhigh, hdc, hsecond⟩ := frameFlags_fields second dc
  refine ⟨_, rfl, ?_, ?_, ?_, BitVec.extractLsb'_append_eq_right⟩
  · rw [BitVec.extractLsb'_append_eq_of_le (by decide)]
    exact hhigh
  · rw [BitVec.getLsbD_append, if_neg (by decide)]
    exact hdc
  · rw [BitVec.getLsbD_append, if_neg (by decide)]
    exact hsecond

theorem decode_commandFrame {c : Cfg} {second : Bool} {v : Byte} {i : Instr} (h : decodeCommand c second v = some i) :
    decode c (plainRequest (frameBytes second false v)) = .ok i := by
  obtain ⟨hi, hbytes, hhigh, hdc, hsecond, hv⟩ := frameBytes_fields second false v
  rw [hbytes]
  show decodeFrame c (hi ++ v) = _
  rw [decodeFrame, if_pos hhigh, hdc, if_neg (by decide), hsecond, hv, h]

theorem decode_dataFrame (c : Cfg) (v : Byte) :
    decode c (plainRequest (frameBytes false true v)) = .ok (.sendData v) := by
  obtain ⟨hi, hbytes, hhigh, hdc, hsecond, hv⟩ := frameBytes_fields false true v
  rw [hbytes]
  show decodeFrame c (hi ++ v) = _
  rw [decodeFrame, if_pos hhigh, hdc, if_pos rfl, hsecond, if_neg (by decide), hv]

/-! ### The seventeen codes -/

/-- The panel commands whose codes the source ties to a step (R9), each in its first use. -/
def fixedCommands : List PanelCommand :=
  [.scanMux, .softStart, .deepSleep, .dataEntryMode, .swReset, .writeBlackPlane .buffer, .writeRedPlane .buffer,
    .borderVbd]

/-- The panel commands whose codes are fields of `Cfg` (R10), each in its first use. -/
def openCommands : List PanelCommand :=
  [.autoWrite1, .autoWrite2, .ramXWindow, .ramYWindow, .displayOption, .displayUpdateControl .turnOn, .activate,
    .finalPair, .ramAddressCounter]

theorem all_first_perm : (PanelCommand.all false).Perm (fixedCommands ++ openCommands) := by decide

/-- The codes of R9. -/
def fixedCodes : List Byte := [0x01, 0x0C, 0x10, 0x11, 0x12, 0x24, 0x26, 0x3C]

theorem map_code_fixedCommands (c : Cfg) : fixedCommands.map (PanelCommand.code c) = fixedCodes := rfl

theorem map_code_openCommands (c : Cfg) : openCommands.map (PanelCommand.code c) = c.cmdCodes := rfl

theorem codesOk_iff {c : Cfg} : c.codesOk = true ↔ c.cmdCodes.Nodup ∧ ∀ x ∈ c.cmdCodes, x ∈ Params.openCodes := by
  simp [Cfg.codesOk]

theorem codesOk_of_ok {c : Cfg} (h : c.ok = true) : c.codesOk = true := by
  simp only [Cfg.ok, Bool.and_eq_true, and_assoc] at h
  obtain ⟨-, hcodes, -⟩ := h
  exact hcodes

/-- The seventeen codes of an accepted configuration are distinct: the open ones by R10, and none of them is fixed. -/
theorem panelCodes_nodup {c : Cfg} (h : c.ok = true) : c.panelCodes.Nodup := by
  obtain ⟨hnodup, hopen⟩ := codesOk_iff.mp (codesOk_of_ok h)
  have hapart : ∀ x ∈ fixedCodes, ∀ y ∈ Params.openCodes, x ≠ y := by decide
  rw [Cfg.panelCodes, (all_first_perm.map _).nodup_iff, List.map_append, map_code_fixedCommands, map_code_openCommands,
    List.nodup_append]
  exact ⟨by decide, hnodup, fun x hx y hy => hapart x hx y (hopen y hy)⟩

/-- The commands of a second use (log 9), in their first use. -/
def sharedCommands : List PanelCommand :=
  [.displayUpdateControl .turnOn, .writeBlackPlane .buffer, .writeRedPlane .buffer]

theorem map_code_all_second (c : Cfg) :
    (PanelCommand.all true).map (PanelCommand.code c) = sharedCommands.map (PanelCommand.code c) := rfl

theorem sharedCommands_sublist : sharedCommands.Sublist (PanelCommand.all false) := by decide

/-- In either use, the codes of the commands are distinct. -/
theorem map_code_all_nodup {c : Cfg} (h : c.ok = true) (second : Bool) :
    ((PanelCommand.all second).map (PanelCommand.code c)).Nodup := by
  cases second with
  | false => exact panelCodes_nodup h
  | true =>
    rw [map_code_all_second]
    exact (panelCodes_nodup h).sublist (sharedCommands_sublist.map _)

theorem mem_all_second (p : PanelCommand) : p ∈ PanelCommand.all p.second := by
  cases p with
  | displayUpdateControl u => cases u <;> decide
  | writeBlackPlane u => cases u <;> decide
  | writeRedPlane u => cases u <;> decide
  | _ => decide

/-- Among commands of distinct codes, the one found by a command's code is that command. -/
theorem find_code {c : Cfg} {l : List PanelCommand} (h : (l.map (PanelCommand.code c)).Nodup) {p : PanelCommand}
    (hp : p ∈ l) : (l.find? fun q => decide (q.code c = p.code c)) = some p := by
  cases hfind : l.find? fun q => decide (q.code c = p.code c) with
  | none => exact absurd (decide_eq_true rfl) (List.find?_eq_none.mp hfind p hp)
  | some q =>
    have hq : q.code c = p.code c := by simpa using List.find?_some hfind
    rw [List.inj_on_of_nodup_map h (List.mem_of_find?_eq_some hfind) hp hq]

theorem decodeCommand_panel {c : Cfg} (h : c.ok = true) (p : PanelCommand) :
    decodeCommand c p.second (p.code c) = some p.instr := by
  rw [decodeCommand, find_code (map_code_all_nodup h p.second) (mem_all_second p)]

theorem decodeCommand_raw {c : Cfg} {v : Byte} (h : v ∉ c.panelCodes) :
    decodeCommand c false v = some (.sendCommand v) := by
  have hfind : ((PanelCommand.all false).find? fun p => decide (p.code c = v)) = none :=
    List.find?_eq_none.mpr fun p hp hv => h (List.mem_map.mpr ⟨p, hp, of_decide_eq_true hv⟩)
  rw [decodeCommand, hfind]
  rfl

/-! ### The round trip -/

theorem decode_encode_hostInstr {c : Cfg} {r : Request} (op : HostOp) (h : encode c (hostInstr op) = some r) :
    decode c r = .ok (hostInstr op) := by
  have hplain : ∀ n < 8, decode c (plainRequest [hostByte n false false]) =
      .ok (decodeOp (BitVec.ofNat 3 n) false false Image.zero Image.zero) :=
    fun n hn => decode_hostByte c hn false false Image.zero Image.zero
  cases op with
  | setup => exact Option.some.inj h ▸ hplain 0 (by decide)
  | initPanel => exact Option.some.inj h ▸ hplain 1 (by decide)
  | clear => exact Option.some.inj h ▸ hplain 2 (by decide)
  | display b r =>
    obtain rfl := Option.some.inj h
    rw [decode_hostByte c (by decide)]
    show Except.ok (Instr.display (operandImage _ _) (operandImage _ _)) = _
    rw [operandImage_isSome_getD, operandImage_isSome_getD]
    rfl
  | sleep => exact Option.some.inj h ▸ hplain 4 (by decide)
  | teardown => exact Option.some.inj h ▸ hplain 5 (by decide)

theorem decode_encodePanel {c : Cfg} (h : c.ok = true) (p : PanelCommand) :
    decode c (encodePanel c p) = .ok p.instr := decode_commandFrame (decodeCommand_panel h p)

/-- Every instruction with a request is a host operation, a reserved code, a frame or a panel command. -/
theorem decode_encode {c : Cfg} {i : Instr} {r : Request} (hok : c.ok = true) (hwf : i.wf c = true)
    (h : encode c i = some r) : decode c r = .ok i := by
  have panel : ∀ p : PanelCommand, some (encodePanel c p) = some r → decode c r = .ok p.instr :=
    fun p hp => Option.some.inj hp ▸ decode_encodePanel hok p
  cases i with
  | setup => exact decode_encode_hostInstr .setup h
  | initPanel => exact decode_encode_hostInstr .initPanel h
  | clear => exact decode_encode_hostInstr .clear h
  | display b r => exact decode_encode_hostInstr (.display b r) h
  | sleep => exact decode_encode_hostInstr .sleep h
  | teardown => exact decode_encode_hostInstr .teardown h
  | reserved6 => exact Option.some.inj h ▸ decode_hostByte c (op := 6) (by decide) false false Image.zero Image.zero
  | reserved7 => exact Option.some.inj h ▸ decode_hostByte c (op := 7) (by decide) false false Image.zero Image.zero
  | sendCommand v =>
    have hraw : v ∉ c.panelCodes := by simpa [Instr.wf] using hwf
    exact Option.some.inj h ▸ decode_commandFrame (decodeCommand_raw hraw)
  | sendData v => exact Option.some.inj h ▸ decode_dataFrame c v
  | pcScanMux => exact panel .scanMux h
  | pcSoftStart => exact panel .softStart h
  | pcDeepSleep => exact panel .deepSleep h
  | pcDataEntryMode => exact panel .dataEntryMode h
  | pcSwReset => exact panel .swReset h
  | pcDisplayOption => exact panel .displayOption h
  | pcActivate => exact panel .activate h
  | pcDisplayUpdateControl u => exact panel (.displayUpdateControl u) h
  | pcWriteBlackPlane u => exact panel (.writeBlackPlane u) h
  | pcWriteRedPlane u => exact panel (.writeRedPlane u) h
  | pcBorderVbd => exact panel .borderVbd h
  | pcRamXWindow => exact panel .ramXWindow h
  | pcRamYWindow => exact panel .ramYWindow h
  | pcAutoWrite1 => exact panel .autoWrite1 h
  | pcAutoWrite2 => exact panel .autoWrite2 h
  | pcFinalPair => exact panel .finalPair h
  | pcRamAddressCounter => exact panel .ramAddressCounter h
  | _ => cases h

/-- Only the micro-operations have no request (R111). -/
theorem microOperation_of_encode_none {c : Cfg} {i : Instr} (h : encode c i = none) :
    i = .reset ∨ i = .waitIdle ∨ i = .prepareDraw ∨ (∃ v, i = .streamFill v) ∨ (∃ img, i = .convert img) ∨
      (∃ f, i = .streamPlane f) ∨ i = .turnOnDisplay := by
  cases i with
  | reset => simp
  | waitIdle => simp
  | prepareDraw => simp
  | streamFill v => simp
  | convert img => simp
  | streamPlane f => simp
  | turnOnDisplay => simp
  | _ => cases h

/-- Settles O1: the fields of a word are those it was made of, and no two codes of an accepted configuration agree. -/
theorem decodeInvertsEncode : Obligations.DecodeInvertsEncode :=
  ⟨fun _ _ _ hok hwf h => decode_encode hok hwf h, fun _ _ h => microOperation_of_encode_none h⟩

end Sys2Proof.Machine
end

section
/-! The panel commands whose data frames are parameter bytes (R92, R96, R100). -/

namespace Sys2Proof.Machine

/-- The panel commands that are no plane write, in the order of the table of R100. -/
def paramCommands : List PanelCommand :=
  [.scanMux, .softStart, .deepSleep, .dataEntryMode, .swReset, .displayOption, .activate,
    .displayUpdateControl .turnOn, .displayUpdateControl .lutSource, .borderVbd, .ramXWindow, .ramYWindow, .autoWrite1,
    .autoWrite2, .finalPair, .ramAddressCounter]

theorem hasParams_of_mem : ∀ p ∈ paramCommands, hasParams p = true := by decide

/-- The table of the statements is the model's code and parameter bytes, command by command. -/
theorem commandTable_eq (c : Cfg) :
    Script.commandTable c = paramCommands.map fun p => (p.instr, p.code c, panelParams c p) := by
  simp only [Script.commandTable, paramCommands, List.map_cons, List.map_nil, panelParams, pair_eq_le]
  rfl

/-- Settles O11: a row of the table is a panel command with its code and parameter bytes, and on a transport that
answers it sends these. -/
theorem panelCommandsSendTheirFrames : Obligations.PanelCommandsSendTheirFrames := by
  intro s i code bytes hrow hlink
  rw [commandTable_eq] at hrow
  obtain ⟨p, hp, hrow⟩ := List.mem_map.mp hrow
  cases hrow
  rw [exec_panelInstr, paramCommand_of_ok (hasParams_of_mem p hp) hlink, Flow.done_outcome]

end Sys2Proof.Machine
end

section
/-! Every command frame carries one of the seventeen codes (R106): events in whole frames add no other, whatever `T`
they are appended to, and a step that takes a host request sends no other. -/

namespace Sys2Proof.Machine

/-! ### Appending events -/

/-- A command frame of `T` and one more event is one of `T`, or ends with that event. -/
theorem onlyPanelCodes_append_event {c : Cfg} {T : List Event} {e : Event} (hT : OnlyPanelCodes c T)
    (he : ∀ before v a, T ++ [e] = before ++ [.setLine .dc .low, .setLine .cs .low, .transmit v a] →
      v ∈ Script.codes c) : OnlyPanelCodes c (T ++ [e]) := by
  intro before v a after h
  obtain rfl | ⟨after', x, rfl⟩ := after.eq_nil_or_concat'
  · exact he before v a (by simpa using h)
  · rw [← List.append_assoc] at h
    exact hT before v a after' (List.append_inj_left' h rfl)

theorem onlyPanelCodes_append_quiet {c : Cfg} {T : List Event} {e : Event} (hT : OnlyPanelCodes c T)
    (he : e.isTransmit = false) : OnlyPanelCodes c (T ++ [e]) := by
  refine onlyPanelCodes_append_event hT fun before v a h => ?_
  have hlast : T ++ [e] = (before ++ [.setLine .dc .low, .setLine .cs .low]) ++ [.transmit v a] := by simpa using h
  cases (List.append_inj' hlast rfl).2
  cases he

/-- A frame up to its transmission: its command carries one of the seventeen codes. -/
theorem onlyPanelCodes_append_transmit {c : Cfg} {T : List Event} {mode : Level} {v : Byte} (hT : OnlyPanelCodes c T)
    (hv : mode = .low → v ∈ Script.codes c) (a : Answer) :
    OnlyPanelCodes c (T ++ [.setLine .dc mode, .setLine .cs .low, .transmit v a]) := by
  have hlines : OnlyPanelCodes c (T ++ [.setLine .dc mode] ++ [.setLine .cs .low]) :=
    onlyPanelCodes_append_quiet (onlyPanelCodes_append_quiet hT rfl) rfl
  have hall := onlyPanelCodes_append_event (e := .transmit v a) hlines fun before v' a' h => ?_
  · simpa using hall
  · have hframe : T ++ [.setLine .dc mode, .setLine .cs .low, .transmit v a] =
        before ++ [.setLine .dc .low, .setLine .cs .low, .transmit v' a'] := by simpa using h
    cases (List.append_inj' hframe rfl).2
    exact hv rfl

theorem onlyPanelCodes_append_chunks {c : Cfg} {es : List Event} (h : Chunks (· ∈ Script.codes c) es) :
    ∀ T, OnlyPanelCodes c T → OnlyPanelCodes c (T ++ es) := by
  induction h with
  | nil => intro T hT; simpa using hT
  | frame mode v hv _ ih =>
    intro T hT
    have hframe := onlyPanelCodes_append_quiet (e := .setLine .cs .high) (onlyPanelCodes_append_transmit hT hv .ok) rfl
    simpa [Script.frame] using ih _ hframe
  | quiet e he _ _ ih =>
    intro T hT
    simpa using ih _ (onlyPanelCodes_append_quiet hT he)

theorem onlyPanelCodes_append_broken {c : Cfg} {T es : List Event} {code : ErrCode}
    (h : Broken (· ∈ Script.codes c) es code) (hT : OnlyPanelCodes c T) : OnlyPanelCodes c (T ++ es) := by
  cases h with
  | frame mode v hv => exact onlyPanelCodes_append_transmit hT hv .fail
  | bus => exact onlyPanelCodes_append_quiet hT rfl

theorem onlyPanelCodes_append_stepEvents {c : Cfg} {T es : List Event} (h : StepEvents (· ∈ Script.codes c) es)
    (hT : OnlyPanelCodes c T) : OnlyPanelCodes c (T ++ es) := by
  obtain hes | ⟨fs, gs, code, hfs, hgs, rfl⟩ := h
  · exact onlyPanelCodes_append_chunks hes T hT
  · rw [← List.append_assoc]
    exact onlyPanelCodes_append_broken hgs (onlyPanelCodes_append_chunks hfs T hT)

/-! ### Steps -/

/-- A host request is no raw command frame (R90). -/
theorem decode_ne_sendCommand_of_length_one {c : Cfg} {r : Request} {i : Instr} (hr : r.bytes.length = 1)
    (h : decode c r = .ok i) (v : Byte) : i ≠ .sendCommand v := by
  obtain ⟨op, rfl⟩ | rfl | rfl := decode_length_one hr h
  · cases op <;> simp [hostInstr]
  · simp
  · simp

/-- A step that takes no request but the host's sends only commands of the seventeen codes. -/
theorem step_went_of_hostOnly {s t : State} (hs : s.hostOnly) (h : step s = .next t) :
    ∃ rs, rs ⊆ s.inbox ∧ Went (· ∈ Script.codes s.cfg) { s with inbox := rs } t := by
  obtain ⟨-, hc⟩ := step_cases h
  cases hc with
  | goesOn _ hr =>
    obtain ⟨t', ht', hw, -⟩ := resume_went (P := (· ∈ Script.codes s.cfg)) (s := s) fun _ hv => hv
    cases ht'.symm.trans hr
    exact ⟨s.inbox, List.Subset.refl _, hw⟩
  | idles _ _ ht =>
    subst ht
    exact ⟨t.inbox, List.Subset.refl _, (.rfl _ t : Went _ t t)⟩
  | runs r rs i _ hi hd he =>
    have hr : r.bytes.length = 1 := hs r (by simp [hi])
    obtain ⟨t', ht', hcase⟩ := exec_cases (P := (· ∈ Script.codes s.cfg)) i { s with inbox := rs } (fun _ hv => hv)
      fun v hv => absurd hv (decode_ne_sendCommand_of_length_one hr hd v)
    cases ht'.symm.trans he
    exact ⟨rs, by simp [hi], hcase.went⟩

/-- Settles O42: the requests left are some of the host's, and the events a step appends carry only the seventeen
codes. -/
theorem stepSendsOnlyPanelCodes : Obligations.StepSendsOnlyPanelCodes := by
  rintro s t ⟨hhost, hT⟩ h
  obtain ⟨rs, hrs, hw⟩ := step_went_of_hostOnly hhost h
  obtain ⟨es, hes, hl⟩ := hw.logged
  have hinbox : t.inbox = rs := hw.inbox
  refine ⟨fun r hr => hhost r (hrs (hinbox ▸ hr)), ?_⟩
  rw [hl.T, hw.cfg]
  exact onlyPanelCodes_append_stepEvents hes hT

end Sys2Proof.Machine
end

section
/-! One frame (R131, R132): its word, its four events, and what a failed transmission leaves of it (R243, R250). -/

namespace Sys2Proof.Machine

/-- An instruction that is a frame says so: the two ways a frame ends. -/
theorem frameSays_of_exec {i : Instr} {mode : Level} {v : Byte} (h : ∀ s, exec i s = (frame mode v s).outcome) :
    FrameSays i mode v := by
  intro s
  constructor
  · intro hok
    rw [h, frame_of_ok mode v hok]
    rfl
  · intro hfail
    rw [h, frame_of_fail mode v hfail]
    rfl

theorem not_mem_panelCodes {c : Cfg} {v : Byte} (h : v ∉ Script.codes c) : v ∉ c.panelCodes := by
  intro hv
  obtain ⟨p, -, rfl⟩ := List.mem_map.mp hv
  exact h (panelCode_mem c p)

/-- Settles O9: SendCommand is a frame with DC low, and a command frame word whose code no panel command has decodes to
it. -/
theorem sendCommandIsACommandFrame : Obligations.SendCommandIsACommandFrame := by
  refine ⟨fun v => frameSays_of_exec fun _ => rfl, fun c v hv => ?_⟩
  exact decode_commandFrame (second := false) (decodeCommand_raw (not_mem_panelCodes hv))

/-- Settles O10: SendData is a frame with DC high, and every data frame word decodes to it. -/
theorem sendDataIsADataFrame : Obligations.SendDataIsADataFrame :=
  ⟨fun _ => frameSays_of_exec fun _ => rfl, decode_dataFrame⟩

end Sys2Proof.Machine
end

section
/-! The trace stays well framed (R134): a step appends whole frames, quiet events and at most one broken frame, each
well framed by itself, and well-framed traces can be put one after the other. -/

namespace Sys2Proof.Machine

/-- A transmission of the whole stands in one of the parts, between the same neighbours. -/
theorem WellFramed.append {A B : List Event} (hA : WellFramed A) (hB : WellFramed B) : WellFramed (A ++ B) := by
  intro before v a after h
  obtain ⟨inB, rfl, hsplit⟩ | ⟨inA, hsplit, hrest⟩ := List.append_eq_append_iff.mp h
  · obtain ⟨⟨b, d, rfl⟩, hafter⟩ := hB _ _ _ _ hsplit
    exact ⟨⟨A ++ b, d, by simp⟩, hafter⟩
  cases inA with
  | nil =>
    obtain ⟨⟨b, d, hnil⟩, -⟩ := hB [] v a after hrest.symm
    simp at hnil
  | cons e inA =>
    cases hrest
    obtain ⟨hbefore, hafter⟩ := hA _ _ _ _ hsplit
    refine ⟨hbefore, fun hok => ?_⟩
    obtain ⟨after', rfl⟩ := hafter hok
    exact ⟨after' ++ B, rfl⟩

theorem wellFramed_quiet {e : Event} (he : e.isTransmit = false) : WellFramed [e] := by
  intro before v a after h
  have hmem : Event.transmit v a ∈ [e] := by simp [h]
  cases List.mem_singleton.mp hmem
  cases he

/-- The transmission of a frame, whole or broken, is its third event. -/
theorem wellFramed_frame (mode : Level) (v : Byte) {a : Answer} {rest : List Event}
    (hrest : ∀ e ∈ rest, e.isTransmit = false) (ha : a = .ok → ∃ after, rest = .setLine .cs .high :: after) :
    WellFramed (.setLine .dc mode :: .setLine .cs .low :: .transmit v a :: rest) := by
  intro before v' a' after h
  match before, h with
  | [_, _], h =>
    cases h
    exact ⟨⟨[], mode, rfl⟩, ha⟩
  | _ :: _ :: _ :: before, h =>
    have hmem : Event.transmit v' a' ∈ rest := by
      simp only [List.cons_append, List.cons.injEq] at h
      simp [h]
    cases hrest _ hmem

theorem Chunks.wellFramed {P : Byte → Prop} {es : List Event} (h : Chunks P es) : WellFramed es := by
  induction h with
  | nil => exact wellFramed_nil
  | frame mode v _ _ ih => exact (wellFramed_frame mode v (by simp [Event.isTransmit]) fun _ => ⟨[], rfl⟩).append ih
  | quiet e he _ _ ih => exact (wellFramed_quiet he).append ih

theorem Broken.wellFramed {P : Byte → Prop} {es : List Event} {code : ErrCode} (h : Broken P es code) :
    WellFramed es := by
  cases h with
  | frame mode v _ => exact wellFramed_frame mode v (by simp) nofun
  | bus => exact wellFramed_quiet rfl

theorem StepEvents.wellFramed {P : Byte → Prop} {es : List Event} (h : StepEvents P es) : WellFramed es := by
  obtain hes | ⟨fs, gs, code, hfs, hgs, rfl⟩ := h
  · exact hes.wellFramed
  · exact hfs.wellFramed.append hgs.wellFramed

/-- Settles O41: the events a step appends are well framed by themselves. -/
theorem stepKeepsTheTraceWellFramed : Obligations.StepKeepsTheTraceWellFramed := by
  intro s t hs h
  obtain ⟨rs, hw⟩ := step_went h
  obtain ⟨es, hes, hl⟩ := hw.logged
  rw [hl.T]
  exact WellFramed.append hs hes.wellFramed

end Sys2Proof.Machine
end

section
/-! What frames, panel commands, streams and waits may change (R131, R132, R141, R184, R186, R188, R250), given as a
function `put`: `put s u` is `s` with the fields that may change taken from `u`. The pieces fix the key
`(put · State.reset)`, which tells two states apart by all their other fields. -/

namespace Sys2Proof.Machine

/-! ### The fields that may change -/

/-- What frames change: the trace, DC, CS, the answers taken and the exception state. -/
def State.withFraming (s u : State) : State :=
  { s with trace := u.trace, dc := u.dc, cs := u.cs, link := u.link
           fatal := u.fatal, err := u.err, seq := u.seq, haltedAt := u.haltedAt }

/-- What streams change: also `k`. -/
def State.withStreaming (s u : State) : State := { s.withFraming u with k := u.k }

theorem withStreaming_pb (s u : State) : (s.withStreaming u).pb = s.pb := rfl

/-- What waits change: the trace, the answers, `polls` and the waiting mark. -/
def State.withPolling (s u : State) : State :=
  { s with trace := u.trace, busy := u.busy, polls := u.polls, waiting := u.waiting }

/-- What TurnOnDisplay changes: what frames and waits do. -/
def State.withFramingAndPolling (s u : State) : State := (s.withFraming u).withPolling u

theorem frames_fix_withFraming : FramesFix (State.withFraming · .reset) :=
  framesFix_of (fun _ _ => rfl) (fun _ _ => rfl) (fun _ _ => rfl) fun _ => rfl

theorem frames_fix_withStreaming : FramesFix (State.withStreaming · .reset) :=
  framesFix_of (fun _ _ => rfl) (fun _ _ => rfl) (fun _ _ => rfl) fun _ => rfl

theorem frames_fix_withFramingAndPolling : FramesFix (State.withFramingAndPolling · .reset) :=
  framesFix_of (fun _ _ => rfl) (fun _ _ => rfl) (fun _ _ => rfl) fun _ => rfl

theorem waits_fix_withPolling : WaitsFix (State.withPolling · .reset) :=
  ⟨fun _ => rfl, fun _ _ => rfl, fun _ _ => rfl, fun _ _ => rfl⟩

theorem waits_fix_withFramingAndPolling : WaitsFix (State.withFramingAndPolling · .reset) :=
  ⟨fun _ => rfl, fun _ _ => rfl, fun _ _ => rfl, fun _ _ => rfl⟩

/-! ### Instructions that are pieces -/

/-- The instruction is a piece that changes at most the fields `put` takes over. -/
def PieceWithin (put : State → State → State) (i : Instr) (s : State) : Prop :=
  ∃ x, exec i s = x.outcome ∧ Piece (fun _ => True) s x ∧ x.Fixes (put · .reset) s

/-- A piece that takes no exception leaves the exception state as it was. -/
theorem exceptionState_of_piece {P : Byte → Prop} {s t : State} {x : Flow} (hx : Piece P s x) (h : x.outcome = .next t)
    (hf : t.fatal = false) : t.err = s.err ∧ t.seq = s.seq ∧ t.haltedAt = s.haltedAt := by
  obtain ⟨t', ht', hends⟩ := sat_outcome hx
  cases ht'.symm.trans h
  obtain ⟨-, -, hseq, hhalted, -, herr, -⟩ | ⟨-, -, -, -, hfatal, -⟩ | ⟨-, -, hseq, hhalted, -, herr, -⟩ := hends
  · exact ⟨herr, hseq, hhalted⟩
  · simp [hf] at hfatal
  · exact ⟨herr, hseq, hhalted⟩

/-- The end state is the first one but for the fields taken over. -/
theorem PieceWithin.frame {put : State → State → State} {i : Instr} {s t : State} (hi : PieceWithin put i s)
    (hself : ∀ s, put s s = s) (hlast : ∀ s u v, put (put s u) v = put s v) (h : exec i s = .next t) :
    t = put s t ∧ (t.fatal = false → t.err = s.err ∧ t.seq = s.seq ∧ t.haltedAt = s.haltedAt) := by
  obtain ⟨x, hx, hpiece, hfix⟩ := hi
  rw [hx] at h
  have hkey : put t .reset = put s .reset := Fixes.outcome hfix h
  refine ⟨?_, exceptionState_of_piece hpiece h⟩
  calc t = put (put t .reset) t := by rw [hlast, hself]
    _ = put (put s .reset) t := by rw [hkey]
    _ = put s t := hlast s .reset t

theorem frame_within {i : Instr} {mode : Level} {v : Byte} {s : State} (h : exec i s = (frame mode v s).outcome) :
    PieceWithin State.withFraming i s :=
  ⟨_, h, frame_piece mode v s fun _ => trivial, frames_fix_withFraming mode v s⟩

theorem paramCommand_within {i : Instr} {p : PanelCommand} {s : State} (hp : hasParams p = true)
    (h : exec i s = (panelCommand p s).outcome) : PieceWithin State.withFraming i s :=
  ⟨_, h, panelCommand_piece p s trivial, paramCommand_fixes frames_fix_withFraming hp s⟩

theorem tableCommand_within {s : State} {i : Instr} {code : Byte} {bytes : List Byte}
    (h : (i, code, bytes) ∈ Script.commandTable s.cfg) : PieceWithin State.withFraming i s := by
  rw [commandTable_eq] at h
  obtain ⟨p, hp, h⟩ := List.mem_map.mp h
  cases h
  exact paramCommand_within (hasParams_of_mem p hp) (exec_panelInstr p s)

theorem streamFill_within (v : Byte) (s : State) : PieceWithin State.withStreaming (.streamFill v) s :=
  ⟨streamFill v s, rfl, streamFill_piece v s, streamFill_fixes frames_fix_withStreaming (fun _ _ => rfl) v s⟩

theorem streamPlane_within (f : PlaneXform) (s : State) : PieceWithin State.withStreaming (.streamPlane f) s :=
  ⟨streamPlane f s, rfl, streamPlane_piece f s, streamPlane_fixes frames_fix_withStreaming (fun _ _ => rfl) f s⟩

theorem panelCommand_within (p : PanelCommand) (s : State) : PieceWithin State.withStreaming p.instr s :=
  ⟨_, exec_panelInstr p s, panelCommand_piece p s trivial,
    panelCommand_fixes frames_fix_withStreaming (fun _ _ => rfl) p s⟩

theorem waitIdle_within (s : State) : PieceWithin State.withPolling .waitIdle s :=
  ⟨waitIdle s, rfl, waitIdle_piece s, waitIdle_fixes waits_fix_withPolling s⟩

theorem turnOnDisplay_within (s : State) : PieceWithin State.withFramingAndPolling .turnOnDisplay s :=
  ⟨turnOnDisplay s, rfl, turnOnDisplay_piece s trivial trivial,
    turnOnDisplay_fixes frames_fix_withFramingAndPolling waits_fix_withFramingAndPolling s⟩

/-- Settles O39: each instruction of the four groups is a piece within the fields of its group. -/
theorem framedInstructionsFrame : Obligations.FramedInstructionsFrame := by
  refine ⟨?frames, ?streams, ?waits, ?turnOn⟩
  case frames =>
    intro s t i h hi
    have hw : PieceWithin State.withFraming i s := by
      obtain ⟨v, rfl⟩ | ⟨v, rfl⟩ | rfl | ⟨code, bytes, hrow⟩ := hi
      · exact frame_within rfl
      · exact frame_within rfl
      · exact paramCommand_within rfl rfl
      · exact tableCommand_within hrow
    exact hw.frame (fun _ => rfl) (fun _ _ _ => rfl) h
  case streams =>
    intro s t i h hi
    have hw : PieceWithin State.withStreaming i s := by
      obtain ⟨v, rfl⟩ | ⟨f, rfl⟩ | ⟨u, rfl⟩ | ⟨u, rfl⟩ := hi
      · exact streamFill_within v s
      · exact streamPlane_within f s
      · exact panelCommand_within (.writeBlackPlane u) s
      · exact panelCommand_within (.writeRedPlane u) s
    obtain ⟨ht, hstate⟩ := hw.frame (fun _ => rfl) (fun _ _ _ => rfl) h
    have hpb : t.pb = s.pb := (congrArg State.pb ht).trans (withStreaming_pb s t)
    exact ⟨ht, fun a => by rw [hpb], hstate⟩
  case waits =>
    intro s t h
    obtain ⟨ht, -⟩ := (waitIdle_within s).frame (fun _ => rfl) (fun _ _ _ => rfl) h
    exact ht
  case turnOn =>
    intro s t h
    exact (turnOnDisplay_within s).frame (fun _ => rfl) (fun _ _ _ => rfl) h

end Sys2Proof.Machine
end

section
/-! The Busy-Wait Synchronizer (spec/41_busy_wait.md): how a WaitIdle ends when the panel releases BUSY (R141), and
that it never ends when the panel does not (R143, R248). -/

namespace Sys2Proof.Machine

theorem exec_waitIdle (s : State) : exec .waitIdle s = (waitIdle s).outcome := rfl

/-! ### A panel that releases BUSY -/

/-- Settles O14: the loop, held busy for `n` polls, ends with the next one, and starts to count at 0. -/
theorem waitIdlePollsUntilNotBusy : Obligations.WaitIdlePollsUntilNotBusy := by
  intro s n h
  rw [exec_waitIdle, waitIdle_of_release h]
  rfl

/-! ### A panel that never releases BUSY -/

theorem busyPolls_add (c : Cfg) (m n : Nat) :
    Script.busyPolls c (m + n) = Script.busyPolls c m ++ Script.busyPolls c n := by
  induction m with
  | zero => rw [Nat.zero_add]; rfl
  | succ m ih =>
    rw [Nat.succ_add]
    simp only [Script.busyPolls, ih, List.cons_append]

/-- `s` after `m` more polls that all read busy (R141, R143). -/
def State.polledBusy (s : State) (m : Nat) : State :=
  { s.performed (Script.busyPolls s.cfg m) with polls := s.polls + m }

@[simp] theorem polledBusy_zero (s : State) : s.polledBusy 0 = s := by
  simp [State.polledBusy, Script.busyPolls]

theorem polledBusy_polledBusy (s : State) (m n : Nat) : (s.polledBusy m).polledBusy n = s.polledBusy (m + n) := by
  simp [State.polledBusy, State.performed, busyPolls_add, Nat.add_assoc]

/-- After any polls the panel still reads busy for ever. -/
theorem busyForEver_polledBusy {s : State} (h : s.busyForEver) (m : Nat) : (s.polledBusy m).busyForEver := by
  intro n
  show (s.performed (Script.busyPolls s.cfg m)).busy.get n = s.cfg.busyActive
  rw [performed_busy, Oracle.get_skip]
  exact h _

/-- The polls of one step all read busy: every listed answer, then the lasting one. -/
theorem pollOn_of_busyForEver {s : State} (h : s.busyForEver) :
    pollOn s = .waits { s.polledBusy (s.busy.listed.length + 1) with waiting := true } :=
  pollLoop_of_busy _ s fun m _ => h m

/-- The counter `polls` starts at 0 (R141). -/
theorem waitIdle_of_busyForEver {s : State} (h : s.busyForEver) :
    waitIdle s = .waits { s.performed (Script.busyPolls s.cfg (s.busy.listed.length + 1)) with
      polls := s.busy.listed.length + 1, waiting := true } := by
  have h' : State.busyForEver { s with polls := 0 } := h
  rw [waitIdle, pollOn_of_busyForEver h']
  simp [State.polledBusy, State.performed]

/-- A suspended operation that is still held busy stays where it is: `waiting` stands already. -/
theorem resume_of_busyForEver {op : HostOp} {row : Nat} {s : State} (hseq : s.seq = .run op row)
    (hw : s.waiting = true) (h : s.busyForEver) : resume s = .waits (s.polledBusy (s.busy.listed.length + 1)) := by
  have hstay : { s.polledBusy (s.busy.listed.length + 1) with waiting := true } =
      s.polledBusy (s.busy.listed.length + 1) := by
    rw [← hw]
    rfl
  unfold resume
  simp only [hseq, hw, if_true, pollOn_of_busyForEver h, hstay]
  rfl

theorem step_of_busyForEver {op : HostOp} {row : Nat} {s : State} (hok : s.cfg.ok = true) (hseq : s.seq = .run op row)
    (hw : s.waiting = true) (h : s.busyForEver) : step s = .next (s.polledBusy (s.busy.listed.length + 1)) := by
  rw [step, if_pos hok, if_pos (by simp [State.running, hw]), resume_of_busyForEver hseq hw h]
  rfl

/-- Every step polls at least once, so `k` steps poll at least `k` times. -/
theorem run_of_busyForEver {op : HostOp} {row : Nat} : ∀ (k : Nat) (s : State), s.cfg.ok = true →
    s.seq = .run op row → s.waiting = true → s.busyForEver →
    ∃ m, k ≤ m ∧ Host.Core.run Sys2Proof.core k s = .next (s.polledBusy m)
  | 0, s, _, _, _, _ => ⟨0, Nat.le_refl 0, by rw [run_zero, polledBusy_zero]⟩
  | k + 1, s, hok, hseq, hw, h => by
    obtain ⟨m, hkm, hrun⟩ := run_of_busyForEver k (s.polledBusy (s.busy.listed.length + 1)) hok hseq hw
      (busyForEver_polledBusy h _)
    refine ⟨s.busy.listed.length + 1 + m, by omega, ?_⟩
    rw [run_succ k (step_of_busyForEver hok hseq hw h), hrun, polledBusy_polledBusy]

/-- Settles O15: one pass over the listed answers leaves WaitIdle still polling, and every further step is one more
pass. -/
theorem unresponsivePanelHangs : Obligations.UnresponsivePanelHangs := by
  refine ⟨fun s h => ⟨s.busy.listed.length + 1, by omega, ?_⟩, fun s op row hok hseq hw h k => ?_⟩
  · rw [exec_waitIdle, waitIdle_of_busyForEver h]
    rfl
  · exact run_of_busyForEver k s hok hseq hw h

end Sys2Proof.Machine
end

section
/-! Setup, Reset and Initialize on a transport that answers (spec/42_reset_init.md R151, R152, R156). -/

namespace Sys2Proof.Machine

/-! ### Reset -/

/-- Settles O13: the pulse is its six events, performed one after the other. -/
theorem resetPulsesTheLine : Obligations.ResetPulsesTheLine := by
  intro s
  show (Flow.done (resetPulse s)).outcome = _
  rw [resetPulse_eq_performed, Flow.done_outcome]
  rfl

/-! ### Setup -/

/-- Setup of a block whose bus was never opened (R244, R245). -/
theorem dispatch_setup_of_fresh {s : State} (hrun : s.running = false) (hseq : s.seq = .idle)
    (hopened : s.opened = false) (htorn : s.torn = false) (hphase : s.phase = .uninitialized) :
    dispatch .setup s = (runOp .setup s).outcome := by
  have hok : refusedHere .setup s = false := refusedHere_eq_false_iff.mpr ⟨htorn, by simp [hopened], by simp [hseq]⟩
  have hlegal : legalIn .setup s.phase = true := by simp [legalIn, hphase]
  rw [dispatch, if_neg (by simp [hrun]), if_neg (by simp [hok]), if_pos hlegal]

theorem runOp_setup_of_ok {s : State} (hseq : s.seq = .idle) (hfatal : s.fatal = false) (h : s.link.get 0 = .ok) :
    runOp .setup s = .done { s.performed [.openBus .ok] with opened := true } := by
  rw [runOp_setup, openBus_of_ok (s := setSeq (.run .setup 0) s) h, Flow.done_andThen]
  simp [endOp, setSeq, finish, State.performed, hseq, hfatal]

theorem runOp_setup_of_fail {s : State} (h : s.link.get 0 = .fail) :
    runOp .setup s = .trapped { s.performed [.openBus .fail] with
      fatal := true, err := .setupFailure, seq := .halted, haltedAt := some (.setup, 0) } := by
  rw [runOp_setup, openBus_of_fail (s := setSeq (.run .setup 0) s) h]
  rfl

/-- Settles O24: Setup is one `Open`, which the block takes or falls over; an open or torn block refuses it. -/
theorem setupOpensTheBus : Obligations.SetupOpensTheBus := by
  refine ⟨fun s hseq hwaiting hopened htorn hfatal hphase => ?_, fun s hrun hbus => ?_⟩
  · have hrun : s.running = false := running_eq_false_iff.mpr ⟨hwaiting, by simp [hseq]⟩
    have hexec : exec .setup s = (runOp .setup s).outcome :=
      dispatch_setup_of_fresh hrun hseq hopened htorn hphase
    refine ⟨fun hok => ?_, fun hfail => ?_⟩
    · rw [hexec, runOp_setup_of_ok hseq hfatal hok]
      rfl
    · rw [hexec, runOp_setup_of_fail hfail]
      rfl
  · have hno : refusedHere .setup s = true := by
      obtain h | h := hbus <;> simp [refusedHere, h]
    exact dispatch_of_refused hrun hno

/-! ### Initialize -/

/-- Rows 1 to 15. -/
theorem runRows_initPanel_one {s : State} {es : List Event} {ph : Phase} {po : Nat} {q : Seq} {n1 n2 n3 n13 : Nat}
    (hf : s.fatal = false) (h : s.linkOk (es.countP Event.asksLink + 40))
    (hb1 : s.holdsBusy (es.countP Event.isPoll) n1) (hb2 : s.holdsBusy (es.countP Event.isPoll + n1 + 1) n2)
    (hb3 : s.holdsBusy (es.countP Event.isPoll + n1 + n2 + 2) n3)
    (hb13 : s.holdsBusy (es.countP Event.isPoll + n1 + n2 + n3 + 3) n13) :
    runRows .initPanel 1 (initRows.drop 1) (s.at es ph po q) =
      .done (s.at (es ++ (Script.command 0x12 [] ++ Script.wait s.cfg n1) ++
        (Script.command s.cfg.cmdAw1 [s.cfg.aw1P] ++ Script.wait s.cfg n2) ++
        (Script.command s.cfg.cmdAw2 [s.cfg.aw2P] ++ Script.wait s.cfg n3) ++ Script.initSetup s.cfg n13)
        .initialized (n13 + 1) .idle) := by
  show runRows .initPanel 1 (commandWaitRow .swReset :: initRows.drop 2) _ = _
  rw [runRows_commandWait rfl (linkOk_mono h (by simp [panelParams])) hb1,
    runRows_initPanel_two hf (linkOk_mono h (by simp [List.countP_append, panelParams]))
      (by simpa [List.countP_append, Nat.add_assoc] using hb2)
      (by simpa [List.countP_append, Nat.add_assoc, Nat.add_left_comm, Nat.add_comm] using hb3)
      (by simpa [List.countP_append, Nat.add_assoc, Nat.add_left_comm, Nat.add_comm] using hb13)]
  rfl

/-- Row 0 sets the phase and pulses the reset line (R156). -/
theorem runOp_initPanel_after_reset {s : State} (hw : s.waiting = false) :
    runOp .initPanel s =
      runRows .initPanel 1 (initRows.drop 1) (s.at Script.reset .inReset s.polls (.run .initPanel 0)) := by
  show runRows .initPanel 0 (_ :: initRows.drop 1) s = _
  rw [runRows_cons_done rfl, resetPulse_eq_performed]
  simp [State.at, State.performed, setPhase, setSeq, hw]

theorem runOp_initPanel_of_ok {s : State} {n1 n2 n3 n13 : Nat} (hw : s.waiting = false) (hf : s.fatal = false)
    (h : s.linkOk 40) (hb1 : s.holdsBusy 0 n1) (hb2 : s.holdsBusy (n1 + 1) n2) (hb3 : s.holdsBusy (n1 + n2 + 2) n3)
    (hb13 : s.holdsBusy (n1 + n2 + n3 + 3) n13) :
    runOp .initPanel s = .done (s.at (Script.init s.cfg n1 n2 n3 n13) .initialized (n13 + 1) .idle) := by
  rw [runOp_initPanel_after_reset hw, runRows_initPanel_one hf (by simpa using h) (by simpa using hb1)
    (by simpa using hb2) (by simpa using hb3) (by simpa using hb13)]
  rfl

/-- Where an operation leaves a block that was ready for it. -/
theorem at_idle_of_ready {s : State} (h : s.ready) (es : List Event) (ph : Phase) (po : Nat) :
    s.at es ph po .idle = { s.performed es with phase := ph, polls := po } := by
  obtain ⟨hseq, hwaiting, -⟩ := h
  simp [State.at, State.performed, hseq, hwaiting]

/-- Initialize is legal in every phase (R245). -/
theorem exec_initPanel_of_ready {s : State} (h : s.ready) : exec .initPanel s = (runOp .initPanel s).outcome := by
  have hv : s.violationAfter .initPanel = s.violation := by simp [State.violationAfter, legalIn]
  show dispatch .initPanel s = _
  rw [dispatch_of_ready h (op := .initPanel) (by simp) (.inl rfl), hv]

/-- Settles O25: a ready block runs the sixteen rows, each on a transport that answers. -/
theorem initializeEmitsTheScript : Obligations.InitializeEmitsTheScript := by
  intro s n1 n2 n3 n13 hready hlink hb1 hb2 hb3 hb13
  obtain ⟨-, hwaiting, -, -, hfatal⟩ := id hready
  rw [exec_initPanel_of_ready hready, runOp_initPanel_of_ok hwaiting hfatal hlink hb1 hb2 hb3 hb13,
    at_idle_of_ready hready, Flow.done_outcome]

end Sys2Proof.Machine
end

section
/-! ClearDisplay, DisplayImage, Sleep and Teardown on a transport that answers and a panel that releases BUSY (R183,
R185, R190, R192). -/

namespace Sys2Proof.Machine

/-- With the stream index set in the base state, a block inside an operation is in the form of the rows that wait. -/
theorem mid_eq_at {s : State} (hw : s.waiting = false) (es : List Event) (k po : Nat) (q : Seq) :
    s.mid es k po q = State.at { s with k := k } es s.phase po q := by
  simp [State.mid, State.at, State.performed, hw]

/-- Row 0 of the two operations that draw: PrepareDraw (R181). -/
theorem runRows_prepareDraw_mid {s : State} {op : HostOp} {rs : List Row} (h : s.linkOk 3) :
    runRows op 0 ({ body := prepareDraw } :: rs) s =
      runRows op 1 rs (s.mid (Script.prepareDraw s.cfg) s.k s.polls (.run op 0)) :=
  runRows_cons_done (prepareDraw_of_ok (s := setSeq (.run op 0) s) h)

/-- Row 5 of the two operations that draw: TurnOnDisplay (R188), and the phase they record. -/
theorem runRows_turnOn_last {s : State} {es : List Event} {k po : Nat} {q : Seq} {op : HostOp} {m : Nat} {p : Phase}
    (hw : s.waiting = false) (hf : s.fatal = false) (h : s.linkOk (es.countP Event.asksLink + 3))
    (hb : s.holdsBusy (es.countP Event.isPoll) m) :
    runRows op 5 [{ body := turnOnDisplay, post := setPhase p }] (s.mid es k po q) =
      .done (State.at { s with k := k } (es ++ Script.turnOn s.cfg m) p (m + 1) .idle) := by
  rw [mid_eq_at hw, runRows_turnOn (s := { s with k := k }) h hb, runRows_nil,
    endOp_setPhase_at (s := { s with k := k }) hf]

theorem runOp_clear_of_ok {s : State} {n : Nat} (hw : s.waiting = false) (hf : s.fatal = false)
    (h : s.linkOk (2 * s.cfg.planeBytes + 8)) (hb : s.holdsBusy 0 n) :
    runOp .clear s =
      .done (State.at { s with k := s.cfg.planeBytes } (Script.clear s.cfg n) .cleared (n + 1) .idle) := by
  show runRows .clear 0 ({ body := prepareDraw } :: clearRows.drop 1) s = _
  rw [runRows_prepareDraw_mid (linkOk_mono h (by omega))]
  show runRows .clear 1 ({ body := sendCommand 0x24 } :: { body := streamFill 0xFF } ::
    { body := sendCommand 0x26 } :: { body := streamFill 0x00 } :: clearRows.drop 5) _ = _
  rw [runRows_commandFrame (linkOk_mono h (by simp)),
    runRows_fill (linkOk_mono h (by simp [List.countP_append]; omega)),
    runRows_commandFrame (linkOk_mono h (by simp [List.countP_append]; omega)),
    runRows_fill (linkOk_mono h (by simp [List.countP_append]; omega))]
  show runRows .clear 5 [{ body := turnOnDisplay, post := setPhase .cleared }] _ = _
  rw [runRows_turnOn_last hw hf (linkOk_mono h (by simp [List.countP_append]; omega))
    (by simpa [List.countP_append] using hb)]
  simp [Script.clear, Script.command]

theorem operandScript_black (c : Cfg) (b : Option Image) :
    operandScript 0x24 .identity c b = Script.black c b := by
  cases b with
  | none => rfl
  | some img => exact congrArg (Script.command 0x24) (map_sentByte_identity _)

theorem operandScript_red (c : Cfg) (r : Option Image) :
    operandScript 0x26 .complement c r = Script.red c r := by
  cases r <;> rfl

@[simp] theorem operandScript_asksLink (code : Byte) (f : PlaneXform) (c : Cfg) (img : Option Image) :
    (operandScript code f c img).countP Event.asksLink = Script.planeFrames c img := by
  cases img <;> simp [operandScript, Script.planeFrames, Script.plane]

@[simp] theorem operandScript_isPoll (code : Byte) (f : PlaneXform) (c : Cfg) (img : Option Image) :
    (operandScript code f c img).countP Event.isPoll = 0 := by
  cases img <;> simp [operandScript]

/-- What the conversion of an operand, if it is supplied, leaves of the block (R185, R219; the counters are log 13). -/
structure ConvertedOperand (img : Option Image) (s u : State) : Prop where
  frame : u = { s with
    acc := if img.isSome then 0 else s.acc, pb := u.pb, i := u.i, j := u.j, draws := s.draws + img.toList.length }
  plane : ∀ x, img = some x → ∀ a < s.cfg.planeBytes, u.pb.byteAt a = Script.planeByte s.cfg x a
  absent : img = none → u.pb = s.pb ∧ u.i = s.i ∧ u.j = s.j
  counters : img.isSome = true → u.i < s.cfg.width ∧ u.j < s.cfg.height

theorem ConvertedOperand.cfg {img : Option Image} {s u : State} (h : ConvertedOperand img s u) : u.cfg = s.cfg := by
  rw [h.frame]

theorem ConvertedOperand.link {img : Option Image} {s u : State} (h : ConvertedOperand img s u) : u.link = s.link := by
  rw [h.frame]

theorem ConvertedOperand.busy {img : Option Image} {s u : State} (h : ConvertedOperand img s u) : u.busy = s.busy := by
  rw [h.frame]

theorem ConvertedOperand.trace {img : Option Image} {s u : State} (h : ConvertedOperand img s u) :
    u.trace = s.trace := by
  rw [h.frame]

theorem ConvertedOperand.waiting {img : Option Image} {s u : State} (h : ConvertedOperand img s u) :
    u.waiting = s.waiting := by
  rw [h.frame]

theorem ConvertedOperand.fatal {img : Option Image} {s u : State} (h : ConvertedOperand img s u) :
    u.fatal = s.fatal := by
  rw [h.frame]

/-- The two rows of an operand (`runRows_operand`), with what they leave of the block. -/
theorem runRows_convertedOperand {s : State} {es : List Event} {k po : Nat} {q : Seq} {op : HostOp} {n : Nat}
    (code : Byte) (f : PlaneXform) (img : Option Image) (rs : List Row) (hg : s.cfg.geometryOk = true)
    (h : s.linkOk (es.countP Event.asksLink + Script.planeFrames s.cfg img)) :
    ∃ u, ConvertedOperand img s u ∧
      runRows op n ({ body := convertOperand img } :: { body := streamOperand code f img } :: rs) (s.mid es k po q) =
        runRows op (n + 2) rs (u.mid (es ++ operandScript code f s.cfg img)
          (if img.isSome then s.cfg.planeBytes else k) po (.run op (n + 1))) := by
  obtain ⟨u, hframe, hplane, habsent, hcounters, e⟩ := runRows_operand code f img rs hg h
  exact ⟨u, ⟨hframe, hplane, habsent, hcounters⟩, e⟩

theorem linkOk_congr {s u : State} {n : Nat} (h : u.link = s.link) : u.linkOk n ↔ s.linkOk n := by
  simp only [State.linkOk, h]

theorem holdsBusy_congr {s u : State} {a n : Nat} (h : u.busy = s.busy) (hc : u.cfg = s.cfg) :
    u.holdsBusy a n ↔ s.holdsBusy a n := by
  simp only [State.holdsBusy, h, hc]

theorem runOp_display_of_ok {s : State} {b r : Option Image} {n : Nat} (hg : s.cfg.geometryOk = true)
    (hw : s.waiting = false) (hf : s.fatal = false)
    (h : s.linkOk (6 + Script.planeFrames s.cfg b + Script.planeFrames s.cfg r)) (hb : s.holdsBusy 0 n) :
    ∃ u v, ConvertedOperand b s u ∧ ConvertedOperand r u v ∧
      runOp (.display b r) s = .done (State.at
        { v with k := if r.isSome then s.cfg.planeBytes else if b.isSome then s.cfg.planeBytes else s.k }
        (Script.display s.cfg b r n) .displaying (n + 1) .idle) := by
  show ∃ u v, _ ∧ _ ∧ runRows (.display b r) 0 ({ body := prepareDraw } :: (displayRows b r).drop 1) s = _
  obtain ⟨u, hu, e1⟩ := runRows_convertedOperand (s := s) (es := Script.prepareDraw s.cfg) (k := s.k) (po := s.polls)
    (q := .run (.display b r) 0) (op := .display b r) (n := 1) 0x24 .identity b ((displayRows b r).drop 3) hg
    (linkOk_mono h (by simp; omega))
  obtain ⟨v, hv, e2⟩ := runRows_convertedOperand (s := u)
    (es := Script.prepareDraw s.cfg ++ operandScript 0x24 .identity s.cfg b)
    (k := if b.isSome then s.cfg.planeBytes else s.k) (po := s.polls) (q := .run (.display b r) 2)
    (op := .display b r) (n := 3) 0x26 .complement r ((displayRows b r).drop 5) (by rwa [hu.cfg])
    ((linkOk_congr hu.link).mpr (linkOk_mono h (by simp [List.countP_append, hu.cfg])))
  have hc : v.cfg = s.cfg := hv.cfg.trans hu.cfg
  have hlink : v.linkOk (6 + Script.planeFrames s.cfg b + Script.planeFrames s.cfg r) :=
    (linkOk_congr (hv.link.trans hu.link)).mpr h
  have hbusy : v.holdsBusy 0 n := (holdsBusy_congr (hv.busy.trans hu.busy) hc).mpr hb
  refine ⟨u, v, hu, hv, ?_⟩
  rw [runRows_prepareDraw_mid (linkOk_mono h (by omega))]
  refine e1.trans (e2.trans ?_)
  show runRows (.display b r) 5 [{ body := turnOnDisplay, post := setPhase .displaying }] _ = _
  rw [hu.cfg, runRows_turnOn_last (hv.waiting.trans (hu.waiting.trans hw)) (hv.fatal.trans (hu.fatal.trans hf))
    (linkOk_mono hlink (by simp [List.countP_append]; omega)) (by simpa [List.countP_append] using hbusy),
    operandScript_black, operandScript_red, hc]
  rfl

theorem runOp_sleep_of_ok {s : State} (hw : s.waiting = false) (hf : s.fatal = false) (h : s.linkOk 2) :
    runOp .sleep s = .done (s.at (Script.sleep s.cfg) .sleeping s.polls .idle) := by
  have hbody : panelCommand .deepSleep (setSeq (.run .sleep 0) s) =
      .done (s.at (Script.sleep s.cfg) s.phase s.polls (.run .sleep 0)) := by
    rw [paramCommand_of_ok (s := setSeq (.run .sleep 0) s) (p := .deepSleep) rfl h]
    simp [State.at, State.performed, setSeq, hw, Script.sleep, panelParams, PanelCommand.code, Params.codeDeepSleep]
  show runRows .sleep 0 [{ body := panelCommand .deepSleep, post := setPhase .sleeping }] s = _
  rw [runRows_cons_done hbody, runRows_nil, endOp_setPhase_at hf]

/-- The rows of Teardown ask nobody (R192). -/
theorem runOp_teardown (s : State) :
    runOp .teardown s = .done (endOp (finish .teardown (setSeq (.run .teardown 2) (s.performed Script.teardown)))) :=
  rfl

end Sys2Proof.Machine
end

section
/-! What lists of events cost (R165, R193), and what one operation costs a ready block whose panel is never busy. -/

namespace Sys2Proof.Machine

/-! ### Costs add up -/

/-- The cost of events one after the other. -/
def Budget.plus (a b : Budget) : Budget :=
  ⟨a.ms + b.ms, a.commandFrames + b.commandFrames, a.dataFrames + b.dataFrames, a.polls + b.polls, a.events + b.events⟩

/-- What events cost whatever DC was before them: their transmissions each come after a mode line of their own. -/
structure Costs (es : List Event) (b : Budget) : Prop where
  ms : sleepMs es = b.ms
  commandFrames : ∀ now, transmissionsAt .low now es = b.commandFrames
  dataFrames : ∀ now, transmissionsAt .high now es = b.dataFrames
  polls : es.countP Event.isPoll = b.polls
  events : es.length = b.events

theorem sleepMs_append (es fs : List Event) : sleepMs (es ++ fs) = sleepMs es + sleepMs fs := by
  induction es with
  | nil => simp [sleepMs]
  | cons e es ih => cases e <;> simp [sleepMs, ih, Nat.add_assoc]

theorem transmissionsAt_append (mode : Level) (es fs : List Event) : ∀ now,
    transmissionsAt mode now (es ++ fs) =
      transmissionsAt mode now es + transmissionsAt mode (latchAfter .dc es now) fs := by
  induction es with
  | nil => intro now; simp [transmissionsAt, latchAfter]
  | cons e es ih =>
    intro now
    cases e with
    | setLine line l => cases line <;> simp [transmissionsAt, latchAfter, ih]
    | transmit v a => simp [transmissionsAt, latchAfter, ih, Nat.add_assoc]
    | _ => simp [transmissionsAt, latchAfter, ih]

theorem Costs.append {es fs : List Event} {a b : Budget} (h : Costs es a) (g : Costs fs b) :
    Costs (es ++ fs) (a.plus b) where
  ms := by rw [sleepMs_append, h.ms, g.ms]; rfl
  commandFrames now := by rw [transmissionsAt_append, h.commandFrames, g.commandFrames]; rfl
  dataFrames now := by rw [transmissionsAt_append, h.dataFrames, g.dataFrames]; rfl
  polls := by rw [List.countP_append, h.polls, g.polls]; rfl
  events := by rw [List.length_append, h.events, g.events]; rfl

theorem Costs.of_eq {es : List Event} {a b : Budget} (h : Costs es a) (e : a = b) : Costs es b := e ▸ h

theorem Costs.budget_eq {es : List Event} {b : Budget} (h : Costs es b) : budget es = b := by
  rw [budget, h.ms, h.commandFrames, h.dataFrames, h.polls, h.events]

/-! ### The scripts -/

theorem nil_costs : Costs [] ⟨0, 0, 0, 0, 0⟩ := ⟨rfl, fun _ => rfl, fun _ => rfl, rfl, rfl⟩

theorem command_frame_costs (v : Byte) : Costs (Script.C v) ⟨0, 1, 0, 0, 4⟩ :=
  ⟨rfl, fun _ => rfl, fun _ => rfl, rfl, rfl⟩

theorem data_frame_costs (v : Byte) : Costs (Script.D v) ⟨0, 0, 1, 0, 4⟩ :=
  ⟨rfl, fun _ => rfl, fun _ => rfl, rfl, rfl⟩

theorem data_costs (vs : List Byte) : Costs (Script.data vs) ⟨0, 0, vs.length, 0, 4 * vs.length⟩ := by
  induction vs with
  | nil => exact nil_costs
  | cons v vs ih =>
    exact ((data_frame_costs v).append ih).of_eq (by simp [Budget.plus, Nat.mul_add, Nat.add_comm])

theorem command_costs (code : Byte) (vs : List Byte) :
    Costs (Script.command code vs) ⟨0, 1, vs.length, 0, 4 + 4 * vs.length⟩ :=
  ((command_frame_costs code).append (data_costs vs)).of_eq (by simp [Budget.plus])

/-- A wait that is not held busy: one poll, and the settling time (R141). -/
theorem wait_costs (c : Cfg) : Costs (Script.wait c 0) ⟨200, 0, 0, 1, 2⟩ :=
  ⟨rfl, fun _ => rfl, fun _ => rfl, rfl, rfl⟩

theorem sleepFor_costs (ms : Nat) : Costs [.sleepFor ms] ⟨ms, 0, 0, 0, 1⟩ :=
  ⟨rfl, fun _ => rfl, fun _ => rfl, rfl, rfl⟩

theorem reset_costs : Costs Script.reset ⟨402, 0, 0, 0, 6⟩ := ⟨rfl, fun _ => rfl, fun _ => rfl, rfl, rfl⟩

theorem prepareDraw_costs (c : Cfg) : Costs (Script.prepareDraw c) ⟨0, 1, 2, 0, 12⟩ := command_costs _ _

theorem turnOn_costs (c : Cfg) : Costs (Script.turnOn c 0) ⟨400, 2, 1, 1, 15⟩ :=
  .of_eq ((((command_costs _ _).append (command_costs _ _)).append (sleepFor_costs 200)).append (wait_costs c)) rfl

theorem initEnd_costs (c : Cfg) : Costs (Script.initEnd c) ⟨0, 2, 4, 0, 24⟩ :=
  .of_eq ((command_costs _ _).append (prepareDraw_costs c)) rfl

/-- Rows 1 to 3 (R156): a command and a wait. -/
theorem commandWait_costs (c : Cfg) (code : Byte) (vs : List Byte) :
    Costs (Script.command code vs ++ Script.wait c 0) ⟨200, 1, vs.length, 1, 6 + 4 * vs.length⟩ :=
  .of_eq ((command_costs code vs).append (wait_costs c)) (by simp [Budget.plus]; omega)

/-- Rows 4 to 12 (R156): nine commands, one after the other. -/
theorem setupScript_costs (c : Cfg) : Costs (setupScript c) ⟨0, 9, 20, 0, 116⟩ := by
  unfold setupScript setupCommands
  simp only [List.flatMap_cons, List.flatMap_nil]
  exact .of_eq ((command_costs _ _).append <| (command_costs _ _).append <| (command_costs _ _).append <|
    (command_costs _ _).append <| (command_costs _ _).append <| (command_costs _ _).append <|
    (command_costs _ _).append <| (command_costs _ _).append <| (command_costs _ _).append nil_costs) rfl

/-- Rows 4 to 15 (R156). -/
theorem initSetup_costs (c : Cfg) : Costs (Script.initSetup c 0) ⟨200, 11, 24, 1, 142⟩ := by
  rw [initSetup_eq]
  exact .of_eq (((setupScript_costs c).append (wait_costs c)).append (initEnd_costs c)) rfl

theorem init_costs (c : Cfg) : Costs (Script.init c 0 0 0 0) ⟨1202, 14, 26, 4, 174⟩ :=
  .of_eq ((((reset_costs.append (commandWait_costs c _ _)).append (commandWait_costs c _ _)).append
    (commandWait_costs c _ _)).append (initSetup_costs c)) rfl

theorem clear_costs (c : Cfg) :
    Costs (Script.clear c 0) ⟨400, 5, 2 * c.planeBytes + 3, 1, 8 * c.planeBytes + 35⟩ := by
  refine .of_eq ((((prepareDraw_costs c).append (command_costs _ _)).append (command_costs _ _)).append
    (turnOn_costs c)) ?_
  simp only [Budget.plus, List.length_replicate, Budget.mk.injEq, true_and]
  omega

/-- The plane of an operand that may be absent. -/
theorem operandScript_costs (code : Byte) (f : PlaneXform) (c : Cfg) (img : Option Image) :
    Costs (operandScript code f c img) ⟨0, img.toList.length, img.toList.length * c.planeBytes, 0,
      4 * img.toList.length + 4 * (img.toList.length * c.planeBytes)⟩ := by
  cases img with
  | none => exact nil_costs.of_eq (by simp)
  | some img => exact .of_eq (command_costs _ _) (by simp [Script.plane])

theorem display_costs (c : Cfg) (b r : Option Image) :
    let n := b.toList.length + r.toList.length
    Costs (Script.display c b r 0) ⟨400, 3 + n, 3 + n * c.planeBytes, 1, 27 + 4 * n + 4 * (n * c.planeBytes)⟩ := by
  intro n
  have hblack := operandScript_costs 0x24 .identity c b
  have hred := operandScript_costs 0x26 .complement c r
  rw [operandScript_black] at hblack
  rw [operandScript_red] at hred
  refine .of_eq ((((prepareDraw_costs c).append hblack).append hred).append (turnOn_costs c)) ?_
  simp only [Budget.plus, Budget.mk.injEq, true_and, n, Nat.add_mul]
  omega

theorem sleep_costs (c : Cfg) : Costs (Script.sleep c) ⟨0, 1, 1, 0, 8⟩ := command_costs _ _

theorem teardown_costs : Costs Script.teardown ⟨0, 0, 0, 0, 5⟩ := ⟨rfl, fun _ => rfl, fun _ => rfl, rfl, rfl⟩

/-! ### Operations of a ready block -/

/-- The script of an operation that a panel which is never busy lets run through; Setup of an open bus is refused. -/
def promptScript (c : Cfg) : HostOp → List Event
  | .setup => []
  | .initPanel => Script.init c 0 0 0 0
  | .clear => Script.clear c 0
  | .display b r => Script.display c b r 0
  | .sleep => Script.sleep c
  | .teardown => Script.teardown

@[simp] theorem at_T (s : State) (es : List Event) (ph : Phase) (po : Nat) (q : Seq) :
    (s.at es ph po q).T = s.T ++ es :=
  performed_T s es

theorem T_of_trace {s u : State} (h : u.trace = s.trace) : u.T = s.T := by
  simp only [State.T, h]

/-- An operation that runs through performs its script. -/
theorem runOp_prompt {op : HostOp} {s : State} (hop : op ≠ .setup) (hg : s.cfg.geometryOk = true)
    (hw : s.waiting = false) (hf : s.fatal = false) (hlink : s.linkAlwaysOk) (hbusy : ∀ m < 4, s.holdsBusy m 0) :
    ∃ t, runOp op s = .done t ∧ t.T = s.T ++ promptScript s.cfg op := by
  have hl : ∀ n, s.linkOk n := fun n m _ => hlink m
  have hb0 : s.holdsBusy 0 0 := hbusy 0 (by omega)
  cases op with
  | setup => exact absurd rfl hop
  | initPanel =>
    exact ⟨_, runOp_initPanel_of_ok hw hf (hl _) hb0 (hbusy 1 (by omega)) (hbusy 2 (by omega)) (hbusy 3 (by omega)),
      at_T _ _ _ _ _⟩
  | clear => exact ⟨_, runOp_clear_of_ok hw hf (hl _) hb0, at_T _ _ _ _ _⟩
  | display b r =>
    obtain ⟨u, v, hu, hv, e⟩ := runOp_display_of_ok (b := b) (r := r) hg hw hf (hl _) hb0
    refine ⟨_, e, (at_T _ _ _ _ _).trans ?_⟩
    exact congrArg (· ++ Script.display s.cfg b r 0) (T_of_trace (hv.trace.trans hu.trace))
  | sleep => exact ⟨_, runOp_sleep_of_ok hw hf (hl _), at_T _ _ _ _ _⟩
  | teardown => exact ⟨_, runOp_teardown s, performed_T s _⟩

theorem dispatch_setup_of_ready {s : State} (h : s.ready) : dispatch .setup s = .next (recordErr .refused s) := by
  obtain ⟨hseq, hwaiting, hopened, -, -⟩ := h
  exact dispatch_of_refused (running_eq_false_iff.mpr ⟨hwaiting, by simp [hseq]⟩) (by simp [refusedHere, hopened])

theorem exec_prompt {op : HostOp} {s t : State} (hready : s.ready) (hg : s.cfg.geometryOk = true)
    (hmay : s.mayRun op) (hlink : s.linkAlwaysOk) (hbusy : ∀ m < 4, s.holdsBusy m 0)
    (h : exec (hostInstr op) s = .next t) : t.T = s.T ++ promptScript s.cfg op := by
  rw [exec_hostInstr] at h
  by_cases hop : op = .setup
  · subst hop
    rw [dispatch_setup_of_ready hready] at h
    cases h
    exact (List.append_nil _).symm
  · obtain ⟨-, hwaiting, -, -, hfatal⟩ := id hready
    obtain ⟨t', hrun, hT⟩ := runOp_prompt (s := { s with violation := s.violationAfter op }) hop hg hwaiting hfatal
      hlink hbusy
    rw [dispatch_of_ready hready hop hmay, hrun] at h
    cases h
    exact hT

/-- Settles O35: each operation performs its script, and the costs of its parts add up. -/
theorem budgetsPerOperation : Obligations.BudgetsPerOperation := by
  intro s t op hready hg hmay hlink hbusy h
  have hreleased : ∀ m < 4, s.holdsBusy m 0 := fun m hm => ⟨by simp, hbusy m hm⟩
  refine ⟨promptScript s.cfg op, exec_prompt hready hg hmay hlink hreleased h, ?_, ?_, ?_, ?_, ?_⟩
  · rintro rfl
    exact (init_costs s.cfg).budget_eq
  · rintro rfl
    exact (clear_costs s.cfg).budget_eq
  · rintro b r rfl
    exact (display_costs s.cfg b r).budget_eq
  · rintro rfl
    exact (sleep_costs s.cfg).budget_eq
  · rintro rfl
    exact teardown_costs.budget_eq

end Sys2Proof.Machine
end

section
/-! What host operations leave alone, however they end (spec/42_reset_init.md R151, R156; spec/43_render_ops.md R183,
R185, R190, R192; spec/60_exceptions.md R244, R245, R250). -/

namespace Sys2Proof.Machine

/-! ### Keys of the data -/

/-- `u` with the data of `s`: the configuration, the converter, the stream index and the plane buffer. -/
def State.withData (u s : State) : State :=
  { u with cfg := s.cfg, acc := s.acc, i := s.i, j := s.j, k := s.k, pb := s.pb, draws := s.draws }

/-- A key of the data alone: events, answers, exceptions, waits, the position, the phase and the flags do not move
it. -/
def DataKey {α : Type} (key : State → α) : Prop := ∀ u s : State, key (u.withData s) = key s

/-- The request supplies no image to convert. -/
def ConvertsNothing (op : HostOp) : Prop := (∀ b r, op ≠ .display b r) ∨ op = .display none none

section

variable {α : Type} {key : State → α}

theorem DataKey.eq_of_withData (h : DataKey key) {u s : State} (hu : u = u.withData s) : key u = key s :=
  (congrArg key hu).trans (h u s)

theorem DataKey.line (h : DataKey key) (ln : Line) (l : Level) (s : State) : key (driveLine ln l s) = key s := by
  cases ln with
  | rst => exact h.eq_of_withData rfl
  | dc => exact h.eq_of_withData rfl
  | cs => exact h.eq_of_withData rfl

theorem DataKey.frames (h : DataKey key) : FramesFix key :=
  framesFix_of (h.line .dc) (h.line .cs) (fun _ _ => h.eq_of_withData rfl) fun _ => h.eq_of_withData rfl

theorem DataKey.waits (h : DataKey key) : WaitsFix key :=
  ⟨fun _ => h.eq_of_withData rfl, fun _ _ => h.eq_of_withData rfl, fun _ _ => h.eq_of_withData rfl,
    fun _ _ => h.eq_of_withData rfl⟩

theorem DataKey.seq (h : DataKey key) (s : State) (q : Seq) : key (setSeq q s) = key s := h.eq_of_withData rfl

theorem DataKey.phase (h : DataKey key) (s : State) (p : Phase) : key (setPhase p s) = key s := h.eq_of_withData rfl

/-- What the dispatch of a request records itself is no data. -/
theorem DataKey.dispatch_eq (h : DataKey key) {op : HostOp} {s t : State} (hrun : ∀ s, (runOp op s).Fixes key s)
    (hd : dispatch op s = .next t) : key t = key s :=
  dispatch_fixes hrun (fun _ _ => h.eq_of_withData rfl) (fun _ _ => h.eq_of_withData rfl) hd

/-- DisplayImage with no operand converts and streams nothing (R185). -/
theorem emptyDisplayOp_fixes (h : DataKey key) (s : State) : (runOp (.display none none) s).Fixes key s := by
  have habsent : ∀ t : State, (Flow.done t).Fixes key t := fun _ => Fixes.done rfl
  refine runRows_fixes _ h.seq _ 0 s ?_
  simp only [rowsOf, displayRows, List.forall_mem_cons, List.not_mem_nil, false_implies, implies_true, and_true]
  exact ⟨⟨prepareDraw_fixes h.frames, fun _ => rfl⟩, ⟨habsent, fun _ => rfl⟩, ⟨habsent, fun _ => rfl⟩,
    ⟨habsent, fun _ => rfl⟩, ⟨habsent, fun _ => rfl⟩, turnOnDisplay_fixes h.frames h.waits, fun t => h.phase t _⟩

/-- Of the operations that convert nothing only ClearDisplay streams (R183). -/
theorem DataKey.runOp_fixes (h : DataKey key) {op : HostOp} (hop : ConvertsNothing op)
    (hk : op = .clear → ∀ s n, key { s with k := n } = key s) (s : State) : (runOp op s).Fixes key s := by
  cases op with
  | setup =>
    exact setupOp_fixes (openBus_fixes (fun _ _ => h.eq_of_withData rfl) fun _ _ => h.eq_of_withData rfl) h.seq
      (fun _ _ => h.eq_of_withData rfl) s
  | initPanel => exact initPanelOp_fixes h.frames h.waits h.seq h.phase (h.line .rst) s
  | clear => exact clearOp_fixes h.frames h.waits (hk rfl) h.seq h.phase s
  | display b r =>
    cases hop.resolve_left fun hno => hno b r rfl
    exact emptyDisplayOp_fixes h s
  | sleep => exact sleepOp_fixes h.frames h.seq h.phase s
  | teardown =>
    exact teardownOp_fixes (fun _ _ => h.eq_of_withData rfl) h.line h.seq (fun _ _ _ => h.eq_of_withData rfl) s

end

/-! ### The converter, the stream index and the plane buffer -/

/-- The converter and the plane buffer (R23, R24, R26). -/
def State.converter (s : State) : Byte × Nat × Nat × Nat × Memory := (s.acc, s.i, s.j, s.draws, s.pb)

/-- What the buffer holds at an index, if it is one outside the plane. -/
def State.byteOutside (a : Nat) (s : State) : Option Byte :=
  if s.cfg.planeBytes ≤ a then some (s.pb.byteAt a) else none

/-- A conversion writes inside the plane (R66, R218). -/
theorem converts_fix_byteOutside (a : Nat) : ConvertsFix (State.byteOutside a) where
  registers _ _ _ _ _ := rfl
  write s b v hb := by
    by_cases ha : s.cfg.planeBytes ≤ a
    · have hne : a ≠ b := by omega
      simp [State.byteOutside, ha, Memory.byteAt_write_other s.pb hne v]
    · simp [State.byteOutside, ha]

/-- No operation stores outside the plane; those but DisplayImage store nothing. -/
theorem runOp_fixes_byteOutside (op : HostOp) (a : Nat) (s : State) : (runOp op s).Fixes (State.byteOutside a) s := by
  have hdata : DataKey (State.byteOutside a) := fun _ _ => rfl
  have hk : ∀ (s : State) n, State.byteOutside a { s with k := n } = s.byteOutside a := fun _ _ => rfl
  cases op with
  | display b r =>
    exact displayOp_fixes hdata.frames hdata.waits hk (converts_fix_byteOutside a) hdata.seq hdata.phase b r s
  | _ => exact hdata.runOp_fixes (.inl (by simp)) (fun _ => hk) s

section

variable {op : HostOp} {s t : State}

theorem converter_of_dispatch (h : dispatch op s = .next t) (hop : ConvertsNothing op) :
    t.acc = s.acc ∧ t.i = s.i ∧ t.j = s.j ∧ t.draws = s.draws ∧ t.pb = s.pb := by
  have hdata : DataKey State.converter := fun _ _ => rfl
  have hkey := hdata.dispatch_eq (hdata.runOp_fixes hop fun _ _ _ => rfl) h
  simpa only [State.converter, Prod.mk.injEq] using hkey

theorem k_of_dispatch (h : dispatch op s = .next t) (hop : ConvertsNothing op) (hclear : op ≠ .clear) : t.k = s.k :=
  have hdata : DataKey State.k := fun _ _ => rfl
  hdata.dispatch_eq (hdata.runOp_fixes hop fun h => absurd h hclear) h

theorem byteAt_of_dispatch (h : dispatch op s = .next t) (hcfg : t.cfg = s.cfg) {a : Nat}
    (ha : s.cfg.planeBytes ≤ a) : t.pb.byteAt a = s.pb.byteAt a := by
  have hdata : DataKey (State.byteOutside a) := fun _ _ => rfl
  have hkey := hdata.dispatch_eq (runOp_fixes_byteOutside op a) h
  simpa [State.byteOutside, hcfg, ha] using hkey

end

/-! ### Lines, bus and waits -/

/-- Outside Initialize and Teardown no row drives RST (R152, R192). -/
theorem runOp_fixes_rst {op : HostOp} (hinit : op ≠ .initPanel) (htear : op ≠ .teardown) (s : State) :
    (runOp op s).Fixes State.rst s := by
  have hframes : FramesFix State.rst := framesFix_of (fun _ _ => rfl) (fun _ _ => rfl) (fun _ _ => rfl) fun _ => rfl
  have hwaits : WaitsFix State.rst := ⟨fun _ => rfl, fun _ _ => rfl, fun _ _ => rfl, fun _ _ => rfl⟩
  cases op with
  | setup => exact setupOp_fixes (openBus_fixes (fun _ _ => rfl) fun _ _ => rfl) (fun _ _ => rfl) (fun _ _ => rfl) s
  | initPanel => exact absurd rfl hinit
  | clear => exact clearOp_fixes hframes hwaits (fun _ _ => rfl) (fun _ _ => rfl) (fun _ _ => rfl) s
  | display b r =>
    exact displayOp_fixes hframes hwaits (fun _ _ => rfl) ⟨fun _ _ _ _ _ => rfl, fun _ _ _ _ => rfl⟩ (fun _ _ => rfl)
      (fun _ _ => rfl) b r s
  | sleep => exact sleepOp_fixes hframes (fun _ _ => rfl) (fun _ _ => rfl) s
  | teardown => exact absurd rfl htear

/-- What waits move beside the trace (R27, R32). -/
def State.polling (s : State) : Nat × Bool × Oracle Level := (s.polls, s.waiting, s.busy)

/-- Three operations have no WaitIdle in them (R151, R190, R192). -/
theorem runOp_fixes_polling {op : HostOp} (hop : op = .setup ∨ op = .sleep ∨ op = .teardown) (s : State) :
    (runOp op s).Fixes State.polling s := by
  obtain rfl | rfl | rfl := hop
  · exact setupOp_fixes (openBus_fixes (fun _ _ => rfl) fun _ _ => rfl) (fun _ _ => rfl) (fun _ _ => rfl) s
  · exact sleepOp_fixes (framesFix_of (fun _ _ => rfl) (fun _ _ => rfl) (fun _ _ => rfl) fun _ => rfl)
      (fun _ _ => rfl) (fun _ _ => rfl) s
  · exact teardownOp_fixes (fun _ _ => rfl) (fun ln _ _ => by cases ln <;> rfl) (fun _ _ => rfl) (fun _ _ _ => rfl) s

/-- What Setup leaves alone beside the data, RST and the waits (R151). -/
def State.besideSetup (s : State) : Latch × Latch × Bool := (s.dc, s.cs, s.torn)

/-- What Teardown leaves alone beside the data, the waits and the phase: it asks the transport nothing and cannot fail
(R192). -/
def State.besideTeardown (s : State) : Oracle Answer × Bool × Option (HostOp × Nat) := (s.link, s.fatal, s.haltedAt)

section

variable {op : HostOp} {s t : State}

theorem rst_of_dispatch (h : dispatch op s = .next t) (hinit : op ≠ .initPanel) (htear : op ≠ .teardown) :
    t.rst = s.rst :=
  dispatch_fixes (runOp_fixes_rst hinit htear) (fun _ _ => rfl) (fun _ _ => rfl) h

/-- Between Setup and Teardown no row touches the bus. -/
theorem bus_of_dispatch (h : dispatch op s = .next t) (hset : op ≠ .setup) (htear : op ≠ .teardown) :
    t.opened = s.opened ∧ t.torn = s.torn := by
  have hrun : ∀ s, (runOp op s).Fixes State.busUse s := fun s =>
    runRows_fixes op (fun _ _ => rfl) _ 0 s (rows_fix_busUse hset htear)
  have hkey := dispatch_fixes hrun (fun _ _ => rfl) (fun _ _ => rfl) h
  simp only [State.busUse, Prod.mk.injEq] at hkey
  obtain ⟨-, -, hopened, htorn⟩ := hkey
  exact ⟨hopened, htorn⟩

theorem polling_of_dispatch (h : dispatch op s = .next t) (hop : op = .setup ∨ op = .sleep ∨ op = .teardown) :
    t.polls = s.polls ∧ t.waiting = s.waiting ∧ t.busy = s.busy := by
  have hkey := dispatch_fixes (runOp_fixes_polling hop) (fun _ _ => rfl) (fun _ _ => rfl) h
  simpa only [State.polling, Prod.mk.injEq] using hkey

theorem kept_of_dispatch_setup (h : dispatch .setup s = .next t) : t.dc = s.dc ∧ t.cs = s.cs ∧ t.torn = s.torn := by
  have hrun : ∀ s, (runOp .setup s).Fixes State.besideSetup s :=
    setupOp_fixes (openBus_fixes (fun _ _ => rfl) fun _ _ => rfl) (fun _ _ => rfl) fun _ _ => rfl
  have hkey := dispatch_fixes hrun (fun _ _ => rfl) (fun _ _ => rfl) h
  simpa only [State.besideSetup, Prod.mk.injEq] using hkey

theorem kept_of_dispatch_teardown (h : dispatch .teardown s = .next t) :
    t.link = s.link ∧ t.fatal = s.fatal ∧ t.haltedAt = s.haltedAt := by
  have hrun : ∀ s, (runOp .teardown s).Fixes State.besideTeardown s :=
    teardownOp_fixes (fun _ _ => rfl) (fun ln _ _ => by cases ln <;> rfl) (fun _ _ => rfl) fun _ _ _ => rfl
  have hkey := dispatch_fixes hrun (fun _ _ => rfl) (fun _ _ => rfl) h
  simpa only [State.besideTeardown, Prod.mk.injEq] using hkey

end

/-! ### The phase, `violation` and the exception state -/

/-- The phase an operation records with its last row. -/
def phaseAtEnd : HostOp → Phase → Phase
  | .setup, p => p
  | .initPanel, _ => .initialized
  | .clear, _ => .cleared
  | .display _ _, _ => .displaying
  | .sleep, _ => .sleeping
  | .teardown, p => p

theorem finish_phase (op : HostOp) (s : State) : (finish op s).phase = phaseAtEnd op s.phase := by cases op <;> rfl

/-- The phase after a request: what it was, that of an Initialize under way, or what the operation records. -/
def PhaseAfter (op : HostOp) (p q : Phase) : Prop := q = p ∨ op = .initPanel ∧ q = .inReset ∨ q = phaseAtEnd op p

theorem Outcomes.phaseAfter {P : Byte → Prop} {op : HostOp} {s t : State} (h : Outcomes P op s t) :
    PhaseAfter op s.phase t.phase := by
  obtain ⟨u, hu, rfl⟩ | h | ⟨u, row, hu, -, rfl⟩ := h
  · have hend : (endOp (finish op u)).phase = phaseAtEnd op u.phase := finish_phase op u
    rw [hend]
    obtain hp | ⟨rfl, -⟩ := hu.phase
    · exact .inr (.inr (by rw [hp]))
    · exact .inr (.inr rfl)
  · exact h.phase.imp_right .inl
  · exact hu.phase.imp_right .inl

/-- An operation that takes no exception leaves the code and the position of the last one. -/
theorem Outcomes.exceptionState {P : Byte → Prop} {op : HostOp} {s t : State} (h : Outcomes P op s t)
    (hf : t.fatal = false) : t.haltedAt = s.haltedAt ∧ t.err = s.err := by
  obtain ⟨u, hu, rfl⟩ | h | ⟨u, row, hu, -, rfl⟩ := h
  · have hend : (endOp (finish op u)).haltedAt = u.haltedAt ∧ (endOp (finish op u)).err = u.err := by
      cases op <;> exact ⟨rfl, rfl⟩
    obtain ⟨hhalted, herr⟩ := hend
    exact ⟨hhalted.trans hu.haltedAt, herr.trans hu.err⟩
  · simp [h.fatal] at hf
  · exact ⟨hu.haltedAt, hu.err⟩

section

variable {op : HostOp} {s t : State}

theorem phase_of_dispatch (h : dispatch op s = .next t) : PhaseAfter op s.phase t.phase := by
  cases dispatch_inversion h with
  | notAccepted _ ht => exact .inl (by rw [ht])
  | refused ht => exact .inl (by rw [ht]; rfl)
  | stopped _ ht => exact .inl (by rw [ht]; rfl)
  | starts _ _ ho => exact (outcomes_of_runOp ho).phaseAfter

/-- A request raises `violation` only where its phase is not legal (R245). -/
theorem violation_of_dispatch (h : dispatch op s = .next t) :
    t.violation = s.violation ∨ legalIn op s.phase = false ∧ t.violation = true := by
  cases dispatch_inversion h with
  | notAccepted _ ht => exact .inl (by rw [ht])
  | refused ht => exact .inl (by rw [ht]; rfl)
  | stopped hl ht => exact .inr ⟨hl, by rw [ht]; rfl⟩
  | starts _ _ ho =>
    have hv : t.violation = s.violationAfter op := runOp_violation ho
    cases hl : legalIn op s.phase with
    | true => exact .inl (by simp [hv, State.violationAfter, hl])
    | false => exact .inr ⟨rfl, by simp [hv, State.violationAfter, hl]⟩

/-- Without an exception only the codes of R244 and R246 are recorded. -/
theorem exceptionState_of_dispatch (h : dispatch op s = .next t) (hf : t.fatal = false) :
    t.haltedAt = s.haltedAt ∧ (t.err = s.err ∨ t.err = .refused ∨ t.err = .sequenceViolation) := by
  cases dispatch_inversion h with
  | notAccepted _ ht => exact ht ▸ ⟨rfl, .inl rfl⟩
  | refused ht => exact ht ▸ ⟨rfl, .inr (.inl rfl)⟩
  | stopped _ ht => exact ht ▸ ⟨rfl, .inr (.inr rfl)⟩
  | starts _ _ ho => exact (outcomes_of_runOp ho).exceptionState hf |>.imp_right .inl

end

/-- Settles O40: a request that starts nothing records a code at most; of what an operation leaves alone each part is
fixed by all its rows, and the phase, the flags and the codes are those of its end. -/
theorem hostOperationsFrame : Obligations.HostOperationsFrame := by
  intro op s t h
  have hwent := (execCases_of_exec h).went
  rw [exec_hostInstr] at h
  have hphase := phase_of_dispatch h
  refine ⟨hwent.cfg, hwent.inbox, ?converter, fun a ha => byteAt_of_dispatch h hwent.cfg ha, k_of_dispatch h,
    bus_of_dispatch h, ?setupTorn, rst_of_dispatch h, ?setupLines, polling_of_dispatch h, ?busPhase, ?initPhase,
    ?clearPhase, ?displayPhase, ?sleepPhase, ?teardown, violation_of_dispatch h, hwent.fatal,
    fun hf => (exceptionState_of_dispatch h hf).1, fun hf => (exceptionState_of_dispatch h hf).2⟩
  case converter =>
    intro hop
    obtain ⟨hacc, hi, hj, hdraws, hpb⟩ := converter_of_dispatch h hop
    exact ⟨hacc, hi, hj, hdraws, hpb, fun a => by rw [hpb]⟩
  case setupTorn =>
    rintro rfl
    obtain ⟨-, -, htorn⟩ := kept_of_dispatch_setup h
    exact htorn
  case setupLines =>
    rintro rfl
    obtain ⟨hdc, hcs, -⟩ := kept_of_dispatch_setup h
    exact ⟨hdc, hcs⟩
  case busPhase =>
    rintro (rfl | rfl)
    · simpa [PhaseAfter, phaseAtEnd] using hphase
    · simpa [PhaseAfter, phaseAtEnd] using hphase
  case initPhase =>
    rintro rfl
    simpa [PhaseAfter, phaseAtEnd] using hphase
  case clearPhase =>
    rintro rfl
    simpa [PhaseAfter, phaseAtEnd] using hphase
  case displayPhase =>
    rintro b r rfl
    simpa [PhaseAfter, phaseAtEnd] using hphase
  case sleepPhase =>
    rintro rfl
    simpa [PhaseAfter, phaseAtEnd] using hphase
  case teardown =>
    rintro rfl
    exact kept_of_dispatch_teardown h

end Sys2Proof.Machine
end

section
/-! The micro-operations of the render path, end to end: PrepareDraw, StreamFill, StreamPlane, TurnOnDisplay
(R181, R184, R186, R188). -/

namespace Sys2Proof.Machine

/-- Settles O16: PrepareDraw is one panel command with two parameter bytes. -/
theorem prepareDrawSetsTheCounter : Obligations.PrepareDrawSetsTheCounter := by
  intro s hlink
  show (prepareDraw s).outcome = _
  rw [prepareDraw_of_ok hlink, Flow.done_outcome]

/-- Settles O17: the loop sends the constant at every turn, up to the end or to the first failed frame. -/
theorem streamFillSendsTheByte : Obligations.StreamFillSendsTheByte := by
  intro s v
  show (_ → (streamFill v s).outcome = _) ∧ ∀ k < _, _ → _ → (streamFill v s).outcome = _
  refine ⟨fun hlink => ?_, fun k hk hlink hfail => ?_⟩
  · rw [streamFill_of_ok v hlink, Flow.done_outcome]
  · rw [streamFill_of_fail v hk hlink hfail]
    rfl

/-- Settles O18: the loop sends byte `a` of the buffer at turn `a`, up to the end or to the first failed frame. -/
theorem streamPlaneSendsTheBuffer : Obligations.StreamPlaneSendsTheBuffer := by
  intro s f
  show (_ → (streamPlane f s).outcome = _) ∧ ∀ k < _, _ → _ → (streamPlane f s).outcome = _
  refine ⟨fun hlink => ?_, fun k hk hlink hfail => ?_⟩
  · rw [streamPlane_of_ok f hlink, Flow.done_outcome]
  · rw [streamPlane_of_fail f hk hlink hfail]
    rfl

/-- Settles O19: two panel commands, the activation time, and a WaitIdle that the panel releases. -/
theorem turnOnDisplayActivatesAndWaits : Obligations.TurnOnDisplayActivatesAndWaits := by
  intro s n hlink hbusy
  show (turnOnDisplay s).outcome = _
  rw [turnOnDisplay_of_ok hlink hbusy, Flow.done_outcome]

end Sys2Proof.Machine
end

section
/-! ClearDisplay, DisplayImage, Sleep and Teardown as requests of the host (R183, R185, R190, R192): the checks of R249
let them start, and the run of their rows gives the state they leave. -/

namespace Sys2Proof.Machine

/-- A ready block runs a request that it may run, with the violation already recorded (R246, R249). -/
theorem exec_of_ready {s t : State} {op : HostOp} (h : s.ready) (hop : op ≠ .setup) (hm : s.mayRun op)
    (hrun : runOp op { s with violation := s.violationAfter op } = .done t) : exec (hostInstr op) s = .next t := by
  rw [exec_hostInstr, dispatch_of_ready h hop hm, hrun, Flow.done_outcome]

/-- Settles O26: a ready block runs the six rows, and the stream index counts the bytes of the second fill. -/
theorem clearFillsBothPlanes : Obligations.ClearFillsBothPlanes := by
  intro s n hready hmay hlink hbusy
  obtain ⟨-, hwaiting, -, -, hfatal⟩ := id hready
  have hrun := runOp_clear_of_ok (s := { s with violation := s.violationAfter .clear }) hwaiting hfatal hlink hbusy
  have hend := at_idle_of_ready (s := { s with violation := s.violationAfter .clear, k := s.cfg.planeBytes }) hready
    (Script.clear s.cfg n) .cleared (n + 1)
  exact (exec_of_ready hready (op := .clear) (by simp) hmay hrun).trans (congrArg _ hend)

/-- Settles O28: a ready block runs the one row, whose command the transport takes. -/
theorem sleepSendsDeepSleep : Obligations.SleepSendsDeepSleep := by
  intro s hready hmay hlink
  obtain ⟨-, hwaiting, -, -, hfatal⟩ := id hready
  have hrun := runOp_sleep_of_ok (s := { s with violation := s.violationAfter .sleep }) hwaiting hfatal hlink
  have hend := at_idle_of_ready (s := { s with violation := s.violationAfter .sleep }) hready (Script.sleep s.cfg)
    .sleeping s.polls
  exact (exec_of_ready hready (op := .sleep) (by simp) hmay hrun).trans (congrArg _ hend)

/-- A conversion does not touch what makes a block ready. -/
theorem ConvertedOperand.ready {img : Option Image} {s u : State} (h : ConvertedOperand img s u) (hs : s.ready) :
    u.ready := by
  rw [h.frame]
  exact hs

/-- What the red operand sets, else the black one, is what either of them sets. -/
theorem ite_red_ite_black {α : Type} (b r : Option Image) (x y : α) :
    (if r.isSome then x else if b.isSome then x else y) = if b.isSome || r.isSome then x else y := by
  cases b <;> cases r <;> rfl

/-- What the conversions of both operands, the black one first, leave of the block. -/
theorem ConvertedOperand.frame_trans {b r : Option Image} {s u v : State} (hb : ConvertedOperand b s u)
    (hr : ConvertedOperand r u v) :
    v = { s with
      acc := if b.isSome || r.isSome then 0 else s.acc, pb := v.pb, i := v.i, j := v.j
      draws := s.draws + b.toList.length + r.toList.length } := by
  have hv := hr.frame
  rw [hb.frame] at hv
  rw [← ite_red_ite_black]
  exact hv

/-- An operand that is supplied leaves the counters in their ranges, whatever the operand after it does. -/
theorem ConvertedOperand.counters_trans {b r : Option Image} {s u v : State} (hb : ConvertedOperand b s u)
    (hr : ConvertedOperand r u v) (h : b.isSome = true ∨ r.isSome = true) :
    v.i < s.cfg.width ∧ v.j < s.cfg.height := by
  cases r with
  | some img =>
    rw [← hb.cfg]
    exact hr.counters rfl
  | none =>
    obtain ⟨-, hi, hj⟩ := hr.absent rfl
    rw [hi, hj]
    exact hb.counters (by simpa using h)

/-- Settles O27: a ready block runs the six rows; each operand that is supplied overwrites the plane, one that is not
leaves what the other left. -/
theorem displaySendsTheConvertedPlanes : Obligations.DisplaySendsTheConvertedPlanes := by
  intro s b r n hready hgeometry hmay hlink hbusy
  obtain ⟨-, hwaiting, -, -, hfatal⟩ := id hready
  obtain ⟨u, v, hb, hr, hrun⟩ := runOp_display_of_ok (s := { s with violation := s.violationAfter (.display b r) })
    hgeometry hwaiting hfatal hlink hbusy
  have hcounters := hb.counters_trans hr
  refine ⟨_, exec_of_ready hready (op := .display b r) (by simp) hmay hrun, ?state, ?redPlane, ?blackPlane, ?absent,
    hcounters⟩
  case state =>
    have hv : v.ready := hr.ready (hb.ready hready)
    rw [ite_red_ite_black]
    refine (at_idle_of_ready (s := { v with k := if b.isSome || r.isSome then s.cfg.planeBytes else s.k }) hv
      (Script.display s.cfg b r n) .displaying (n + 1)).trans ?_
    rw [hb.frame_trans hr]
    rfl
  case redPlane =>
    intro img himg a ha
    exact (hr.plane img himg a (by rwa [hb.cfg])).trans (by rw [hb.cfg])
  case blackPlane =>
    intro img hnone himg a ha
    obtain ⟨hpb, -, -⟩ := hr.absent hnone
    show v.pb.byteAt a = _
    rw [hpb]
    exact hb.plane img himg a ha
  case absent =>
    intro hbnone hrnone
    obtain ⟨hpb, hi, hj⟩ := hb.absent hbnone
    obtain ⟨hpb', hi', hj'⟩ := hr.absent hrnone
    exact ⟨hpb'.trans hpb, hi'.trans hi, hj'.trans hj⟩

/-- Teardown leaves a block that was between operations where it was, idle or halted (R150, R251). -/
theorem runOp_teardown_of_settled {s : State} (hseq : s.seq = if s.fatal then .halted else .idle) :
    runOp .teardown s = .done { s.performed Script.teardown with opened := false, torn := true } := by
  rw [runOp_teardown]
  show Flow.done { s.performed Script.teardown with
    opened := false, torn := true, seq := if s.fatal then .halted else .idle } = _
  rw [← hseq]
  rfl

/-- Settles O29: the checks let a block with an open bus close it, halted or not, and the three rows ask nobody. -/
theorem teardownReleasesTheLines : Obligations.TeardownReleasesTheLines := by
  intro s hwaiting hopened htorn hstate
  have hseq : s.seq = if s.fatal then .halted else .idle := by
    obtain ⟨hidle, hfatal⟩ | ⟨hhalted, hfatal⟩ := hstate
    · simp [hidle, hfatal]
    · simp [hhalted, hfatal]
  have hrun : s.running = false := running_eq_false_iff.mpr ⟨hwaiting, by cases hf : s.fatal <;> simp [hseq, hf]⟩
  have hok : refusedHere .teardown s = false := refusedHere_eq_false_iff.mpr ⟨htorn, by simp [hopened], by simp⟩
  have hlegal : legalIn .teardown s.phase = true := rfl
  show dispatch .teardown s = _
  rw [dispatch, if_neg (by simp [hrun]), if_neg (by simp [hok]), if_pos hlegal, runOp_teardown_of_settled hseq]
  rfl

end Sys2Proof.Machine
end

section
/-! Convert as an instruction: the bytes it leaves in the plane and their lanes (R211, R216, R220, R221, R226), and the
default classifier (R213, R214). -/

namespace Sys2Proof.Machine

/-! ### What Convert leaves -/

/-- Settles O20: the two loops store the closed form, byte by byte. -/
theorem convertFillsThePlane : Obligations.ConvertFillsThePlane := by
  intro s img hgeometry
  obtain ⟨t, hrun, hleft⟩ := convert_done img hgeometry
  refine ⟨t, ?_, hleft⟩
  show (convert img s).outcome = _
  rw [hrun, Flow.done_outcome]

/-- Every byte that a Convert leaves in the plane is the closed form (R219, R220). -/
theorem byteAt_of_exec_convert {s t : State} {img : Image} (hgeometry : s.cfg.geometryOk = true)
    (h : exec (.convert img) s = .next t) {a : Nat} (ha : a < s.cfg.planeBytes) :
    t.pb.byteAt a = Script.planeByte s.cfg img a := by
  obtain ⟨u, hu, hplane, -⟩ := convertFillsThePlane s img hgeometry
  obtain rfl : t = u := by simpa [h] using hu
  exact hplane a ha

/-! ### The lanes of a byte -/

/-- The fill mask of column `m` of a group has the lanes of the columns from `m` on (R215). -/
theorem getLsbD_fillMask {m n : Nat} (hm : m < 8) (hn : n < 8) : (fillMask m).getLsbD (7 - n) = true ↔ m ≤ n := by
  have hones : (0xFF : Byte) = BitVec.allOnes 8 := rfl
  rw [fillMask, hones, BitVec.getLsbD_ushiftRight, BitVec.getLsbD_allOnes, decide_eq_true_iff]
  omega

/-- After `k` columns, lane `7 - n` of the accumulator is set iff one of them up to column `n` is White (R216). -/
theorem getLsbD_partialByte (w : Nat → Bool) {n k : Nat} (hn : n < 8) (hk : k ≤ 8) :
    (partialByte w k).getLsbD (7 - n) = true ↔ ∃ m < k, m ≤ n ∧ w m = true := by
  induction k with
  | zero => simp [partialByte]
  | succ k ih =>
    rw [partialByte, Nat.exists_lt_succ_right, ← ih (by omega)]
    split
    · next hw => simp [getLsbD_fillMask hk hn, hw]
    · next hw => simp [hw]

/-- Lane `7 - n` of a group's byte is set iff a column up to `n` is White (R226). -/
theorem getLsbD_groupByte (c : Cfg) (img : Image) (g j : Nat) {n : Nat} (hn : n < 8) :
    (Script.groupByte c img g j).getLsbD (7 - n) = true ↔ ∃ m ≤ n, pixelClass c img (8 * g + m) j = .white := by
  rw [groupByte_eq_runByte, ← partialByte_eight, getLsbD_partialByte _ hn le_rfl]
  simp only [Script.isWhite, decide_eq_true_iff]
  constructor
  · rintro ⟨m, -, hmn, hwhite⟩
    exact ⟨m, hmn, hwhite⟩
  · rintro ⟨m, hmn, hwhite⟩
    exact ⟨m, by omega, hmn, hwhite⟩

/-- The eight columns of a group are on the panel (R60). -/
theorem column_lt_width {c : Cfg} (hgeometry : c.geometryOk = true) {g m : Nat} (hg : g < c.stride) (hm : m < 8) :
    8 * g + m < c.width := by
  obtain ⟨hwidth, -, -⟩ := width_eq hgeometry
  omega

/-- The byte of a group is the byte of its first column (R60, R218). -/
theorem groupIndex_lt_planeBytes {c : Cfg} (hgeometry : c.geometryOk = true) {g j : Nat} (hg : g < c.stride)
    (hj : j < c.height) : g + j * c.stride < c.planeBytes := by
  have hfirst := planeIndex_lt (column_lt_width hgeometry hg (m := 0) (by omega)) hj
  rwa [planeIndex, Nat.add_zero, Nat.mul_div_cancel_left _ (by omega)] at hfirst

/-- Settles O21: the stored byte is the group's closed form, whose lanes are those of the accumulator after eight
columns. -/
theorem convertedLanesArePrefixOrs : Obligations.ConvertedLanesArePrefixOrs := by
  intro s t img g j n hgeometry h hg hj hn
  rw [byteAt_of_exec_convert hgeometry h (groupIndex_lt_planeBytes hgeometry hg hj), planeByte_at img hg]
  exact getLsbD_groupByte _ img g j hn

/-! ### Planes of one colour -/

/-- A group whose first column is White is White throughout (R220). -/
theorem groupByte_of_first_white {c : Cfg} {img : Image} {g j : Nat} (h : pixelClass c img (8 * g) j = .white) :
    Script.groupByte c img g j = 0xFF := by
  have hfind : (List.range 8).find? (Script.isWhite c img g j) = some 0 := by
    rw [List.range_succ_eq_map, List.find?_cons_of_pos (by simpa [Script.isWhite] using h)]
  rw [Script.groupByte, hfind]
  rfl

theorem groupByte_of_black {c : Cfg} {img : Image} {g j : Nat}
    (h : ∀ m < 8, pixelClass c img (8 * g + m) j = .black) : Script.groupByte c img g j = 0x00 := by
  have hfind : (List.range 8).find? (Script.isWhite c img g j) = none := by
    rw [List.find?_eq_none]
    intro m hm
    simp [Script.isWhite, h m (List.mem_range.mp hm)]
  rw [Script.groupByte, hfind]

/-- A byte of the plane belongs to a group of a row of the panel (R60). -/
theorem group_of_lt_planeBytes {c : Cfg} {a : Nat} (ha : a < c.planeBytes) :
    a % c.stride < c.stride ∧ a / c.stride < c.height := by
  have hstride : 0 < c.stride := Nat.pos_of_mul_pos_right (Nat.zero_lt_of_lt ha)
  exact ⟨Nat.mod_lt _ hstride, Nat.div_lt_of_lt_mul ha⟩

theorem planeByte_of_white {c : Cfg} {img : Image} (hgeometry : c.geometryOk = true)
    (h : ∀ i < c.width, ∀ j < c.height, pixelClass c img i j = .white) {a : Nat} (ha : a < c.planeBytes) :
    Script.planeByte c img a = 0xFF := by
  obtain ⟨hg, hj⟩ := group_of_lt_planeBytes ha
  exact groupByte_of_first_white (h _ (column_lt_width hgeometry hg (m := 0) (by omega)) _ hj)

theorem planeByte_of_black {c : Cfg} {img : Image} (hgeometry : c.geometryOk = true)
    (h : ∀ i < c.width, ∀ j < c.height, pixelClass c img i j = .black) {a : Nat} (ha : a < c.planeBytes) :
    Script.planeByte c img a = 0x00 := by
  obtain ⟨hg, hj⟩ := group_of_lt_planeBytes ha
  exact groupByte_of_black fun m hm => h _ (column_lt_width hgeometry hg hm) _ hj

/-- A position outside the image is White (R211). -/
theorem pixelClass_eq_white {c : Cfg} {img : Image} {i j : Nat}
    (h : imgIn img i j = true → c.classifier.classify (imgPx img i j) = .white) : pixelClass c img i j = .white := by
  unfold pixelClass
  split
  · next hin => exact h hin
  · rfl

/-- An image beyond an edge of the panel, or an empty one, has no position on it (R63, R64). -/
theorem imgIn_eq_false_of_outside {c : Cfg} {img : Image}
    (h : img.x1 ≤ 0 ∨ img.y1 ≤ 0 ∨ (c.width : Int) ≤ img.x0 ∨ (c.height : Int) ≤ img.y0 ∨ img.x1 ≤ img.x0 ∨
      img.y1 ≤ img.y0) {i j : Nat} (hi : i < c.width) (hj : j < c.height) : imgIn img i j = false := by
  by_contra hin
  simp only [imgIn, Image.contains, Bool.not_eq_false, Bool.and_eq_true, decide_eq_true_eq] at hin
  omega

/-- Settles O22: the three cases fix the class of every position of the panel; the first two make it White. -/
theorem uniformImagesConvertUniformly : Obligations.UniformImagesConvertUniformly := by
  intro s t img hgeometry h
  refine ⟨fun hwhite a ha => ?white, fun houtside a ha => ?outside, fun hblack a ha => ?black⟩ <;>
    rw [byteAt_of_exec_convert hgeometry h ha]
  case white => exact planeByte_of_white hgeometry (fun i hi j hj => pixelClass_eq_white (hwhite i hi j hj)) ha
  case outside =>
    refine planeByte_of_white hgeometry (fun i hi j hj => pixelClass_eq_white fun hin => ?_) ha
    exact absurd hin (by simp [imgIn_eq_false_of_outside houtside hi hj])
  case black =>
    refine planeByte_of_black hgeometry (fun i hi j hj => ?_) ha
    obtain ⟨hin, hclass⟩ := hblack i hi j hj
    rw [pixelClass, if_pos hin, hclass]

/-! ### The default classifier -/

theorem classify_nearest_eq_white_iff {p : Colour} :
    Classifier.nearest.classify p = .white ↔ p.distWhite < p.distBlack := by
  simp [Classifier.classify]

theorem classify_nearest_eq_black_iff {p : Colour} :
    Classifier.nearest.classify p = .black ↔ p.distBlack ≤ p.distWhite := by
  simp [Classifier.classify]

/-- Along one axis the two squared distances differ by a linear function of the coordinate. -/
theorem sub_sq_add_mul {x : Nat} (hx : x ≤ 255) : (255 - x) ^ 2 + 510 * x = x ^ 2 + 65025 := by
  obtain ⟨y, hy⟩ := Nat.exists_eq_add_of_le hx
  rw [hy, Nat.add_sub_cancel_left]
  have hsum : 510 * x = 2 * (x + y) * x := by rw [← hy]
  have hsq : 65025 = (x + y) ^ 2 := by rw [← hy]; rfl
  rw [hsum, hsq]
  ring

/-- The two distances of a colour differ by a linear function of its byte sum: 510 times 382.5 is 195075. -/
theorem distWhite_add_mul_sum (p : Colour) :
    p.distWhite + 510 * (p.r.toNat + p.g.toNat + p.b.toNat) = p.distBlack + 195075 := by
  have hr := sub_sq_add_mul (x := p.r.toNat) (by omega)
  have hg := sub_sq_add_mul (x := p.g.toNat) (by omega)
  have hb := sub_sq_add_mul (x := p.b.toNat) (by omega)
  unfold Colour.distWhite Colour.distBlack
  omega

/-- White is what the byte sum puts above 382.5. -/
theorem classify_nearest_eq_white_iff_sum {p : Colour} :
    Classifier.nearest.classify p = .white ↔ 383 ≤ p.r.toNat + p.g.toNat + p.b.toNat := by
  have hlinear := distWhite_add_mul_sum p
  rw [classify_nearest_eq_white_iff]
  omega

theorem classify_nearest_eq_black_iff_sum {p : Colour} :
    Classifier.nearest.classify p = .black ↔ p.r.toNat + p.g.toNat + p.b.toNat ≤ 382 := by
  have hlinear := distWhite_add_mul_sum p
  rw [classify_nearest_eq_black_iff]
  omega

/-- No colour is as near to black as to white, since 510 does not divide 195075. -/
theorem distWhite_ne_distBlack (p : Colour) : p.distWhite ≠ p.distBlack := by
  have hlinear := distWhite_add_mul_sum p
  omega

/-- A sum of three squares of bytes is at most three times 255 squared. -/
theorem sum_sq_le {x y z : Nat} (hx : x ≤ 255) (hy : y ≤ 255) (hz : z ≤ 255) : x ^ 2 + y ^ 2 + z ^ 2 ≤ 195075 := by
  have hxx := Nat.pow_le_pow_left hx 2
  have hyy := Nat.pow_le_pow_left hy 2
  have hzz := Nat.pow_le_pow_left hz 2
  omega

theorem distBlack_le (p : Colour) : p.distBlack ≤ 195075 := sum_sq_le (by omega) (by omega) (by omega)

theorem distWhite_le (p : Colour) : p.distWhite ≤ 195075 := sum_sq_le (by omega) (by omega) (by omega)

/-- Settles O23: the distances differ by 195075 less 510 times the byte sum, which is positive up to 382, negative from
383 on, and never 0. -/
theorem defaultClassifierThreshold : Obligations.DefaultClassifierThreshold := by
  intro r g b
  simp only [← sq]
  exact ⟨classify_nearest_eq_white_iff, classify_nearest_eq_white_iff_sum, classify_nearest_eq_black_iff_sum,
    distWhite_ne_distBlack ⟨r, g, b⟩, distBlack_le ⟨r, g, b⟩, distWhite_le ⟨r, g, b⟩⟩

end Sys2Proof.Machine
end

section
/-! Entry of a fatal exception (R242, R243, R250) and the state it leads to (R251): what turns a block fatal is a piece
or an operation that a failed answer broke off, and an operation ends in the row its answers name. -/

namespace Sys2Proof.Machine

/-! ### Fatal entry of an instruction -/

theorem Broke.fatalEntry {P : Byte → Prop} {s t : State} (h : Broke P s t) : FatalEntry s t := by
  obtain ⟨hout, ⟨es, fs, hchunks, hbroken, hlogged⟩, hseq, -, -, -⟩ := h
  exact hbroken.fatalEntry hchunks hlogged hout.opened hseq

/-- A request turns the block fatal only by the operation it starts. -/
theorem halted_of_dispatch {op : HostOp} {s t : State} (h : dispatch op s = .next t) (hs : s.fatal = false)
    (ht : t.fatal = true) :
    Halted (fun _ => True) op { s with violation := s.violationAfter op } t ∧
      (runOp op { s with violation := s.violationAfter op }).outcome = .next t := by
  cases dispatch_inversion h with
  | notAccepted _ hst => simp [hst, hs] at ht
  | refused hst => simp [hst, hs] at ht
  | stopped _ hst => simp [hst, hs] at ht
  | starts _ _ ho => exact ⟨(outcomes_of_runOp ho).halted hs ht, ho⟩

theorem fatalEntry_of_exec {i : Instr} {s t : State} (h : exec i s = .next t) (hs : s.fatal = false)
    (ht : t.fatal = true) : FatalEntry s t := by
  cases execCases_of_exec h with
  | host op hop _ =>
    rw [hop, exec_hostInstr] at h
    obtain ⟨hhalted, -⟩ := halted_of_dispatch h hs ht
    exact hhalted.fatalEntry
  | reserved _ hr =>
    obtain ⟨-, rfl⟩ | ⟨-, rfl⟩ := hr
    · simp [hs] at ht
    · simp [hs] at ht
  | piece _ hp =>
    obtain ⟨-, -, -, -, hfatal, -⟩ | hbroke | ⟨-, -, -, -, -, hfatal, -⟩ := hp
    · simp [hfatal, hs] at ht
    · exact hbroke.fatalEntry
    · simp [hfatal, hs] at ht

/-! ### The row an operation ends in -/

/-- An operation that turns the block fatal stopped in one of its rows, counted from its first. -/
theorem fatalIn_of_dispatch {op : HostOp} {s t : State} (h : dispatch op s = .next t) (hs : s.fatal = false)
    (ht : t.fatal = true) : FatalIn op 0 s t := by
  obtain ⟨hhalted, ho⟩ := halted_of_dispatch h hs ht
  obtain ⟨row, hstops⟩ := runOp_stops (stopped_of_fatal (runOp_keepsFatal op _) ho hs ht)
  obtain ⟨es, fs, -, -, hlogged⟩ := hhalted.logged
  exact hstops.fatalIn hhalted.seq hlogged.T fun _ => .inl rfl

/-- Under the invariant what goes on is an operation in a row that waits, and it settles. -/
theorem State.Lifecycle.settles_of_resume {op : HostOp} {n : Nat} {s t : State} (hs : s.Lifecycle)
    (hq : s.seq = .run op n) (h : (resume s).outcome = .next t) : Settles (fun _ => True) op s t := by
  obtain ⟨hw, -, hn⟩ := hs.running_is_waiting op n hq
  obtain ⟨t', ht', ho⟩ := resume_waiting (P := fun _ => True) (fun _ _ => trivial) hq hw hn
  cases ht'.symm.trans h
  exact ho

theorem Settles.outcomes {P : Byte → Prop} {op : HostOp} {s t : State} (h : Settles P op s t) : Outcomes P op s t :=
  h.imp And.left (.imp_left And.left)

/-- An operation gone on with from row `n` that turns the block fatal stopped in a later row: still polling in row `n`
it would not have halted. -/
theorem fatal_of_resume {op : HostOp} {n : Nat} {s t : State} (hlife : s.Lifecycle) (hq : s.seq = .run op n)
    (h : (resume s).outcome = .next t) (hs : s.fatal = false) (ht : t.fatal = true) :
    FatalEntry s t ∧ FatalIn op (n + 1) s t := by
  have hhalted := (hlife.settles_of_resume hq h).outcomes.halted hs ht
  refine ⟨hhalted.fatalEntry, ?_⟩
  obtain ⟨hw, -, -⟩ := hlife.running_is_waiting op n hq
  obtain ⟨hpolls, -⟩ | ⟨row, hstops⟩ := resume_stops hq hw (stopped_of_fatal (resume_keepsFatal s) h hs ht)
  · rw [hhalted.seq] at hpolls
    cases hpolls
  · obtain ⟨es, fs, -, -, hlogged⟩ := hhalted.logged
    exact hstops.fatalIn hhalted.seq hlogged.T fun hop => .inr (hlife.inInit_is_inReset n (hop ▸ hq))

/-! ### Steps -/

/-- A step that turns the block fatal went on with a suspended operation, or ran the instruction of a request. -/
theorem fatal_of_step {s t : State} (hlife : s.Lifecycle) (h : step s = .next t) (hs : s.fatal = false)
    (ht : t.fatal = true) : FatalEntry s t ∧ ∀ op row, s.seq = .run op row → FatalIn op (row + 1) s t := by
  obtain ⟨-, hc⟩ := step_cases h
  cases hc with
  | goesOn hrun hr =>
    obtain ⟨op, n, hq⟩ := hlife.run_of_running hrun
    obtain ⟨hentry, -⟩ := fatal_of_resume hlife hq hr hs ht
    exact ⟨hentry, fun op' row hq' => (fatal_of_resume hlife hq' hr hs ht).2⟩
  | idles _ _ hst => simp [hst, hs] at ht
  | runs r rs i hrun _ _ he =>
    obtain ⟨-, hseq⟩ := running_eq_false_iff.mp hrun
    exact ⟨fatalEntry_of_exec (s := { s with inbox := rs }) he hs ht, fun op row hq => absurd hq (hseq op row)⟩

/-- Settles O36: an instruction by the ways it ends, an operation by the row it stops in, a step by its cases. -/
theorem fatalEntryIsPrecise : Obligations.FatalEntryIsPrecise := by
  refine ⟨fun i s t h hs ht => fatalEntry_of_exec h hs ht, fun op s t h hs ht => ?_,
    fun s t hlife h hs ht => fatal_of_step hlife h hs ht⟩
  rw [exec_hostInstr] at h
  exact fatalIn_of_dispatch h hs ht

/-- Settles O37: `fatal` is never cleared, and under the invariant a fatal block is a halted one. -/
theorem onlyPowerOnLeavesHalted : Obligations.OnlyPowerOnLeavesHalted := by
  intro s t hlife hq h
  obtain ⟨-, -, hsticky, -, -⟩ := stepOnlyAppendsAndKeepsStickyFlags s t h
  have hfatal : t.fatal = true := hsticky (hlife.fatal_iff_halted.mpr hq)
  exact ⟨(stepKeepsTheLifecycle s t hlife h).fatal_iff_halted.mp hfatal, hfatal⟩

end Sys2Proof.Machine
end

section
/-! What a request comes to before any operation starts: taken by a step, not accepted, refused, or stopped by STRICT
(R244, R245, R246, R249). -/

namespace Sys2Proof.Machine

/-! ### Accepted or not -/

/-- Settles O4: the three checks of a step pass, and it runs what the request decodes to. -/
theorem stepRunsTheDecodedInstruction : Obligations.StepRunsTheDecodedInstruction := by
  intro s r rs i hok hrun hinbox hdecode
  rw [step, if_pos hok, if_neg (by simp [hrun]), hinbox]
  simp only [hdecode]

theorem refuseReserved_of_running {s : State} (hrun : s.running = true) : refuseReserved s = .next s := if_pos hrun

/-- Settles O5: a step of a running block goes on with what runs, which reads no request; a request asked of it stops
at the first check of R249. -/
theorem runningBlockAcceptsNoRequest : Obligations.RunningBlockAcceptsNoRequest := by
  refine ⟨fun s t hrun h => ?step, fun op s hrun => ?host, fun s hrun => ?reserved⟩
  case step =>
    obtain ⟨-, hc⟩ := step_cases h
    cases hc with
    | goesOn _ hr => exact (went_of_resume hr).1.inbox
    | idles hno _ _ => simp [hrun] at hno
    | runs _ _ _ hno _ _ _ => simp [hrun] at hno
  case host => rw [exec_hostInstr, dispatch_of_running hrun]
  case reserved => exact ⟨refuseReserved_of_running hrun, refuseReserved_of_running hrun⟩

/-! ### Refused -/

/-- Each of the cases (b) to (e) of R244 refuses the request. -/
theorem refusedHere_of_case {op : HostOp} {s : State}
    (h : s.torn = true ∨ (s.opened = false ∧ op ≠ .setup) ∨ (s.opened = true ∧ op = .setup) ∨
      (s.seq = .halted ∧ op ≠ .teardown)) : refusedHere op s = true := by
  by_contra hok
  obtain ⟨htorn, hopened, hhalted⟩ := refusedHere_eq_false_iff.mp (Bool.eq_false_iff.mpr hok)
  obtain h | ⟨ho, hop⟩ | ⟨ho, hop⟩ | ⟨hq, hop⟩ := h
  · simp [htorn] at h
  · simp [hopened.mpr hop] at ho
  · exact hopened.mp ho hop
  · exact hop (hhalted hq)

/-- Settles O31: a reserved code is refused as such (case (a) of R244), and every other case stops a host operation at
the second check of R249. -/
theorem refusedRequestsOnlyRecordTheCode : Obligations.RefusedRequestsOnlyRecordTheCode := by
  refine ⟨fun i s hrun hi => ?_, fun op s hrun h => ?_⟩
  · obtain rfl | rfl := hi
    · exact refuseReserved_of_not_running hrun
    · exact refuseReserved_of_not_running hrun
  · rw [exec_hostInstr, dispatch_of_refused hrun (refusedHere_of_case h)]
    rfl

/-! ### Legal or not -/

/-- A ready block runs nothing and refuses no operation but Setup. -/
theorem State.ready.accepts {op : HostOp} {s : State} (h : s.ready) (hop : op ≠ .setup) :
    s.running = false ∧ refusedHere op s = false := by
  obtain ⟨hseq, hwaiting, hopened, htorn, -⟩ := h
  exact ⟨running_eq_false_iff.mpr ⟨hwaiting, by simp [hseq]⟩,
    refusedHere_eq_false_iff.mpr ⟨htorn, by simp [hopened, hop], by simp [hseq]⟩⟩

/-- Settles O32: the request is accepted, illegal in its phase, and STRICT keeps it from starting. -/
theorem strictBlockStopsSequenceViolations : Obligations.StrictBlockStopsSequenceViolations := by
  intro op s hready hop hstrict hillegal
  obtain ⟨hrun, hok⟩ := hready.accepts hop
  rw [exec_hostInstr, dispatch_of_accepted hrun hok, if_neg (by simp [hillegal, hstrict])]
  rfl

theorem drawable_iff {p : Phase} : p.drawable = true ↔ p = .initialized ∨ p = .cleared ∨ p = .displaying := by
  cases p <;> simp [Phase.drawable]

/-- Settles O33: Setup has its one phase, Initialize and Teardown have every phase, and the other three share the phases
that may be drawn on. -/
theorem legalPhasesAreTheTable : Obligations.LegalPhasesAreTheTable := fun _ _ _ =>
  ⟨decide_eq_true_iff, rfl, rfl, drawable_iff, drawable_iff, drawable_iff⟩

end Sys2Proof.Machine
end

section
/-! A program in the required order (R282) runs to a finished run (R284): in a block that is between operations, each
operation of the grammar passes the checks of R249 and runs to its end, on a transport that always answers and a panel
that always releases BUSY in the end. -/

namespace Sys2Proof.Machine

/-! ### The automaton of the required order -/

/-- The bus is open in the states between Setup and Teardown. -/
def Boot.busOpen : Boot → Bool
  | .closed => false
  | .opened => true
  | .drawable => true
  | .asleep => true
  | .ended => false

/-- The moves of the automaton, by the operation. -/
inductive Boot.Moves : Boot → HostOp → Boot → Prop
  | setup : Moves .closed .setup .opened
  | initPanel {b : Boot} : b.busOpen = true → Moves b .initPanel .drawable
  | clear : Moves .drawable .clear .drawable
  | display (black red : Option Image) : Moves .drawable (.display black red) .drawable
  | sleep : Moves .drawable .sleep .asleep
  | teardown {b : Boot} : b.busOpen = true → Moves b .teardown .ended

theorem Boot.moves_of_next {b b' : Boot} {op : HostOp} (h : b.next op = some b') : b.Moves op b' := by
  unfold Boot.next at h
  split at h
  · cases h; exact .setup
  · cases h; exact .initPanel rfl
  · cases h; exact .initPanel rfl
  · cases h; exact .clear
  · cases h; exact .display _ _
  · cases h; exact .sleep
  · cases h; exact .teardown rfl
  · cases h; exact .initPanel rfl
  · cases h; exact .teardown rfl
  · cases h

theorem Boot.ne_ended_of_busOpen {b : Boot} (h : b.busOpen = true) : b ≠ .ended := by
  rintro rfl
  cases h

/-- Setup is asked of a closed bus, and nothing else is. -/
theorem Boot.Moves.busOpen_iff {b b' : Boot} {op : HostOp} (h : b.Moves op b') :
    b.busOpen = true ↔ op ≠ .setup := by
  cases h with
  | setup => simp [Boot.busOpen]
  | initPanel ho => simp [ho]
  | clear => simp [Boot.busOpen]
  | display => simp [Boot.busOpen]
  | sleep => simp [Boot.busOpen]
  | teardown ho => simp [ho]

/-- Nothing follows Teardown. -/
theorem Boot.Moves.ne_ended {b b' : Boot} {op : HostOp} (h : b.Moves op b') : b ≠ .ended := by
  cases h with
  | initPanel ho => exact Boot.ne_ended_of_busOpen ho
  | teardown ho => exact Boot.ne_ended_of_busOpen ho
  | _ => nofun

theorem bootOrder_nil {b : Boot} : bootOrder b [] = true ↔ b = .ended := decide_eq_true_iff

theorem bootOrder_cons {b : Boot} {op : HostOp} {ops : List HostOp} (h : bootOrder b (op :: ops) = true) :
    ∃ b', b.Moves op b' ∧ bootOrder b' ops = true := by
  rw [bootOrder] at h
  split at h
  · next b' hnext => exact ⟨b', Boot.moves_of_next hnext, h⟩
  · cases h

/-- What the state of the automaton says of the block: its bus, and a phase to set up or to draw in. -/
structure Boot.Describes (b : Boot) (s : State) : Prop where
  opened : s.opened = b.busOpen
  torn : s.torn = decide (b = .ended)
  fresh : b = .closed → s.phase = .uninitialized
  drawable : b = .drawable → s.phase.drawable = true

theorem Boot.Describes.not_torn {b : Boot} {s : State} (hb : b.Describes s) (hended : b ≠ .ended) : s.torn = false :=
  hb.torn.trans (decide_eq_false hended)

/-- The grammar never asks for what R244 refuses. -/
theorem Boot.Moves.not_refused {b b' : Boot} {op : HostOp} {s : State} (hm : b.Moves op b') (hb : b.Describes s)
    (hidle : s.seq = .idle) : refusedHere op s = false :=
  refusedHere_eq_false_iff.mpr
    ⟨hb.not_torn hm.ne_ended, by rw [hb.opened, hm.busOpen_iff], by simp [hidle]⟩

/-- The grammar asks for an operation only in a phase where R245 allows it. -/
theorem Boot.Moves.legal {b b' : Boot} {op : HostOp} {s : State} (hm : b.Moves op b') (hb : b.Describes s) :
    legalIn op s.phase = true := by
  cases hm with
  | setup => exact decide_eq_true (hb.fresh rfl)
  | initPanel => rfl
  | clear => exact hb.drawable rfl
  | display => exact hb.drawable rfl
  | sleep => exact hb.drawable rfl
  | teardown => rfl

/-- What the last row of an operation records is what the automaton moves to. -/
theorem Boot.Moves.describes_finish {b b' : Boot} {op : HostOp} {s : State} (hm : b.Moves op b')
    (hb : b.Describes s) : b'.Describes (finish op s) := by
  cases hm with
  | setup => exact ⟨rfl, hb.torn, nofun, nofun⟩
  | initPanel ho => exact ⟨hb.opened.trans ho, hb.not_torn (ne_ended_of_busOpen ho), nofun, fun _ => rfl⟩
  | clear => exact ⟨hb.opened, hb.torn, nofun, fun _ => rfl⟩
  | display => exact ⟨hb.opened, hb.torn, nofun, fun _ => rfl⟩
  | sleep => exact ⟨hb.opened, hb.torn, nofun, nofun⟩
  | teardown => exact ⟨rfl, rfl, nofun, nofun⟩

/-! ### Operations that run through -/

/-- Between operations of a run that is still good (R284), on a transport that always answers and a panel that releases
BUSY in the end. -/
structure State.Healthy (s : State) : Prop where
  accepted : s.cfg.ok = true
  idle : s.seq = .idle
  notWaiting : s.waiting = false
  notFatal : s.fatal = false
  noCode : s.err = .none
  noViolation : s.violation = false
  linkOk : s.linkAlwaysOk
  releases : s.busy.rest ≠ s.cfg.busyActive

/-- A panel that does not hold BUSY for ever is done with any wait after some polls. -/
theorem exists_holdsBusy {s : State} (h : s.busy.rest ≠ s.cfg.busyActive) (start : Nat) :
    ∃ n, s.holdsBusy start n := by
  have hex : ∃ n, s.busy.get (start + n) ≠ s.cfg.busyActive :=
    ⟨s.busy.listed.length, by rwa [Oracle.get_of_length_le _ _ (by omega)]⟩
  exact ⟨Nat.find hex, fun m hm => not_not.mp (Nat.find_min hex hm), Nat.find_spec hex⟩

/-- `t` with everything the checks of a request read taken from `u`, and nothing running. -/
def State.withControl (t u : State) : State :=
  { t with cfg := u.cfg, inbox := u.inbox, seq := .idle, waiting := false, opened := u.opened, torn := u.torn
           fatal := u.fatal, err := u.err, phase := u.phase, violation := u.violation }

/-- From `s` to `t` the operation ran to its end: its last row recorded what it records, and the transport and the
panel gave some of their answers. -/
structure RanThrough (op : HostOp) (s t : State) : Prop where
  control : t = t.withControl (finish op s)
  link : ∃ n, t.link = s.link.skip n
  busy : ∃ n, t.busy = s.busy.skip n

/-- The last row of an operation records a phase or the state of the bus. -/
theorem finish_environment (op : HostOp) (s : State) :
    (finish op s).cfg = s.cfg ∧ (finish op s).inbox = s.inbox ∧ (finish op s).err = s.err ∧
      (finish op s).violation = s.violation := by
  cases op <;> exact ⟨rfl, rfl, rfl, rfl⟩

theorem RanThrough.environment {op : HostOp} {s t : State} (h : RanThrough op s t) :
    t.cfg = s.cfg ∧ t.inbox = s.inbox := by
  obtain ⟨hcfg, hinbox, -, -⟩ := finish_environment op s
  exact ⟨(congrArg State.cfg h.control).trans hcfg, (congrArg State.inbox h.control).trans hinbox⟩

theorem RanThrough.healthy {op : HostOp} {s t : State} (h : RanThrough op s t) (hs : s.Healthy) : t.Healthy := by
  obtain ⟨-, -, herr, hviolation⟩ := finish_environment op s
  obtain ⟨hcfg, -⟩ := h.environment
  obtain ⟨m, hlink⟩ := h.link
  obtain ⟨n, hbusy⟩ := h.busy
  exact {
    accepted := hcfg ▸ hs.accepted
    idle := congrArg State.seq h.control
    notWaiting := congrArg State.waiting h.control
    notFatal := (congrArg State.fatal h.control).trans ((finish_fatal op s).trans hs.notFatal)
    noCode := (congrArg State.err h.control).trans (herr.trans hs.noCode)
    noViolation := (congrArg State.violation h.control).trans (hviolation.trans hs.noViolation)
    linkOk := fun k => by rw [hlink, Oracle.get_skip]; exact hs.linkOk (m + k)
    releases := by rw [hbusy, hcfg]; exact hs.releases }

theorem RanThrough.describes {op : HostOp} {s t : State} {b : Boot} (h : RanThrough op s t)
    (hb : b.Describes (finish op s)) : b.Describes t := by
  rw [h.control]
  exact ⟨hb.opened, hb.torn, hb.fresh, hb.drawable⟩

/-- Every operation runs to its end, with as many busy polls in its waits as the panel asks for. -/
theorem runOp_of_healthy {s : State} (op : HostOp) (hs : s.Healthy) :
    ∃ t, runOp op s = .done t ∧ RanThrough op s t := by
  have hl : ∀ n, s.linkOk n := fun _ m _ => hs.linkOk m
  have hb := exists_holdsBusy hs.releases
  have hg := geometryOk_of_ok hs.accepted
  cases op with
  | setup =>
    refine ⟨_, runOp_setup_of_ok hs.idle hs.notFatal (hs.linkOk 0), ?_, ⟨_, rfl⟩, ⟨_, rfl⟩⟩
    simp [State.withControl, finish, State.performed, hs.idle, hs.notWaiting]
  | initPanel =>
    obtain ⟨n1, h1⟩ := hb 0
    obtain ⟨n2, h2⟩ := hb (n1 + 1)
    obtain ⟨n3, h3⟩ := hb (n1 + n2 + 2)
    obtain ⟨n13, h13⟩ := hb (n1 + n2 + n3 + 3)
    exact ⟨_, runOp_initPanel_of_ok hs.notWaiting hs.notFatal (hl _) h1 h2 h3 h13, rfl, ⟨_, rfl⟩, ⟨_, rfl⟩⟩
  | clear =>
    obtain ⟨n, h⟩ := hb 0
    exact ⟨_, runOp_clear_of_ok hs.notWaiting hs.notFatal (hl _) h, rfl, ⟨_, rfl⟩, ⟨_, rfl⟩⟩
  | display b r =>
    obtain ⟨n, h⟩ := hb 0
    obtain ⟨u, v, hu, hv, hrun⟩ := runOp_display_of_ok (b := b) (r := r) hg hs.notWaiting hs.notFatal (hl _) h
    refine ⟨_, hrun, ?_, ?_, ?_⟩
    · rw [hu.frame_trans hv]
      rfl
    · exact ⟨_, congrArg (Oracle.skip _) (hv.link.trans hu.link)⟩
    · exact ⟨_, congrArg (Oracle.skip _) (hv.busy.trans hu.busy)⟩
  | sleep => exact ⟨_, runOp_sleep_of_ok hs.notWaiting hs.notFatal (hl _), rfl, ⟨_, rfl⟩, ⟨_, rfl⟩⟩
  | teardown =>
    refine ⟨_, runOp_teardown_of_settled (by simp [hs.idle, hs.notFatal]), ?_, ⟨_, rfl⟩, ⟨_, rfl⟩⟩
    simp [State.withControl, finish, State.performed, hs.idle, hs.notWaiting]

/-! ### Requests and programs -/

/-- An operation of the grammar, asked of a healthy block, runs through. -/
theorem dispatch_of_moves {s : State} {b b' : Boot} {op : HostOp} (hm : b.Moves op b') (hb : b.Describes s)
    (hs : s.Healthy) : ∃ t, dispatch op s = .next t ∧ RanThrough op s t := by
  have hrunning : s.running = false := running_eq_false_iff.mpr ⟨hs.notWaiting, by simp [hs.idle]⟩
  have hlegal := hm.legal hb
  have hviolation : s.violationAfter op = s.violation := by simp [State.violationAfter, hlegal]
  obtain ⟨t, hrun, ht⟩ := runOp_of_healthy op hs
  refine ⟨t, ?_, ht⟩
  rw [dispatch_of_accepted hrunning (hm.not_refused hb hs.idle), hlegal, hviolation, hrun]
  rfl

theorem encode_hostInstr (c : Cfg) (op : HostOp) : ∃ r, encode c (hostInstr op) = some r := by
  cases op <;> exact ⟨_, rfl⟩

/-- The requests of a program (log 7). -/
def requests (c : Cfg) (ops : List HostOp) : List Request := ops.filterMap fun op => encode c (hostInstr op)

theorem requests_cons (c : Cfg) (op : HostOp) (ops : List HostOp) :
    ∃ r, encode c (hostInstr op) = some r ∧ requests c (op :: ops) = r :: requests c ops := by
  obtain ⟨r, hr⟩ := encode_hostInstr c op
  exact ⟨r, hr, List.filterMap_cons_some hr⟩

/-- One step takes the next request of the program, runs it through and leaves the rest (log 14). -/
theorem step_of_moves {s : State} {b b' : Boot} {op : HostOp} {ops : List HostOp} (hm : b.Moves op b')
    (hb : b.Describes s) (hs : s.Healthy) (hinbox : s.inbox = requests s.cfg (op :: ops)) :
    ∃ t, step s = .next t ∧ b'.Describes t ∧ t.Healthy ∧ t.inbox = requests t.cfg ops := by
  obtain ⟨r, hr, hcons⟩ := requests_cons s.cfg op ops
  have hrunning : s.running = false := running_eq_false_iff.mpr ⟨hs.notWaiting, by simp [hs.idle]⟩
  have hb' : b.Describes { s with inbox := requests s.cfg ops } := ⟨hb.opened, hb.torn, hb.fresh, hb.drawable⟩
  have hs' : State.Healthy { s with inbox := requests s.cfg ops } :=
    ⟨hs.accepted, hs.idle, hs.notWaiting, hs.notFatal, hs.noCode, hs.noViolation, hs.linkOk, hs.releases⟩
  obtain ⟨t, hdispatch, ht⟩ := dispatch_of_moves hm hb' hs'
  obtain ⟨hcfg, hrest⟩ := ht.environment
  refine ⟨t, ?_, ht.describes (hm.describes_finish hb'), ht.healthy hs', ?_⟩
  · rw [stepRunsTheDecodedInstruction s r _ _ hs.accepted hrunning (hinbox.trans hcons)
      (decode_encode_hostInstr op hr), exec_hostInstr, hdispatch]
  · rw [hrest, hcfg]

/-- A sentence of the grammar runs to its end, one step an operation. -/
theorem run_of_bootOrder : ∀ (ops : List HostOp) (b : Boot) (s : State), bootOrder b ops = true → b.Describes s →
    s.Healthy → s.inbox = requests s.cfg ops →
    ∃ t, Host.Core.run Sys2Proof.core ops.length s = .next t ∧ Boot.ended.Describes t ∧ t.Healthy ∧ t.inbox = []
  | [], b, s, horder, hb, hs, hinbox => ⟨s, run_zero s, bootOrder_nil.mp horder ▸ hb, hs, hinbox⟩
  | op :: ops, b, s, horder, hb, hs, hinbox => by
    obtain ⟨b', hm, horder'⟩ := bootOrder_cons horder
    obtain ⟨t, hstep, hb', hs', hinbox'⟩ := step_of_moves hm hb hs hinbox
    obtain ⟨u, hrun, hu⟩ := run_of_bootOrder ops b' t horder' hb' hs' hinbox'
    exact ⟨u, (run_succ ops.length hstep).trans hrun, hu⟩

/-- Settles O51: at every state of the automaton the block is between operations and as that state describes it; the
last one describes a torn block. -/
theorem requiredOrderGivesAFinishedRun : Obligations.RequiredOrderGivesAFinishedRun := by
  intro ops s horder hok hidle hwaiting hopened htorn hfatal herr hviolation hphase hlink hbusy hinbox
  have hfresh : Boot.closed.Describes s := ⟨hopened, htorn, fun _ => hphase, nofun⟩
  have hhealthy : s.Healthy := ⟨hok, hidle, hwaiting, hfatal, herr, hviolation, hlink, hbusy⟩
  obtain ⟨t, hrun, hended, ht, hempty⟩ := run_of_bootOrder ops .closed s horder hfresh hhealthy hinbox
  refine ⟨t, hrun, ?_, hempty⟩
  simp [State.finished, ht.idle, hended.torn, ht.notFatal, ht.noCode, ht.noViolation]

end Sys2Proof.Machine
end
